-- ==== Sys2Proof/Word.lean ====
section
/-! DEFINITION. The two word types: 32-bit register words and 8-bit stream bytes (00_scope.md R14, R17). -/

namespace Sys2Proof

/-- A 32-bit register word: every register, the length field and the CRC field (R14). -/
abbrev Word := BitVec 32

/-- The 8 data bits of a stream token, and one byte of BUF (R14). -/
abbrev Byte := BitVec 8

end Sys2Proof
end

