-- ==== Sys2Proof/Syntax.lean ====
section
/-! DEFINITION. The seven commands, one constructor for each row of the opcode table (30_encoding.md R100). -/

namespace Sys2Proof

/-- A command word of the engine. No command carries an operand field, an immediate or a mode
(R100, R101): the whole word is the opcode. -/
inductive Instr where
  /-- NOP, 0x00000000 (R233). -/
  | nop
  /-- TCHK, 0x00000001 (R148). -/
  | tchk
  /-- BUILD, 0x00000002 (R190). -/
  | build
  /-- PARSE, 0x00000003 (R160). -/
  | parse
  /-- EMIT, 0x00000004 (R210). -/
  | emit
  /-- EMITD, 0x00000005 (R216). -/
  | emitd
  /-- SRST, 0x00000006 (R234). -/
  | srst
deriving DecidableEq, Repr

end Sys2Proof
end

