-- ==== Sys2Proof/Decode.lean ====
section
/-! DEFINITION. The decoder and the encoder of command words (30_encoding.md R100, R102, R103), and the
host's view of the decoder, `decodeTableWord`. -/

namespace Sys2Proof

/-- Why a word is no command. -/
inductive DecodeError where
  /-- A value from 0x00000007 to 0xFFFFFFFF (30_encoding.md R102). The engine answers it with ERR = 10
  while idle and with OVR while busy (45 R235, R236): the word is not a command, the write still is
  an event with a defined effect. -/
  | illegalCommand (w : Word)
deriving DecidableEq, Repr

/-- One row of the encoding table: a word w is this command when w masked equals the match value. -/
structure CommandRow where
  mask : Word
  pattern : Word
  instr : Instr
deriving DecidableEq, Repr

/-- The table of R100: match = the value, mask = 0xFFFFFFFF for all seven. -/
def commandTable : List CommandRow :=
  [ ⟨0xFFFFFFFF#32, 0x00000000#32, .nop⟩,
    ⟨0xFFFFFFFF#32, 0x00000001#32, .tchk⟩,
    ⟨0xFFFFFFFF#32, 0x00000002#32, .build⟩,
    ⟨0xFFFFFFFF#32, 0x00000003#32, .parse⟩,
    ⟨0xFFFFFFFF#32, 0x00000004#32, .emit⟩,
    ⟨0xFFFFFFFF#32, 0x00000005#32, .emitd⟩,
    ⟨0xFFFFFFFF#32, 0x00000006#32, .srst⟩ ]

/-- The first row of a table that a word matches. -/
def matchRow : List CommandRow → Word → Option Instr
  | [], _ => none
  | r :: rows, w => if w &&& r.mask = r.pattern then some r.instr else matchRow rows w

/-- The command a word stands for; every other word is rejected by name (R102). The WHOLE word is
compared: a legal value in the low bits with anything above it is illegal. -/
def decode (w : Word) : Except DecodeError Instr :=
  match matchRow commandTable w with
  | some i => .ok i
  | none => .error (.illegalCommand w)

/-- The command word of a command (R100). -/
def encode : Instr → Word
  | .nop => 0x00000000#32
  | .tchk => 0x00000001#32
  | .build => 0x00000002#32
  | .parse => 0x00000003#32
  | .emit => 0x00000004#32
  | .emitd => 0x00000005#32
  | .srst => 0x00000006#32

/-- The 32-bit command word of which the low nbits bits of w are given and every bit above is 0. -/
def tableWord (nbits w : Nat) : Word := BitVec.ofNat 32 (w % 2 ^ nbits)

/-- What the decoder reads from an instruction whose low nbits bits are w. A register is a 32-bit number
that the port moves whole, so no byte order enters (20_memory.md R66); no command is longer than one
32-bit word (R103), so a longer one is refused. -/
def decodeTableWord (nbits w : Nat) : Option Instr :=
  if nbits ≤ 32 then
    match decode (tableWord nbits w) with
    | .ok i => some i
    | .error _ => none
  else none

end Sys2Proof
end

