-- ==== Sys2Proof/Config.lean ====
section
/-! DEFINITION. What an implementation of the engine fixes and the spec leaves open (00_scope.md R8, R12). -/

namespace Sys2Proof

/-- PAYLOAD_CAP, the number of bytes BUF holds: any value from 0 to 2^32 - 1 (00_scope.md R12, 93 U5).
It has no body: nothing can be proved of its value, so what is proved of the machine after reset holds
for every capacity. DESIGN CHOICE (log 1): the machine carries it in the State field `cap`. -/
opaque Config.payloadCap : Word

/-- What a byte of BUF that nothing has written reads as. The spec leaves it unspecified and says that
"a model may initialise BUF to zeros; no observation can tell" (10_state.md R32, 93 U2).
DESIGN CHOICE (log 2), unsafe. -/
def Config.unlistedByte : Byte := 0

end Sys2Proof
end

