-- ==== Sys2Proof/Machine/State.lean ====
section
/-! DEFINITION. The state of the engine, its two streams and its host (10_state.md R20, 20_memory.md R61, R62),
the reasons a step can stop, and the state after reset (10_state.md R47). -/

namespace Sys2Proof.Machine

open Sys2Proof

/-- One item of a stream: a data byte, or the end-of-slice mark, which is framing and never a byte of
a wire form (20_memory.md R61, R63). -/
inductive Token where
  | byte (b : Byte)
  | eos
deriving DecidableEq, Repr

/-- PHASE, what the engine is doing (10_state.md R28). No numeric encoding is defined: the host sees
only whether it is IDLE. -/
inductive Phase where
  | idle
  | pLen
  | pType
  | pData
  | pCrc
  | bData
  | eLen
  | eType
  | eData
  | eCrc
  | eEos
  | dData
  | dEos
deriving DecidableEq, Repr

/-- The eight host-visible registers x[0] to x[7] (10_state.md R33). -/
inductive Reg where
  | cmd
  | status
  | tvin
  | tvflags
  | clen
  | ctype
  | ccrc
  | cap
deriving DecidableEq, Repr

/-- One action of the host (30_encoding.md R104; 00_scope.md R7), or its giving the engine the turn. -/
inductive HostAct where
  /-- RD reg: read a register (R230). -/
  | rd (r : Reg)
  /-- WR reg, value: write a register (R231); a write of CMD issues a command (R232). -/
  | wr (r : Reg) (v : Word)
  /-- IN or EOS: push one token onto INQ (20_memory.md R61). -/
  | push (t : Token)
  /-- Take the head token of OUTQ, if there is one (20_memory.md R62; log 9). -/
  | pop
  /-- OUT: pop tokens from OUTQ until it is empty (R104; log 9). -/
  | drain
  /-- Remove the head token of INQ, if there is one, on the host's side of the queue (70 R330, R331;
  log 9). -/
  | discard
  /-- Remove the tokens of INQ up to and including the first EOS, on the host's side of the queue
  (70 R331; log 9). -/
  | flush
  /-- Move the head token of OUTQ, if there is one, to the tail of INQ (70 R332; log 9). -/
  | feed
  /-- WAIT: read STATUS repeatedly until BUSY = 0 (R104; log 9). -/
  | wait
  /-- RESET: assert the hardware reset (70 R320). -/
  | reset
  /-- The host does nothing for one engine step: the engine has the turn (log 6). -/
  | engine
deriving DecidableEq, Repr

/-- What the host has learned by one of its actions (log 7). -/
inductive HostObs where
  /-- The value a read of a register returned (R230). -/
  | read (r : Reg) (v : Word)
  /-- A token taken from OUTQ (20_memory.md R62). -/
  | token (t : Token)
deriving DecidableEq, Repr

/-- The contents of BUF: (index, byte) pairs with indices strictly rising and no pair whose byte equals
what an unlisted index reads as (log 2). -/
abbrev Memory := List Host.Cell

/-- The state of the machine. The first twelve fields are the engine's items (10_state.md R20: "exactly
these twelve items"); cap is the parameter PAYLOAD_CAP, which the register CAP shows (R41; log 1);
inq and outq are the streams (20_memory.md R61, R62); script and seen are the MODEL's own fields, the
host's actions to come and what it has learned (log 6, 7). -/
structure State where
  /-- TVIN (R21). -/
  tvin : Word
  /-- LEN (R22). -/
  len : Word
  /-- TYP (R23). -/
  typ : Word
  /-- CRCR (R24). -/
  crcr : Word
  /-- CV, "chunk valid" (R25). -/
  cv : Bool
  /-- ERR, the result code of the last accepted command (R26). -/
  err : BitVec 4
  /-- OVR, sticky: a command was written while busy (R27). -/
  ovr : Bool
  /-- PHASE (R28). -/
  phase : Phase
  /-- IDX, the bytes done in the current phase (R29). -/
  idx : Word
  /-- ACC, the running CRC accumulator (R30). -/
  acc : Word
  /-- SCRC, the stored CRC as read from the stream (R31). -/
  scrc : Word
  /-- BUF, the payload bytes (R32). -/
  buf : Memory
  /-- PAYLOAD_CAP, constant (R41, 00_scope.md R12; log 1). -/
  cap : Word
  /-- INQ, the input stream, head first (20_memory.md R61). -/
  inq : List Token
  /-- OUTQ, the output stream, head first (20_memory.md R62). -/
  outq : List Token
  /-- The host actions still to come (the model's own field; log 6). -/
  script : List HostAct
  /-- What the host has read and popped, oldest first (the model's own field; log 7). -/
  seen : List HostObs
deriving DecidableEq, Repr

/-- Why a step stops with a fault. Neither is reached from a state that meets Inv (Safety.lean): the
spec's own errors are next states with a code in ERR (60_exceptions.md R290, R309). -/
inductive Fault where
  /-- Raised by the payload steps of PARSE, BUILD, EMIT and EMITD for an access to BUF at an index of
  PAYLOAD_CAP or more, a byte that does not exist (20_memory.md R71: "no out-of-range buffer access can
  occur and none needs a defined behaviour"). Safe: the model stops (log 12). -/
  | bufferRange
  /-- Raised by the 4-byte steps of EMIT when IDX is above 3: byte_k is defined for k = 0 to 3 only
  (00_scope.md R16). Safe: the model stops (log 13). -/
  | fieldIndex
deriving DecidableEq, Repr

/-- Why a step is refused. -/
inductive Refusal where
  /-- Raised by exec for a command that has no meaning yet; no arm raises it. Safe: the model stops. -/
  | notModelled (mnemonic : String)
deriving DecidableEq, Repr

/-- The outcome of one step of this machine. -/
abbrev Result := Host.Outcome State Fault Refusal

/-- The machine right after reset: every item at the value of 10_state.md R47, the queues and the
host's script empty (log 5, 6). -/
def State.reset : State where
  tvin := 0x00000000#32
  len := 0x00000000#32
  typ := 0x00000000#32
  crcr := 0x00000000#32
  cv := false
  err := 0x0#4
  ovr := false
  phase := .idle
  idx := 0x00000000#32
  acc := 0xFFFFFFFF#32
  scrc := 0x00000000#32
  buf := []
  cap := Config.payloadCap
  inq := []
  outq := []
  script := []
  seen := []

end Sys2Proof.Machine
end

