-- ==== Sys2Proof/Machine/Operands.lean ====
section
/-! DEFINITION. The operand forms: bytes of a word, big-endian assembly, shifting a byte into a field, and
the register index (00_scope.md R16; 10_state.md R33). -/

namespace Sys2Proof.Machine

open Sys2Proof

/-- byte_k(v) = v[31-8k : 24-8k], for k = 0, 1, 2, 3: byte 0 is the most significant (R16). -/
def byteK (k : Nat) (v : Word) : Byte := (v >>> (24 - 8 * k)).setWidth 8

/-- be32(v), the four bytes of v, most significant first (R16). -/
def be32 (v : Word) : List Byte := [byteK 0 v, byteK 1 v, byteK 2 v, byteK 3 v]

/-- from_be32(b0, b1, b2, b3) = b0*2^24 + b1*2^16 + b2*2^8 + b3 (R16). -/
def fromBe32 (b0 b1 b2 b3 : Byte) : Word := b0 ++ b1 ++ b2 ++ b3

/-- One byte shifted into a 4-byte field, most significant byte first: (v << 8)[31:0] + zext_32(b)
(42 R161, R162, R164). -/
def shiftIn (v : Word) (b : Byte) : Word := (v <<< 8) + b.setWidth 32

/-- The 3-bit word index of a register (10_state.md R33). -/
def Reg.index : Reg → BitVec 3
  | .cmd => 0#3
  | .status => 1#3
  | .tvin => 2#3
  | .tvflags => 3#3
  | .clen => 4#3
  | .ctype => 5#3
  | .ccrc => 6#3
  | .cap => 7#3

/-- The register a 3-bit word index selects: the index is 3 bits wide, so every value names one (R42). -/
def Reg.ofIndex (n : BitVec 3) : Reg :=
  if n = 0#3 then .cmd
  else if n = 1#3 then .status
  else if n = 2#3 then .tvin
  else if n = 3#3 then .tvflags
  else if n = 4#3 then .clen
  else if n = 5#3 then .ctype
  else if n = 6#3 then .ccrc
  else .cap

/-- The byte offset 4n of register n from the block's base on a byte-addressed bus (R33). -/
def Reg.offset (r : Reg) : Nat := 4 * r.index.toNat

end Sys2Proof.Machine
end

