-- ==== Sys2Proof/Machine/Crc.lean ====
section
/-! DEFINITION. The CRC unit: CRC-32/ISO-HDLC as the three functions of 40_crc_unit.md R121 to R124, and the
two equivalent forms of R130 and R131. The numbers are the spec's, which it marks as general knowledge
(93 G1; log 19). -/

namespace Sys2Proof.Machine

open Sys2Proof

/-- crc_init, the accumulator before the first byte (R121). -/
def crcInit : Word := 0xFFFFFFFF#32

/-- The polynomial constant of the reflected form (R120). -/
def crcPoly : Word := 0xEDB88320#32

/-- One round of crc_update: a logical right shift, and the polynomial when bit 0 was 1 (R122). -/
def crcRound (a : Word) : Word :=
  if a.getLsbD 0 then (a >>> 1) ^^^ crcPoly else a >>> 1

/-- n rounds (R122 takes eight). -/
def crcRounds : Nat → Word → Word
  | 0, a => a
  | n + 1, a => crcRounds n (crcRound a)

/-- crc_update(acc, b), the accumulator after one more byte (R122). -/
def crcUpdate (acc : Word) (b : Byte) : Word := crcRounds 8 (acc ^^^ b.setWidth 32)

/-- crc_final(acc), the checksum from the accumulator (R123). -/
def crcFinal (acc : Word) : Word := acc ^^^ 0xFFFFFFFF#32

/-- The accumulator carried over a byte sequence from a given start (R124, R125). -/
def crcFold (acc : Word) (s : List Byte) : Word := s.foldl crcUpdate acc

/-- crc32(s), the checksum of a byte sequence of any length (R124). -/
def crc32 (s : List Byte) : Word := crcFinal (crcFold crcInit s)

/-- T[n], entry n of the table form: eight rounds applied to n with no byte exclusive-ored in (R130). -/
def crcTable (n : Byte) : Word := crcRounds 8 (n.setWidth 32)

/-- The table form of crc_update (R130). -/
def crcUpdateTable (acc : Word) (b : Byte) : Word :=
  crcTable ((acc ^^^ b.setWidth 32).setWidth 8) ^^^ (acc >>> 8)

/-- One round of the unreflected form: a left shift, and 0x04C11DB7 when bit 31 was 1 (R131). -/
def crcRoundUnreflected (r : Word) : Word :=
  if r.getLsbD 31 then (r <<< 1) ^^^ 0x04C11DB7#32 else r <<< 1

/-- n rounds of the unreflected form. -/
def crcRoundsUnreflected : Nat → Word → Word
  | 0, r => r
  | n + 1, r => crcRoundsUnreflected n (crcRoundUnreflected r)

/-- One byte of the unreflected form: the bit-reversed byte enters bits 31:24 before eight rounds (R131). -/
def crcUpdateUnreflected (r : Word) (b : Byte) : Word :=
  crcRoundsUnreflected 8 (r ^^^ (b.reverse.setWidth 32 <<< 24))

/-- The checksum by the unreflected form: the register starts at 0xFFFFFFFF and the result is its bit
reversal exclusive-ored with 0xFFFFFFFF (R131). -/
def crc32Unreflected (s : List Byte) : Word :=
  (s.foldl crcUpdateUnreflected 0xFFFFFFFF#32).reverse ^^^ 0xFFFFFFFF#32

end Sys2Proof.Machine
end

