-- ==== Sys2Proof/Machine/Flags.lean ====
section
/-! DEFINITION. The flag computations: the type validator's predicates and TVFLAGS (41_type_validator.md R140 to
R147), and STATUS (10_state.md R35). -/

namespace Sys2Proof.Machine

open Sys2Proof

/-- is_alpha(b): an ASCII letter, 0x41 to 0x5A or 0x61 to 0x7A (R140; 93 G2). -/
def isAlpha (b : Byte) : Bool :=
  decide (0x41 ≤ b.toNat ∧ b.toNat ≤ 0x5A) || decide (0x61 ≤ b.toNat ∧ b.toNat ≤ 0x7A)

/-- alpha4(v): all four bytes of v are letters (R141). -/
def alpha4 (v : Word) : Bool :=
  isAlpha (byteK 0 v) && isAlpha (byteK 1 v) && isAlpha (byteK 2 v) && isAlpha (byteK 3 v)

/-- critical(v): bit 5 of byte 0 is 0 (R142). -/
def critical (v : Word) : Bool := !v.getLsbD 29

/-- public(v): bit 5 of byte 1 is 0 (R143). -/
def isPublic (v : Word) : Bool := !v.getLsbD 21

/-- reserved_ok(v): bit 5 of byte 2 is 0 (R144). -/
def reservedOk (v : Word) : Bool := !v.getLsbD 13

/-- safe_to_copy(v): bit 5 of byte 3 is 1, the one predicate that is true on a set bit (R145). -/
def safeToCopy (v : Word) : Bool := v.getLsbD 5

/-- valid(v) = reserved_ok(v) and alpha4(v), nothing more (R146; 90_conflicts.md C3, C6; log 17). -/
def isValid (v : Word) : Bool := reservedOk v && alpha4 v

/-- TVFLAGS as a function of TVIN: zext_32 of the six flags, alpha4 in bit 0 and valid in bit 5 (R147). -/
def tvFlags (v : Word) : Word :=
  (BitVec.ofBool (isValid v) ++ BitVec.ofBool (safeToCopy v) ++ BitVec.ofBool (reservedOk v) ++
    BitVec.ofBool (isPublic v) ++ BitVec.ofBool (critical v) ++ BitVec.ofBool (alpha4 v)).setWidth 32

/-- One bit as a 32-bit number. -/
def bitWord (b : Bool) : Word := if b then 1#32 else 0#32

/-- BUSY = 1 exactly when PHASE is not IDLE (10_state.md R28). -/
def busy (s : State) : Bool := decide (s.phase ≠ .idle)

/-- STATUS = OVR*4 + CV*2 + BUSY + ERR*16 (10_state.md R35). -/
def statusWord (s : State) : Word :=
  bitWord s.ovr * 4#32 + bitWord s.cv * 2#32 + bitWord (busy s) + s.err.setWidth 32 * 16#32

end Sys2Proof.Machine
end

