-- ==== Sys2Proof/Machine/Ops.lean ====
section
/-! DEFINITION. The named operations of every rule (00_scope.md R18): reads and writes of BUF, the token queues,
raising an error (the engine's one exception mechanism, 60_exceptions.md R301), ending a command, moving
to a phase, accepting a command, and the soft reset. -/

namespace Sys2Proof.Machine

open Sys2Proof

/-! ## BUF -/

/-- The canonical form: indices strictly rising, and no listed byte equal to what an unlisted one reads as. -/
def Memory.wf : Memory → Bool
  | [] => true
  | c :: m => decide (c.2 ≠ Config.unlistedByte) && m.all (fun d => decide (c.1 < d.1)) && Memory.wf m

/-- Every listed index is below n. -/
def Memory.below (m : Memory) (n : Nat) : Bool := m.all (fun c => decide (c.1 < n))

/-- The byte at an index, listed or not. -/
def Memory.read : Memory → Nat → Byte
  | [], _ => Config.unlistedByte
  | c :: m, a => if c.1 = a then c.2 else Memory.read m a

/-- Store a byte at an index and keep the canonical form. -/
def Memory.write : Memory → Nat → Byte → Memory
  | [], a, b => if b = Config.unlistedByte then [] else [(a, b)]
  | c :: m, a, b =>
    if a < c.1 then (if b = Config.unlistedByte then c :: m else (a, b) :: c :: m)
    else if a = c.1 then (if b = Config.unlistedByte then m else (a, b) :: m)
    else c :: Memory.write m a b

/-- BUF[0 .. n-1], the first n bytes in order. -/
def Memory.prefixBytes (m : Memory) (n : Nat) : List Byte := (List.range n).map (Memory.read m)

/-- MemRead(a, 1) = BUF[a]; BUF has the indices 0 to PAYLOAD_CAP - 1 only (R18; 20_memory.md R71). -/
def bufRead (s : State) (a : Nat) : Option Byte :=
  if a < s.cap.toNat then some (s.buf.read a) else none

/-- MemWrite(a, 1, b): BUF[a] <- b, where BUF has that index (R18; 20_memory.md R71). -/
def bufWrite (s : State) (a : Nat) (b : Byte) : Option State :=
  if a < s.cap.toNat then some { s with buf := s.buf.write a b } else none

/-! ## The streams -/

/-- InPop(): remove the first token of INQ (R18). -/
def inPop (s : State) : State := { s with inq := s.inq.tail }

/-- OutPush(t): append t to OUTQ (R18). -/
def outPush (t : Token) (s : State) : State := { s with outq := s.outq ++ [t] }

/-- A consuming step: with INQ empty the engine has no step and changes nothing (42 R170, 43 R197; log 8);
otherwise the head token is popped first, whatever the outcome (42 section 2). -/
def consume (s : State) (onByte : Byte → State → Result) (onEos : State → Result) : Result :=
  match s.inq with
  | [] => .next s
  | .byte b :: _ => onByte b (inPop s)
  | .eos :: _ => onEos (inPop s)

/-! ## Errors and the end of a command -/

/-- The error kinds (60_exceptions.md R291). -/
inductive ErrorKind where
  | invalidChunkType
  | truncatedChunk
  | crcMismatch
  | badSignature
  | trailingBytes
  | chunkNotFound
  | notUtf8
  | noChunk
  | capacity
  | illegalCommand
deriving DecidableEq, Repr

/-- The code of a kind (R291). Codes 4 to 7 are the host-side kinds, never raised by the engine (R295). -/
def ErrorKind.code : ErrorKind → BitVec 4
  | .invalidChunkType => 1#4
  | .truncatedChunk => 2#4
  | .crcMismatch => 3#4
  | .badSignature => 4#4
  | .trailingBytes => 5#4
  | .chunkNotFound => 6#4
  | .notUtf8 => 7#4
  | .noChunk => 8#4
  | .capacity => 9#4
  | .illegalCommand => 10#4

/-- raise Kind: TAKING AN ERROR, the engine's one exception entry. ERR <- code; PHASE <- IDLE; nothing is
saved and nothing else is changed (00_scope.md R18, 60_exceptions.md R301). There is no return from it:
the engine is ready for any command at once (R303). -/
def raiseError (k : ErrorKind) (s : State) : State := { s with err := k.code, phase := .idle }

/-- done: ERR <- 0; PHASE <- IDLE (R18). -/
def finish (s : State) : State := { s with err := 0#4, phase := .idle }

/-- pc <- P: PHASE <- P; IDX <- 0, the move to the first step of phase P (R18). -/
def enterPhase (p : Phase) (s : State) : State := { s with phase := p, idx := 0#32 }

/-- IDX <- IDX + 1. -/
def advance (s : State) : State := { s with idx := s.idx + 1#32 }

/-! ## Accepting a command -/

/-- A command written while busy: OVR <- 1 and nothing else (45 R236). -/
def overrun (s : State) : State := { s with ovr := true }

/-- A command other than SRST is accepted only when idle: then the write leaves t; while busy it is
discarded (45 R232, R236). -/
def whenIdle (s t : State) : Result :=
  if s.phase = .idle then .next t else .next (overrun s)

/-- Every item of the engine takes its reset value of 10_state.md R47 in one step (45 R234, 70 R321, R323).
BUF is not cleared (R32, R47, R237; log 3), INQ, OUTQ and the host are not touched (70 R322), CAP is
constant (R41). -/
def softReset (s : State) : State :=
  { s with
    tvin := 0#32, len := 0#32, typ := 0#32, crcr := 0#32, cv := false, err := 0#4, ovr := false,
    phase := .idle, idx := 0#32, acc := crcInit, scrc := 0#32 }

end Sys2Proof.Machine
end

