-- ==== Sys2Proof/Machine/Builder.lean ====
section
/-! DEFINITION. The chunk builder: BUILD and its token steps (43_chunk_builder.md R190 to R192). -/

namespace Sys2Proof.Machine

open Sys2Proof

/-- What the acceptance of BUILD leaves: CV <- 0 in both branches; with a type of four letters the type
is latched and the checksum of its bytes begun (R190, 40 R126(b)). -/
def acceptBuild (s : State) : State :=
  if alpha4 s.tvin then
    { s with
      cv := false, err := 0#4, typ := s.tvin, acc := crcFold crcInit (be32 s.tvin), idx := 0#32,
      phase := .bData }
  else raiseError .invalidChunkType { s with cv := false }

/-- BUILD, acceptance (R190). -/
def execBuild (s : State) : Result := whenIdle s (acceptBuild s)

/-- A byte in B_DATA: the byte that finds the buffer full is consumed and lost (R191). -/
def buildByte (b : Byte) (s : State) : Result :=
  if s.idx = s.cap then .next (raiseError .capacity s)
  else
    match bufWrite s s.idx.toNat b with
    | none => .fault .bufferRange
    | some u => .next (advance { u with acc := crcUpdate s.acc b })

/-- EOS in B_DATA: the payload is complete (R192). -/
def buildEos (s : State) : Result :=
  .next (finish { s with len := s.idx, crcr := crcFinal s.acc, cv := true })

/-- The step in B_DATA (R191, R192). -/
def buildStep (s : State) : Result := consume s buildByte buildEos

end Sys2Proof.Machine
end

