-- ==== Sys2Proof/Machine/Control.lean ====
section
/-! DEFINITION. The control commands NOP and SRST, and the illegal command (45_control_and_register_access.md R233 to
R236). -/

namespace Sys2Proof.Machine

open Sys2Proof

/-- NOP: ERR <- 0, everything else unchanged (R233). -/
def execNop (s : State) : Result := whenIdle s { s with err := 0#4 }

/-- SRST: accepted in every phase, busy or idle; the soft reset (R234). -/
def execSrst (s : State) : Result := .next (softReset s)

/-- A CMD write of a value above 6: ERR <- 10 when idle (R235), discarded with OVR when busy (R236). -/
def illegalCommand (s : State) : Result := whenIdle s (raiseError .illegalCommand s)

end Sys2Proof.Machine
end

