-- ==== Sys2Proof/Machine/Parser.lean ====
section
/-! DEFINITION. The frame parser: PARSE and its token steps (42_frame_parser.md R160 to R165). -/

namespace Sys2Proof.Machine

open Sys2Proof

/-- PARSE, acceptance: the record held is lost, no token is consumed (R160). -/
def execParse (s : State) : Result :=
  whenIdle s { s with cv := false, err := 0#4, len := 0#32, idx := 0#32, phase := .pLen }

/-- EOS in any of the four phases ends the PARSE with TruncatedChunk (R165). -/
def parseEos (s : State) : Result := .next (raiseError .truncatedChunk s)

/-- A byte in P_LEN (R161). -/
def parseLenByte (b : Byte) (s : State) : Result :=
  if s.idx = 3#32 then
    .next (enterPhase .pType { s with len := shiftIn s.len b, typ := 0#32, acc := crcInit })
  else .next (advance { s with len := shiftIn s.len b })

/-- The tests made when the fourth type byte has been shifted in, on the new TYP: the alphabetic test,
then the capacity test, then whether there is a payload (R162). -/
def parseTypeTests (s : State) : State :=
  if !alpha4 s.typ then raiseError .invalidChunkType s
  else if s.cap.toNat < s.len.toNat then raiseError .capacity s
  else if s.len = 0#32 then enterPhase .pCrc { s with scrc := 0#32 }
  else enterPhase .pData s

/-- A byte in P_TYPE (R162). -/
def parseTypeByte (b : Byte) (s : State) : Result :=
  if s.idx = 3#32 then
    .next (parseTypeTests { s with typ := shiftIn s.typ b, acc := crcUpdate s.acc b })
  else .next (advance { s with typ := shiftIn s.typ b, acc := crcUpdate s.acc b })

/-- A byte in P_DATA: stored in BUF[IDX] and added to the checksum; no test is made on it (R163). -/
def parseDataByte (b : Byte) (s : State) : Result :=
  match bufWrite s s.idx.toNat b with
  | none => .fault .bufferRange
  | some u =>
    if s.idx = s.len - 1#32 then
      .next (enterPhase .pCrc { u with acc := crcUpdate s.acc b, scrc := 0#32 })
    else .next (advance { u with acc := crcUpdate s.acc b })

/-- The checker, when the fourth stored-CRC byte has been shifted into SCRC: equal, and the chunk is
accepted with the recomputed value in CRCR; not equal, CrcMismatch (R164, 40 R127). -/
def parseCrcTest (s : State) : State :=
  if s.scrc = crcFinal s.acc then finish { s with crcr := crcFinal s.acc, cv := true }
  else raiseError .crcMismatch s

/-- A byte in P_CRC (R164). -/
def parseCrcByte (b : Byte) (s : State) : Result :=
  if s.idx = 3#32 then .next (parseCrcTest { s with scrc := shiftIn s.scrc b })
  else .next (advance { s with scrc := shiftIn s.scrc b })

/-- The step in P_LEN (R161). -/
def parseLenStep (s : State) : Result := consume s parseLenByte parseEos

/-- The step in P_TYPE (R162). -/
def parseTypeStep (s : State) : Result := consume s parseTypeByte parseEos

/-- The step in P_DATA (R163). -/
def parseDataStep (s : State) : Result := consume s parseDataByte parseEos

/-- The step in P_CRC (R164). -/
def parseCrcStep (s : State) : Result := consume s parseCrcByte parseEos

end Sys2Proof.Machine
end

