-- ==== Sys2Proof/Machine/Serializer.lean ====
section
/-! DEFINITION. The serializer: EMIT, EMITD and their token steps (44_serializer.md R210 to R218). OUTQ is unbounded,
so an emitting step is always enabled (R220; log 15). -/

namespace Sys2Proof.Machine

open Sys2Proof

/-- The acceptance both commands share: NoChunk when CV = 0, before any token is produced; otherwise
ERR <- 0 and the first phase with IDX = 0 (R210, R216). -/
def acceptEmit (first : Phase) (s : State) : State :=
  if s.cv then enterPhase first { s with err := 0#4 } else raiseError .noChunk s

/-- EMIT, acceptance (R210). -/
def execEmit (s : State) : Result := whenIdle s (acceptEmit .eLen s)

/-- EMITD, acceptance: with no payload byte the EOS comes at once (R216). -/
def execEmitd (s : State) : Result :=
  whenIdle s (acceptEmit (if s.len = 0#32 then .dEos else .dData) s)

/-- Push byte IDX of a 4-byte field and, after the fourth, move to the next phase (R211, R212, R214). -/
def emitFieldByte (v : Word) (next : Phase) (s : State) : Result :=
  if s.idx.toNat < 4 then
    if s.idx = 3#32 then .next (enterPhase next (outPush (.byte (byteK s.idx.toNat v)) s))
    else .next (advance (outPush (.byte (byteK s.idx.toNat v)) s))
  else .fault .fieldIndex

/-- Push BUF[IDX] and, after the LEN-th byte, move to the next phase (R213, R217). -/
def emitPayloadByte (next : Phase) (s : State) : Result :=
  match bufRead s s.idx.toNat with
  | none => .fault .bufferRange
  | some b =>
    if s.idx = s.len - 1#32 then .next (enterPhase next (outPush (.byte b) s))
    else .next (advance (outPush (.byte b) s))

/-- Push the closing EOS and end the command (R215, R218). -/
def emitClose (s : State) : Result := .next (finish (outPush .eos s))

/-- The step in E_LEN (R211). -/
def emitLenStep (s : State) : Result := emitFieldByte s.len .eType s

/-- The step in E_TYPE; E_DATA is skipped when LEN = 0 (R212). -/
def emitTypeStep (s : State) : Result :=
  emitFieldByte s.typ (if s.len = 0#32 then .eCrc else .eData) s

/-- The step in E_DATA (R213). -/
def emitDataStep (s : State) : Result := emitPayloadByte .eCrc s

/-- The step in E_CRC: the stored value is sent, not recomputed (R214). -/
def emitCrcStep (s : State) : Result := emitFieldByte s.crcr .eEos s

/-- The step in E_EOS (R215). -/
def emitEosStep (s : State) : Result := emitClose s

/-- The step in D_DATA (R217). -/
def emitdDataStep (s : State) : Result := emitPayloadByte .dEos s

/-- The step in D_EOS (R218). -/
def emitdEosStep (s : State) : Result := emitClose s

end Sys2Proof.Machine
end

