-- ==== Sys2Proof/Machine/Validator.lean ====
section
/-! DEFINITION. TCHK, the command of the type validator (41_type_validator.md R148). -/

namespace Sys2Proof.Machine

open Sys2Proof

/-- TCHK: ERR <- 0 when the four bytes of TVIN are letters, InvalidChunkType otherwise; PHASE stays
IDLE and nothing else is touched (R148). -/
def execTchk (s : State) : Result :=
  whenIdle s (if alpha4 s.tvin then { s with err := 0#4 } else raiseError .invalidChunkType s)

end Sys2Proof.Machine
end

