-- ==== Sys2Proof/Machine/Dispatch.lean ====
section
/-! DEFINITION. What a CMD write of a command word does, command by command (45_control_and_register_access.md R232). -/

namespace Sys2Proof.Machine

open Sys2Proof

def exec (i : Instr) (s : State) : Host.Outcome State Fault Refusal :=
  match i with
  | .nop => Sys2Proof.Machine.execNop s
  | .tchk => Sys2Proof.Machine.execTchk s
  | .build => Sys2Proof.Machine.execBuild s
  | .parse => Sys2Proof.Machine.execParse s
  | .emit => Sys2Proof.Machine.execEmit s
  | .emitd => Sys2Proof.Machine.execEmitd s
  | .srst => Sys2Proof.Machine.execSrst s

end Sys2Proof.Machine
end

