-- ==== Sys2Proof/Machine/Port.lean ====
section
/-! DEFINITION. The register port, the signals of the two streams, the engine's own step and the host's actions
(45_control_and_register_access.md R230 to R232; 20_memory.md R61, R62; 30_encoding.md R104). -/

namespace Sys2Proof.Machine

open Sys2Proof

/-! ## The register port -/

/-- RD n: the value a read returns; it changes no state and is allowed in every phase (R230). -/
def readReg (s : State) : Reg → Word
  | .cmd => 0#32
  | .status => statusWord s
  | .tvin => s.tvin
  | .tvflags => tvFlags s.tvin
  | .clen => if s.cv then s.len else 0#32
  | .ctype => if s.cv then s.typ else 0#32
  | .ccrc => if s.cv then s.crcr else 0#32
  | .cap => s.cap

/-- dispatch(w): the command w stands for is executed; a word that is none is the illegal command. SRST,
busy and the illegal value are tested in that order inside each meaning (R232). -/
def writeCmd (w : Word) (s : State) : Result :=
  match decode w with
  | .ok i => exec i s
  | .error _ => illegalCommand s

/-- WR n, v: a write of CMD issues a command, a write of TVIN stores v, a write of a read-only register
is ignored without error (R231, R42). -/
def writeReg (r : Reg) (v : Word) (s : State) : Result :=
  match r with
  | .cmd => writeCmd v s
  | .tvin => .next { s with tvin := v }
  | .status => .next s
  | .tvflags => .next s
  | .clen => .next s
  | .ctype => .next s
  | .ccrc => .next s
  | .cap => .next s

/-! ## The signals of the streams -/

/-- The five phases that consume tokens; in_ready is 1 only in these (20_memory.md R61). -/
def Phase.consumes : Phase → Bool
  | .pLen | .pType | .pData | .pCrc | .bData => true
  | .idle | .eLen | .eType | .eData | .eCrc | .eEos | .dData | .dEos => false

/-- The seven phases that append to OUTQ (20_memory.md R62). -/
def Phase.emits : Phase → Bool
  | .eLen | .eType | .eData | .eCrc | .eEos | .dData | .dEos => true
  | .idle | .pLen | .pType | .pData | .pCrc | .bData => false

/-- in_ready (R61). -/
def inReady (s : State) : Bool := s.phase.consumes

/-- out_valid. R62 names the signal and does not say when it is 1; that it is 1 exactly when OUTQ holds a token
for the host is the model's: DESIGN CHOICE (log 10). -/
def outValid (s : State) : Bool := !s.outq.isEmpty

/-- out_eos of a token (R62). -/
def Token.outEos : Token → Bool
  | .byte _ => false
  | .eos => true

/-- out_data of a token: 0x00 when out_eos = 1 (R62). -/
def Token.outData : Token → Byte
  | .byte b => b
  | .eos => 0x00#8

/-- The token a transfer on the input port makes: with in_eos = 1 the data bits are ignored (R61). -/
def Token.ofSignals (inEos : Bool) (inData : Byte) : Token :=
  if inEos then .eos else .byte inData

/-- A slice on the input stream: its bytes in order, then one EOS (R61). -/
def sliceTokens (s : List Byte) : List Token := s.map .byte ++ [.eos]

/-! ## The engine's step -/

/-- One step of the engine: the step of its phase. Idle, it does nothing and waits for a CMD write
(10_state.md R28, R43; log 8). -/
def engineStep (s : State) : Result :=
  match s.phase with
  | .idle => .next s
  | .pLen => parseLenStep s
  | .pType => parseTypeStep s
  | .pData => parseDataStep s
  | .pCrc => parseCrcStep s
  | .bData => buildStep s
  | .eLen => emitLenStep s
  | .eType => emitTypeStep s
  | .eData => emitDataStep s
  | .eCrc => emitCrcStep s
  | .eEos => emitEosStep s
  | .dData => emitdDataStep s
  | .dEos => emitdEosStep s

/-! ## The host's actions -/

/-- The host takes the head token of OUTQ; with OUTQ empty no transfer happens (R62; log 9). -/
def popOut (s : State) : State :=
  match s.outq with
  | [] => s
  | t :: ts => { s with outq := ts, seen := s.seen ++ [.token t] }

/-- The host removes tokens up to and including the first EOS; with no EOS it removes all (70 R331). -/
def dropSlice : List Token → List Token
  | [] => []
  | .eos :: ts => ts
  | .byte _ :: ts => dropSlice ts

/-- The host takes the head token of OUTQ and pushes it onto INQ (70 R332; log 9). -/
def feedBack (s : State) : State :=
  match s.outq with
  | [] => s
  | t :: ts => { s with outq := ts, inq := s.inq ++ [t], seen := s.seen ++ [.token t] }

/-- The host's action a with the actions `rest` behind it. WAIT stays at the head of the script, giving
the engine its steps, until BUSY = 0; OUT stays until OUTQ is empty, taking one token a step; every
other action is done in one step (30_encoding.md R104; log 6, 9). -/
def hostStep (a : HostAct) (rest : List HostAct) (s : State) : Result :=
  match a with
  | .rd r => .next { s with script := rest, seen := s.seen ++ [.read r (readReg s r)] }
  | .wr r v => writeReg r v { s with script := rest }
  | .push t => .next { s with script := rest, inq := s.inq ++ [t] }
  | .pop => .next (popOut { s with script := rest })
  | .drain => if s.outq = [] then .next { s with script := rest } else .next (popOut s)
  | .discard => .next { s with script := rest, inq := s.inq.tail }
  | .flush => .next { s with script := rest, inq := dropSlice s.inq }
  | .feed => .next (feedBack { s with script := rest })
  | .wait => if s.phase = .idle then .next { s with script := rest } else engineStep s
  | .reset => .next (softReset { s with script := rest })
  | .engine => engineStep { s with script := rest }

end Sys2Proof.Machine
end

