-- ==== Sys2Proof/Machine/Step.lean ====
section
/-! DEFINITION. One step of the whole machine, host and engine (00_scope.md R7, R18; 20_memory.md R69, R74). -/

namespace Sys2Proof.Machine

open Sys2Proof

/-- One atomic step: the head of the host's script if there is one, a step of the engine otherwise (log 6). -/
def step (s : State) : Host.Outcome State Fault Refusal :=
  match s.script with
  | [] => engineStep s
  | a :: rest => hostStep a rest s

/-- The machine with the command word given by the low nbits bits of w as the host's next action, a
write of CMD: commands are not fetched from memory, each is the data of one CMD write (20_memory.md R76;
log 11). -/
def State.withFetchWord (s : State) (nbits w : Nat) : State :=
  { s with script := .wr .cmd (tableWord nbits w) :: s.script }

end Sys2Proof.Machine
end

