-- ==== Sys2Proof/Machine/Functions.lean ====
section
/-! DEFINITION. The functions the commands compute, as the spec gives them beside the step rules: parse
(42_frame_parser.md R175), build (43_chunk_builder.md R198), serialize (44_serializer.md R221), the number of
tokens a PARSE consumes (42 R168), and the chunk record of a state (10_state.md R44). -/

namespace Sys2Proof.Machine

open Sys2Proof

/-- One chunk: length, type, payload and checksum (42 R175; 00_scope.md R19). -/
structure Chunk where
  length : Word
  typ : Word
  data : List Byte
  crc : Word
deriving DecidableEq, Repr

/-- The checksum of a chunk: crc32(be32(type) ++ data) (40 R124). -/
def chunkCrc (t : Word) (d : List Byte) : Word := crc32 (be32 t ++ d)

/-- A chunk that may stand in memory: its type is four letters, its length is the payload's byte count and
fits the buffer, and its crc is the recomputed one (10_state.md R44). -/
def Chunk.sound (cap : Word) (c : Chunk) : Bool :=
  alpha4 c.typ && decide (c.data.length = c.length.toNat) && decide (c.length.toNat ≤ cap.toNat) &&
    decide (c.crc = chunkCrc c.typ c.data)

/-- The chunk record the engine holds, when CV = 1 (00_scope.md R19; 10_state.md R25). -/
def heldChunk (s : State) : Option Chunk :=
  if s.cv then some ⟨s.len, s.typ, s.buf.prefixBytes s.len.toNat, s.crcr⟩ else none

/-- The big-endian field of four bytes at an offset of a slice (30_encoding.md R91, R92, R94). -/
def wordAt (s : List Byte) (off : Nat) : Word :=
  fromBe32 (s.getD off 0) (s.getD (off + 1) 0) (s.getD (off + 2) 0) (s.getD (off + 3) 0)

/-- n bytes of a slice from an offset. -/
def bytesAt (s : List Byte) (off n : Nat) : List Byte := (s.drop off).take n

/-- parse(s): the outcome of PARSE on a slice, and the number of bytes a success consumes. The comparisons
are over the natural numbers, with no 32-bit wrap (R175). -/
def parseSlice (cap : Word) (s : List Byte) : Except ErrorKind (Chunk × Nat) :=
  if s.length < 4 then .error .truncatedChunk
  else if s.length < 8 then .error .truncatedChunk
  else if !alpha4 (wordAt s 4) then .error .invalidChunkType
  else if cap.toNat < (wordAt s 0).toNat then .error .capacity
  else if s.length < 8 + (wordAt s 0).toNat then .error .truncatedChunk
  else if s.length < 12 + (wordAt s 0).toNat then .error .truncatedChunk
  else if wordAt s (8 + (wordAt s 0).toNat) ≠ crc32 (bytesAt s 4 (4 + (wordAt s 0).toNat)) then
    .error .crcMismatch
  else
    .ok (⟨wordAt s 0, wordAt s 4, bytesAt s 8 (wordAt s 0).toNat,
      crc32 (bytesAt s 4 (4 + (wordAt s 0).toNat))⟩, 12 + (wordAt s 0).toNat)

/-- The number of tokens PARSE consumes on a slice that an EOS follows: 12 + L on success and on
CrcMismatch, 8 on InvalidChunkType and Capacity, every byte and the EOS on TruncatedChunk (R168). -/
def parseTokens (cap : Word) (s : List Byte) : Nat :=
  match parseSlice cap s with
  | .ok (_, n) => n
  | .error .crcMismatch => 12 + (wordAt s 0).toNat
  | .error .truncatedChunk => s.length + 1
  | .error _ => 8

/-- build(t, d): the outcome of BUILD on a type and a payload (R198). -/
def buildChunk (cap t : Word) (d : List Byte) : Except ErrorKind Chunk :=
  if !alpha4 t then .error .invalidChunkType
  else if cap.toNat < d.length then .error .capacity
  else .ok ⟨BitVec.ofNat 32 d.length, t, d, chunkCrc t d⟩

/-- The number of tokens BUILD consumes on a payload that an EOS follows: none when the type is refused,
PAYLOAD_CAP + 1 bytes on Capacity, every byte and the EOS on success (R190 to R192). -/
def buildTokens (cap t : Word) (d : List Byte) : Nat :=
  if !alpha4 t then 0 else if cap.toNat < d.length then cap.toNat + 1 else d.length + 1

/-- A slice with bit k of byte i flipped (40 R129). -/
def flipBit (s : List Byte) (i k : Nat) : List Byte := s.set i (s.getD i 0 ^^^ (1#8 <<< k))

/-- serialize(c): the wire form of a chunk, length first, then type, payload and crc (R221;
30_encoding.md R90). -/
def serializeChunk (c : Chunk) : List Byte := be32 c.length ++ be32 c.typ ++ c.data ++ be32 c.crc

end Sys2Proof.Machine
end

