-- ==== Sys2Proof/Machine/Text.lean ====
section
/-! DEFINITION. Text on the host's side: the string of a chunk type (41_type_validator.md R150, 46_host_container.md
R268), the bytes of a message (46 R262), and a payload as text, strict and lossy (46 R266, R267). What
counts as valid UTF-8 and the placeholder are the host's (93 U12, 91 N9; log 18); the UTF-8 encoding
itself is general knowledge (93 G5; log 25). -/

namespace Sys2Proof.Machine

open Sys2Proof

/-! ## The string of a chunk type -/

/-- to_string: the four bytes of a type held in TVIN or CTYPE read as ASCII letters, byte 0 first (R150;
to_bytes is be32). A byte above 0x7F, which only TVIN can hold and which is no ASCII code, becomes the
character of the same number: DESIGN CHOICE (log 18). -/
def typeString (v : Word) : List Char := (be32 v).map fun b => Char.ofNat b.toNat

/-- ChunkType::parse_str: exactly four characters, each an ASCII letter; any failure is
InvalidChunkType (R268). -/
def parseStr (s : List Char) : Except ErrorKind Word :=
  match s with
  | [a, b, c, d] =>
    if (s.all fun ch => decide (ch.toNat < 0x80)) &&
        alpha4 (fromBe32 (BitVec.ofNat 8 a.toNat) (BitVec.ofNat 8 b.toNat) (BitVec.ofNat 8 c.toNat)
          (BitVec.ofNat 8 d.toNat)) then
      .ok (fromBe32 (BitVec.ofNat 8 a.toNat) (BitVec.ofNat 8 b.toNat) (BitVec.ofNat 8 c.toNat)
        (BitVec.ofNat 8 d.toNat))
    else .error .invalidChunkType
  | _ => .error .invalidChunkType

/-! ## UTF-8 -/

/-- A continuation byte with the six low bits of n. -/
def utf8Tail (n : Nat) : Byte := BitVec.ofNat 8 (0x80 + n % 64)

/-- The UTF-8 encoding of one character, one to four bytes. PRESUMED (log 25): the spec names the encoding
and does not give it (93 G5). -/
def utf8Char (c : Char) : List Byte :=
  if c.toNat < 0x80 then [BitVec.ofNat 8 c.toNat]
  else if c.toNat < 0x800 then [BitVec.ofNat 8 (0xC0 + c.toNat / 64), utf8Tail c.toNat]
  else if c.toNat < 0x10000 then
    [BitVec.ofNat 8 (0xE0 + c.toNat / 4096), utf8Tail (c.toNat / 64), utf8Tail c.toNat]
  else
    [BitVec.ofNat 8 (0xF0 + c.toNat / 262144), utf8Tail (c.toNat / 4096), utf8Tail (c.toNat / 64),
      utf8Tail c.toNat]

/-- The bytes of a message_text: its UTF-8 encoding (R262). -/
def utf8Encode (text : List Char) : List Byte := text.flatMap utf8Char

/-- The character whose encoding can stand at the head of a byte sequence, read from the form of the first
byte; it does stand there only if its encoding is a prefix (log 25). -/
def charAt (d : List Byte) : Char :=
  if (d.getD 0 0).toNat < 0x80 then Char.ofNat (d.getD 0 0).toNat
  else if (d.getD 0 0).toNat < 0xE0 then
    Char.ofNat ((d.getD 0 0).toNat % 32 * 64 + (d.getD 1 0).toNat % 64)
  else if (d.getD 0 0).toNat < 0xF0 then
    Char.ofNat (((d.getD 0 0).toNat % 16 * 64 + (d.getD 1 0).toNat % 64) * 64 + (d.getD 2 0).toNat % 64)
  else
    Char.ofNat ((((d.getD 0 0).toNat % 8 * 64 + (d.getD 1 0).toNat % 64) * 64 +
      (d.getD 2 0).toNat % 64) * 64 + (d.getD 3 0).toNat % 64)

/-! ## A payload as text -/

/-- What the host fixes of text, and the spec leaves open (93 U12, 91 N9; log 18). -/
structure TextRules where
  /-- What counts as valid UTF-8. -/
  isUtf8 : List Byte → Bool
  /-- The character that stands for an invalid sequence. -/
  placeholder : Char
  /-- How many placeholders an invalid sequence yields; one where this says 0. -/
  holders : List Byte → Nat

/-- The rules take the UTF-8 encoding of every text for valid UTF-8. -/
def TextRules.acceptsText (r : TextRules) : Prop := ∀ text : List Char, r.isUtf8 (utf8Encode text) = true

/-- What an invalid sequence is replaced by: nothing for no byte, else at least one placeholder (R267). -/
def TextRules.replacement (r : TextRules) (bad : List Byte) : List Char :=
  if bad = [] then [] else List.replicate (max 1 (r.holders bad)) r.placeholder

/-- The character that a byte sequence begins with, if it begins with the encoding of one and that is
valid UTF-8. -/
def TextRules.nextChar (r : TextRules) (d : List Byte) : Option Char :=
  if (utf8Char (charAt d)).isPrefixOf d && r.isUtf8 (utf8Char (charAt d)) then some (charAt d) else none

/-- The lossy conversion of the bytes left, `bad` being the invalid bytes just before them: a longest run of
bytes at which no valid character begins is one invalid sequence. Each round takes at least one byte,
so fuel equal to the number of bytes left is never short. -/
def lossyLoop (r : TextRules) : Nat → List Byte → List Byte → List Char
  | 0, bad, _ => r.replacement bad
  | _ + 1, bad, [] => r.replacement bad
  | fuel + 1, bad, b :: d =>
    match r.nextChar (b :: d) with
    | some c => r.replacement bad ++ c :: lossyLoop r fuel [] ((b :: d).drop (utf8Char c).length)
    | none => lossyLoop r fuel (bad ++ [b]) d

/-- data_as_text, lossy: never fails; valid text is kept and each invalid sequence replaced by the
placeholder (R267). -/
def textLossy (r : TextRules) (d : List Byte) : List Char := lossyLoop r d.length [] d

/-- data_as_text, strict: NotUtf8 for a payload that is not valid UTF-8 (R266). The rule does not give the
text of a valid payload; that it is the text textLossy gives, the characters whose encoding the
payload is, is the model's: DESIGN CHOICE (log 18). -/
def textStrict (r : TextRules) (d : List Byte) : Except ErrorKind (List Char) :=
  if r.isUtf8 d then .ok (textLossy r d) else .error .notUtf8

end Sys2Proof.Machine
end

