-- ==== Sys2Proof/Machine/Container.lean ====
section
/-! DEFINITION. The host contract of 46_host_container.md: the whole-file container and the collaborator operations.
Nothing here is hardware (00_scope.md R5): these are pure functions of host data, over the functions that
PARSE, BUILD and EMIT compute. TRAILING_HDR (R13) and the host's rules for text (93 U12) are arguments
(log 18). -/

namespace Sys2Proof.Machine

open Sys2Proof

/-- The eight bytes every PNG file begins with (R251). -/
def pngSignature : List Byte :=
  [0x89#8, 0x50#8, 0x4E#8, 0x47#8, 0x0D#8, 0x0A#8, 0x1A#8, 0x0A#8]

/-- The loop of the container parse on the bytes left: TrailingBytes for a tail shorter than
TRAILING_HDR, the kind of PARSE for a bad chunk, which fails the whole file (R253, R254, R255). Each
chunk takes at least 12 bytes, so fuel equal to the number of bytes left is never short. -/
def containerLoop (cap : Word) (trailingHdr : Nat) : Nat → List Byte → Except ErrorKind (List Chunk)
  | 0, _ => .ok []
  | fuel + 1, r =>
    if r = [] then .ok []
    else if r.length < trailingHdr then .error .trailingBytes
    else
      match parseSlice cap r with
      | .error k => .error k
      | .ok (c, n) =>
        match containerLoop cap trailingHdr fuel (r.drop n) with
        | .error k => .error k
        | .ok cs => .ok (c :: cs)

/-- Container parse: BadSignature for a file that does not begin with the signature, a shorter file among
them (R252), then the loop (R253). The signature alone gives the empty list. -/
def containerParse (cap : Word) (trailingHdr : Nat) (file : List Byte) : Except ErrorKind (List Chunk) :=
  if file.take 8 ≠ pngSignature then .error .badSignature
  else containerLoop cap trailingHdr (file.drop 8).length (file.drop 8)

/-- Container serialize: the signature, then each chunk's wire form in list order (R256). -/
def containerSerialize (cs : List Chunk) : List Byte := pngSignature ++ cs.flatMap serializeChunk

/-- append_chunk: to the end of the list; always succeeds (R258). -/
def appendChunk (c : Chunk) (cs : List Chunk) : List Chunk := cs ++ [c]

/-- chunks_by_type: all chunks of a type, in order; the empty list is no failure (R259). -/
def chunksByType (t : Word) (cs : List Chunk) : List Chunk := cs.filter (fun c => decide (c.typ = t))

/-- remove_chunk: the first chunk of a type and the list without it; ChunkNotFound if there is none (R260). -/
def removeChunk (t : Word) : List Chunk → Except ErrorKind (Chunk × List Chunk)
  | [] => .error .chunkNotFound
  | c :: cs =>
    if c.typ = t then .ok (c, cs)
    else
      match removeChunk t cs with
      | .error k => .error k
      | .ok (d, ds) => .ok (d, c :: ds)

/-- The loop of remove_all_chunks: remove the first match while there is one. Each round takes one chunk, so
fuel equal to the list's length is never short (R261). -/
def removeAllLoop (t : Word) : Nat → List Chunk → Nat × List Chunk
  | 0, cs => (0, cs)
  | fuel + 1, cs =>
    match removeChunk t cs with
    | .error _ => (0, cs)
    | .ok (_, ds) => ((removeAllLoop t fuel ds).1 + 1, (removeAllLoop t fuel ds).2)

/-- remove_all_chunks(t): how many chunks were removed, and the list left; 0 is no error (R261). -/
def removeAllChunks (t : Word) (cs : List Chunk) : Nat × List Chunk := removeAllLoop t cs.length cs

/-- encode: parse the file, parse the type's string, build the chunk of the message's UTF-8 encoding, append
it, serialize again (R262; 93 G5). -/
def encodeFile (cap : Word) (trailingHdr : Nat) (file : List Byte) (message typeName : List Char) :
    Except ErrorKind (List Byte) :=
  match containerParse cap trailingHdr file with
  | .error k => .error k
  | .ok cs =>
    match parseStr typeName with
    | .error k => .error k
    | .ok t =>
      match buildChunk cap t (utf8Encode message) with
      | .error k => .error k
      | .ok c => .ok (containerSerialize (appendChunk c cs))

/-- decode: the payloads of every chunk of a type, each made printable by the lossy conversion (R263, R267).
The rule does not say whether the type comes as a string; the model takes it packed, so no bad type
string can fail here: DESIGN CHOICE (log 18). -/
def decodeFile (cap : Word) (trailingHdr : Nat) (r : TextRules) (file : List Byte) (t : Word) :
    Except ErrorKind (List (List Char)) :=
  match containerParse cap trailingHdr file with
  | .error k => .error k
  | .ok cs => .ok ((chunksByType t cs).map fun c => textLossy r c.data)

/-- remove, first match (R264). The type comes packed, as in decodeFile: DESIGN CHOICE (log 18). -/
def removeFromFile (cap : Word) (trailingHdr : Nat) (file : List Byte) (t : Word) :
    Except ErrorKind (List Byte) :=
  match containerParse cap trailingHdr file with
  | .error k => .error k
  | .ok cs =>
    match removeChunk t cs with
    | .error k => .error k
    | .ok (_, ds) => .ok (containerSerialize ds)

/-- remove, all matches (R264). The type comes packed, as in decodeFile: DESIGN CHOICE (log 18). -/
def removeAllFromFile (cap : Word) (trailingHdr : Nat) (file : List Byte) (t : Word) :
    Except ErrorKind (List Byte) :=
  match containerParse cap trailingHdr file with
  | .error k => .error k
  | .ok cs => .ok (containerSerialize (removeAllChunks t cs).2)

/-- list_chunks: type, checksum and printable payload of every chunk in order (R265); typeString prints the
type. -/
def listChunks (cap : Word) (trailingHdr : Nat) (r : TextRules) (file : List Byte) :
    Except ErrorKind (List (Word × Word × List Char)) :=
  match containerParse cap trailingHdr file with
  | .error k => .error k
  | .ok cs => .ok (cs.map fun c => (c.typ, c.crc, textLossy r c.data))

end Sys2Proof.Machine
end

