-- ==== Sys2Proof/Machine/Script.lean ====
section
/-! DEFINITION. The host notation of 30_encoding.md R104: each line as host actions, and the five pseudo-operations as
fixed scripts. -/

namespace Sys2Proof.Machine

open Sys2Proof

/-- CMD mnemonic: a write of the command's word to CMD (R104). -/
def cmdAct (i : Instr) : HostAct := .wr .cmd (encode i)

/-- IN b0 b1 ...: push the byte tokens in order (R104). -/
def inActs (bytes : List Byte) : List HostAct := bytes.map (fun b => .push (.byte b))

/-- EOS: push an EOS token (R104). -/
def eosAct : HostAct := .push .eos

/-- TYPE_PARSE t (R104): ChunkType::parse. -/
def typeParseScript (t : Word) : List HostAct := [.wr .tvin t, cmdAct .tchk, .rd .status]

/-- CHUNK_NEW t, data (R104): Chunk::new. -/
def chunkNewScript (t : Word) (data : List Byte) : List HostAct :=
  [.wr .tvin t, cmdAct .build] ++ inActs data ++ [eosAct, .wait]

/-- CHUNK_PARSE slice (R104): Chunk::parse. -/
def chunkParseScript (slice : List Byte) : List HostAct :=
  inActs slice ++ [eosAct, cmdAct .parse, .wait]

/-- CHUNK_SERIALIZE (R104): Chunk::serialize. -/
def chunkSerializeScript : List HostAct := [cmdAct .emit, .wait, .drain]

/-- CHUNK_DATA (R104): the accessor data. -/
def chunkDataScript : List HostAct := [cmdAct .emitd, .wait, .drain]

end Sys2Proof.Machine
end

