-- ==== Sys2Proof/Safety.lean ====
section
/-! DEFINITION. The terms of the claims: runs, waiting, the end of a run (70_reset_and_hazards.md R342) and the
invariant of the engine (10_state.md R44 with what the phases keep). -/

namespace Sys2Proof.Machine

open Sys2Proof

/-- k steps, stopping at the first fault or refusal. -/
def stepMany : Nat → State → Result
  | 0, s => .next s
  | k + 1, s =>
    match step s with
    | .next t => stepMany k t
    | .fault f => .fault f
    | .refused r => .refused r

/-- The engine waits for an input token that is not there: it has no step and is not finished
(00_scope.md R10, 60_exceptions.md R309(b)). -/
def waitsForToken (s : State) : Bool := s.phase.consumes && s.inq.isEmpty

/-- A run is over when the script has no action left and PHASE = IDLE (R342). -/
def runOver (s : State) : Bool := s.script.isEmpty && decide (s.phase = .idle)

/-- No host action left and PHASE not IDLE, the engine waiting: not the end of a run but a stuck state
(R342). -/
def stuck (s : State) : Bool := s.script.isEmpty && waitsForToken s

/-- The read at a place of `seen` showed a STATUS with ERR = 0. -/
def sawNoError (s : State) (i : Nat) : Bool :=
  match s.seen[i]? with
  | some (.read .status v) => decide (v.extractLsb' 4 4 = 0#4)
  | _ => false

/-- The states of a run of k steps, cut off where a step stops. The state before the script's first action is one
of them: DESIGN CHOICE (log 27). -/
def runStates : Nat → State → List State
  | 0, s => [s]
  | k + 1, s =>
    match step s with
    | .next t => s :: runStates k t
    | .fault _ => [s]
    | .refused _ => [s]

/-- The run of k steps from s has gone well: it is over, OVR = 0 and every STATUS the script expected to
show ERR = 0 did; `expected` lists the places of those reads in `seen` (R342). OVR = 0 is asked of every
state of the run: one that lost a command has not gone well, though an SRST clears OVR afterwards
(95_test_vectors.md P7, 60 R309(c); DEDUCED, log 26). The state before the script's first action counts
too, so a run that starts with OVR = 1 left from before has not gone well, even if it begins with a reset
or SRST and loses no command; R342 does not say so: DESIGN CHOICE (log 27). -/
def wentWell (expected : List Nat) (k : Nat) (s : State) : Bool :=
  match stepMany k s with
  | .next t => runOver t && (runStates k s).all (fun u => !u.ovr) && expected.all (sawNoError t)
  | .fault _ => false
  | .refused _ => false

/-- Every byte of a word, from the least significant one, is an ASCII letter, in numbers: 0x41 to 0x5A or 0x61 to
0x7A (41_type_validator.md R140, R141). Claims say it so, beside the model's alpha4. -/
def fourLetters (v : Word) : Prop :=
  ∀ k : Nat, k < 4 →
    (0x41 ≤ v.toNat / 256 ^ k % 256 ∧ v.toNat / 256 ^ k % 256 ≤ 0x5A) ∨
    (0x61 ≤ v.toNat / 256 ^ k % 256 ∧ v.toNat / 256 ^ k % 256 ≤ 0x7A)

/-- What is observed at the end of a run: the eight registers in the order of their indices, the tokens
in OUTQ and the tokens left in INQ (R342). -/
def observed (s : State) : List Word × List Token × List Token :=
  ([.cmd, .status, .tvin, .tvflags, .clen, .ctype, .ccrc, .cap].map (readReg s), s.outq, s.inq)

/-- The host may write a command other than SRST without losing it (R326). -/
def mayCommand (s : State) : Bool := decide (s.phase = .idle)

/-- The codes ERR can hold: OK and the six kinds the engine raises (60_exceptions.md R291). -/
def raisedCodes : List (BitVec 4) := [0#4, 1#4, 2#4, 3#4, 8#4, 9#4, 10#4]

/-- Clauses (b) to (d) of the chunk record invariant (10_state.md R44). -/
abbrev recordOk (s : State) : Prop :=
  alpha4 s.typ = true ∧ s.len.toNat ≤ s.cap.toNat ∧
    s.crcr = crc32 (be32 s.typ ++ s.buf.prefixBytes s.len.toNat)

/-- What the engine has established in each phase: the bounds of IDX (10_state.md R29), the bytes that have
entered ACC (40 R126), CV in the phases of R44(a), and the record where CV = 1. -/
def phaseOk (s : State) : Prop :=
  match s.phase with
  | .idle => s.cv = true → recordOk s
  | .pLen => s.cv = false ∧ s.idx.toNat < 4
  | .pType =>
    s.cv = false ∧ s.idx.toNat < 4 ∧ s.acc = crcFold crcInit ((be32 s.typ).drop (4 - s.idx.toNat))
  | .pData =>
    s.cv = false ∧ s.idx.toNat < s.len.toNat ∧ s.len.toNat ≤ s.cap.toNat ∧ alpha4 s.typ = true ∧
      s.acc = crcFold crcInit (be32 s.typ ++ s.buf.prefixBytes s.idx.toNat)
  | .pCrc =>
    s.cv = false ∧ s.idx.toNat < 4 ∧ s.len.toNat ≤ s.cap.toNat ∧ alpha4 s.typ = true ∧
      s.acc = crcFold crcInit (be32 s.typ ++ s.buf.prefixBytes s.len.toNat)
  | .bData =>
    s.cv = false ∧ s.idx.toNat ≤ s.cap.toNat ∧ alpha4 s.typ = true ∧
      s.acc = crcFold crcInit (be32 s.typ ++ s.buf.prefixBytes s.idx.toNat)
  | .eLen => s.cv = true ∧ recordOk s ∧ s.idx.toNat < 4
  | .eType => s.cv = true ∧ recordOk s ∧ s.idx.toNat < 4
  | .eData => s.cv = true ∧ recordOk s ∧ s.idx.toNat < s.len.toNat
  | .eCrc => s.cv = true ∧ recordOk s ∧ s.idx.toNat < 4
  | .eEos => s.cv = true ∧ recordOk s
  | .dData => s.cv = true ∧ recordOk s ∧ s.idx.toNat < s.len.toNat
  | .dEos => s.cv = true ∧ recordOk s

/-- The invariant of the engine: it holds at reset and every step keeps it. -/
structure Inv (s : State) : Prop where
  /-- BUF is in canonical form (log 2). -/
  bufForm : s.buf.wf = true
  /-- Every listed byte of BUF has an index that exists (10_state.md R32). -/
  bufRange : s.buf.below s.cap.toNat = true
  /-- ERR is a code the engine raises (60_exceptions.md R291). -/
  errCode : s.err ∈ raisedCodes
  /-- ERR reads 0 while BUSY = 1 (10_state.md R26). -/
  errBusy : s.phase ≠ .idle → s.err = 0#4
  /-- What the phase has established. -/
  phase : phaseOk s

end Sys2Proof.Machine
end

