-- ==== Sys2Proof/WellFormed.lean ====
section
/-! DEFINITION. Well-formedness. A command has no operand field (30_encoding.md R101), so every term of
Instr is well formed; what can be ill formed is a command WORD (R102). -/

namespace Sys2Proof

/-- Every command is well formed: there is no field that could be out of range (R101, R103). -/
def Instr.wellFormed : Instr → Bool
  | .nop => true
  | .tchk => true
  | .build => true
  | .parse => true
  | .emit => true
  | .emitd => true
  | .srst => true

/-- A 32-bit word stands for a command exactly when it is one of 0 to 6; every value from 0x00000007
to 0xFFFFFFFF is illegal (R102). -/
def wellFormedWord (w : Word) : Bool := decide (w.toNat ≤ 6)

end Sys2Proof
end

