-- ==== Sys2Proof/Certificates/Slice0/Obligations.lean ====
section
/-! DEFINITION. The statements for the provers. "The engine's turn" is written s.script = []: no host action comes
first (log 6). -/

open Sys2Proof Sys2Proof.Machine

/-! ## Encoding and dispatch -/

/-- Decoding the word of a command gives the command back, for all seven (30_encoding.md section 3). -/
def Obligations.DecodeOfEncodeIsTheCommand : Prop :=
  ∀ i : Instr, i.wellFormed = true ∧ decode (encode i) = .ok i

/-- A word decodes to a command exactly when it is that command's word, and is rejected by name exactly
when it is above 6: the whole word is compared (30_encoding.md section 3). -/
def Obligations.EveryWordAboveSixIsRejected : Prop :=
  (∀ (w : Word) (i : Instr), decode w = .ok i ↔ w = encode i) ∧
  (∀ w : Word, decode w = .error (.illegalCommand w) ↔ 6 < w.toNat) ∧
  (∀ w : Word, wellFormedWord w = true ↔ ∃ i, decode w = .ok i)

/-- The table's words, written out in bits, decode to their commands, and four words with a legal value in
the low bits or next to the last command are rejected (95_test_vectors.md X5). -/
def Obligations.TableWordsDecode : Prop :=
  decode 0b00000000000000000000000000000000#32 = .ok .nop ∧
  decode 0b00000000000000000000000000000001#32 = .ok .tchk ∧
  decode 0b00000000000000000000000000000010#32 = .ok .build ∧
  decode 0b00000000000000000000000000000011#32 = .ok .parse ∧
  decode 0b00000000000000000000000000000100#32 = .ok .emit ∧
  decode 0b00000000000000000000000000000101#32 = .ok .emitd ∧
  decode 0b00000000000000000000000000000110#32 = .ok .srst ∧
  decode 0x00000007#32 = .error (.illegalCommand 0x00000007#32) ∧
  decode 0xFFFFFFFF#32 = .error (.illegalCommand 0xFFFFFFFF#32) ∧
  decode 0x80000003#32 = .error (.illegalCommand 0x80000003#32) ∧
  decode 0x00000103#32 = .error (.illegalCommand 0x00000103#32)

/-- When the host's next action writes to CMD a word that decodes to i, the step is exec of i on the state
past that action; a word placed by withFetchWord is run by the very next step; and when no host action is
left the step is the engine's (log 6, 11). -/
def Obligations.StepRunsTheDecodedCommand : Prop :=
  (∀ (s : State) (w : Word) (rest : List HostAct) (i : Instr),
    s.script = .wr .cmd w :: rest → decode w = .ok i → step s = exec i { s with script := rest }) ∧
  (∀ (s : State) (nbits w : Nat) (i : Instr),
    decodeTableWord nbits w = some i → step (s.withFetchWord nbits w) = exec i s) ∧
  (∀ s : State, s.script = [] → step s = engineStep s)

/-- The tests of a CMD write in their order: SRST in any phase, then busy, then the commands, then the
illegal value; and the new ERR never depends on the old one when the write is accepted, that is while idle
or for SRST in any phase (R232). -/
def Obligations.CmdWriteTestsInOrder : Prop :=
  ∀ (s : State) (w : Word) (rest : List HostAct), s.script = .wr .cmd w :: rest →
    (w = 0x00000006#32 → step s = exec .srst { s with script := rest }) ∧
    (w ≠ 0x00000006#32 → s.phase ≠ .idle → step s = .next { s with script := rest, ovr := true }) ∧
    (s.phase = .idle →
      (w = 0x00000000#32 → step s = exec .nop { s with script := rest }) ∧
      (w = 0x00000001#32 → step s = exec .tchk { s with script := rest }) ∧
      (w = 0x00000002#32 → step s = exec .build { s with script := rest }) ∧
      (w = 0x00000003#32 → step s = exec .parse { s with script := rest }) ∧
      (w = 0x00000004#32 → step s = exec .emit { s with script := rest }) ∧
      (w = 0x00000005#32 → step s = exec .emitd { s with script := rest }) ∧
      (6 < w.toNat → step s = .next { s with script := rest, err := 10#4 })) ∧
    (s.phase = .idle ∨ w = 0x00000006#32 → ∀ e : BitVec 4, step { s with err := e } = step s)

/-- An illegal command word: ERR = 10 while idle and nothing else, OVR while busy (R235). -/
def Obligations.IllegalCommandWord : Prop :=
  ∀ (s : State) (w : Word) (rest : List HostAct),
    s.script = .wr .cmd w :: rest → 6 < w.toNat →
      (s.phase = .idle → step s = .next { s with script := rest, err := 10#4 }) ∧
      (s.phase ≠ .idle → step s = .next { s with script := rest, ovr := true })

/-- A command other than SRST written while busy, legal or not, sets OVR and does nothing else; OVR stays
until reset or SRST; and the command under way goes on as if the write had not happened (R236). -/
def Obligations.CommandWhileBusyIsDiscarded : Prop :=
  (∀ (i : Instr) (s : State), i ≠ .srst → s.phase ≠ .idle → exec i s = .next { s with ovr := true }) ∧
  (∀ (s : State) (w : Word) (rest : List HostAct), s.script = .wr .cmd w :: rest →
    w ≠ 0x00000006#32 → s.phase ≠ .idle → step s = .next { s with script := rest, ovr := true }) ∧
  (∀ s t : State, step s = .next t → s.ovr = true →
    t.ovr = true ∨ s.script.head? = some .reset ∨ s.script.head? = some (.wr .cmd 0x00000006#32)) ∧
  (∀ s t : State, engineStep s = .next t →
    engineStep { s with ovr := true } = .next { t with ovr := true })

/-! ## The commands -/

/-- NOP: the word, ERR <- 0 and everything else unchanged while idle, discarded while busy (R233). -/
def Obligations.NopClearsErrAlone : Prop :=
  decode 0x00000000#32 = .ok .nop ∧
  ∀ s : State,
    (s.phase = .idle → exec .nop s = .next { s with err := 0#4 }) ∧
    (s.phase ≠ .idle → exec .nop s = .next { s with ovr := true })

/-- TCHK: the word; while idle ERR <- 0 when TVIN is four letters, that is when each of its four bytes lies in 0x41
to 0x5A or 0x61 to 0x7A, 1 otherwise, and everything else unchanged; discarded while busy (R148). -/
def Obligations.TchkReportsTheAlphabeticTest : Prop :=
  decode 0x00000001#32 = .ok .tchk ∧
  ∀ s : State,
    (s.phase = .idle →
      exec .tchk s = .next { s with err := if alpha4 s.tvin then 0#4 else 1#4 }) ∧
    (s.phase = .idle → fourLetters s.tvin → exec .tchk s = .next { s with err := 0#4 }) ∧
    (s.phase = .idle → ¬ fourLetters s.tvin → exec .tchk s = .next { s with err := 1#4 }) ∧
    (s.phase ≠ .idle → exec .tchk s = .next { s with ovr := true })

/-- BUILD: the word, the acceptance while idle with both branches, discarded while busy; and TVIN is read
in this step only (R190). -/
def Obligations.BuildAcceptance : Prop :=
  decode 0x00000002#32 = .ok .build ∧
  (∀ s : State, s.phase = .idle →
    (alpha4 s.tvin = true →
      exec .build s =
        .next { s with
          cv := false, err := 0#4, typ := s.tvin,
          acc := crcUpdate (crcUpdate (crcUpdate (crcUpdate crcInit (byteK 0 s.tvin)) (byteK 1 s.tvin))
            (byteK 2 s.tvin)) (byteK 3 s.tvin),
          idx := 0#32, phase := .bData }) ∧
    (alpha4 s.tvin = false → exec .build s = .next { s with cv := false, err := 1#4 })) ∧
  (∀ s : State, s.phase ≠ .idle → exec .build s = .next { s with ovr := true }) ∧
  (∀ (s t : State) (v : Word), s.phase = .bData → engineStep s = .next t →
    engineStep { s with tvin := v } = .next { t with tvin := v })

/-- PARSE: the word; while idle the record is lost, no token is consumed and P_LEN begins; discarded while
busy (R160). -/
def Obligations.ParseAcceptance : Prop :=
  decode 0x00000003#32 = .ok .parse ∧
  ∀ s : State,
    (s.phase = .idle →
      exec .parse s =
        .next { s with cv := false, err := 0#4, len := 0#32, idx := 0#32, phase := .pLen }) ∧
    (s.phase ≠ .idle → exec .parse s = .next { s with ovr := true })

/-- EMIT: the word; while idle E_LEN begins when a chunk is held, NoChunk and no token otherwise; discarded
while busy (R210). -/
def Obligations.EmitAcceptance : Prop :=
  decode 0x00000004#32 = .ok .emit ∧
  ∀ s : State,
    (s.phase = .idle → s.cv = true →
      exec .emit s = .next { s with err := 0#4, idx := 0#32, phase := .eLen }) ∧
    (s.phase = .idle → s.cv = false → exec .emit s = .next { s with err := 8#4 }) ∧
    (s.phase ≠ .idle → exec .emit s = .next { s with ovr := true })

/-- EMITD: the word; while idle D_DATA, or D_EOS for an empty payload, when a chunk is held, NoChunk otherwise;
discarded while busy (R216). -/
def Obligations.EmitdAcceptance : Prop :=
  decode 0x00000005#32 = .ok .emitd ∧
  ∀ s : State,
    (s.phase = .idle → s.cv = true → s.len ≠ 0#32 →
      exec .emitd s = .next { s with err := 0#4, idx := 0#32, phase := .dData }) ∧
    (s.phase = .idle → s.cv = true → s.len = 0#32 →
      exec .emitd s = .next { s with err := 0#4, idx := 0#32, phase := .dEos }) ∧
    (s.phase = .idle → s.cv = false → exec .emitd s = .next { s with err := 8#4 }) ∧
    (s.phase ≠ .idle → exec .emitd s = .next { s with ovr := true })

/-- SRST: the word; in every phase every item of the engine takes its reset value in one step and the streams
are not touched; no other command is accepted while busy. R234 leaves BUF unspecified, and so does this
statement. -/
def Obligations.SrstGivesEveryItemItsResetValue : Prop :=
  decode 0x00000006#32 = .ok .srst ∧
  (∀ s : State, ∃ t : State, exec .srst s = .next t ∧
    t.tvin = 0#32 ∧ t.len = 0#32 ∧ t.typ = 0#32 ∧ t.crcr = 0#32 ∧ t.scrc = 0#32 ∧ t.idx = 0#32 ∧
    t.cv = false ∧ t.ovr = false ∧ t.err = 0#4 ∧ t.phase = .idle ∧ t.acc = 0xFFFFFFFF#32 ∧
    t.inq = s.inq ∧ t.outq = s.outq ∧ t.cap = s.cap ∧ t.script = s.script ∧ t.seen = s.seen) ∧
  (∀ (s : State) (i : Instr), s.phase ≠ .idle → i ≠ .srst → exec i s = .next { s with ovr := true })

/-- THE MODEL'S CHOICE (log 3): SRST leaves every byte of BUF as it was. The spec calls BUF unspecified after
reset and says "a memory is not cleared by reset" (10_state.md section 2). -/
def Obligations.SrstLeavesBufAsItWas : Prop :=
  ∀ s t : State, exec .srst s = .next t → ∀ a : Nat, t.buf.read a = s.buf.read a

/-- The hardware reset has exactly the effect of SRST (R323). -/
def Obligations.HardwareResetEqualsSrst : Prop :=
  ∀ (s : State) (rest : List HostAct), s.script = .reset :: rest →
    step s = exec .srst { s with script := rest }

/-- No command touches a byte of BUF, a stream, CAP or the host in its own step (that SRST leaves BUF is THE
MODEL'S CHOICE, log 3: the spec calls BUF unspecified after it); only SRST writes TVIN,
CRCR, SCRC or clears OVR; only PARSE and SRST write LEN; only BUILD and SRST write TYP and ACC
(45_control_and_register_access.md section 4). -/
def Obligations.CommandFrame : Prop :=
  ∀ (i : Instr) (s t : State), exec i s = .next t →
    (∀ a : Nat, t.buf.read a = s.buf.read a) ∧ t.inq = s.inq ∧ t.outq = s.outq ∧ t.cap = s.cap ∧
    t.script = s.script ∧ t.seen = s.seen ∧
    (i ≠ .srst → t.tvin = s.tvin ∧ t.crcr = s.crcr ∧ t.scrc = s.scrc ∧ (s.ovr = true → t.ovr = true)) ∧
    (i ≠ .srst → i ≠ .parse → t.len = s.len) ∧
    (i ≠ .srst → i ≠ .build → t.typ = s.typ ∧ t.acc = s.acc) ∧
    (i = .nop ∨ i = .tchk → t.idx = s.idx ∧ t.phase = s.phase)

/-! ## The register port -/

/-- RD n for the 3-bit index n: the value returned, and no state of the engine changed; every register has
its index, and stands 4n bytes from the base. The value is recorded in the model's own field `seen` (log 7)
(R230). -/
def Obligations.RegisterReads : Prop :=
  (∀ r : Reg, Reg.ofIndex r.index = r) ∧
  (∀ n : BitVec 3, (Reg.ofIndex n).index = n ∧ (Reg.ofIndex n).offset = 4 * n.toNat) ∧
  ∀ (s : State) (n : BitVec 3) (rest : List HostAct), s.script = .rd (Reg.ofIndex n) :: rest →
    ∃ v : Word,
      step s = .next { s with script := rest, seen := s.seen ++ [.read (Reg.ofIndex n) v] } ∧
      (n = 0#3 → v = 0#32) ∧
      (n = 1#3 →
        v.toNat = (if s.ovr then 4 else 0) + (if s.cv then 2 else 0) +
          (if s.phase = .idle then 0 else 1) + s.err.toNat * 16) ∧
      (n = 2#3 → v = s.tvin) ∧
      (n = 3#3 → v = tvFlags s.tvin) ∧
      (n = 4#3 → v = if s.cv then s.len else 0#32) ∧
      (n = 5#3 → v = if s.cv then s.typ else 0#32) ∧
      (n = 6#3 → v = if s.cv then s.crcr else 0#32) ∧
      (n = 7#3 → v = s.cap)

/-- WR n, v for the 3-bit index n: 0 (CMD) dispatches v, 2 (TVIN) is stored, every other write does nothing; and
these are the registers named CMD and TVIN (R231). -/
def Obligations.RegisterWrites : Prop :=
  (∀ (s : State) (n : BitVec 3) (v : Word) (rest : List HostAct),
    s.script = .wr (Reg.ofIndex n) v :: rest →
    (n = 0#3 → step s = writeCmd v { s with script := rest }) ∧
    (n = 2#3 → step s = .next { s with script := rest, tvin := v }) ∧
    (n ≠ 0#3 → n ≠ 2#3 → step s = .next { s with script := rest })) ∧
  Reg.ofIndex 0#3 = .cmd ∧ Reg.ofIndex 1#3 = .status ∧ Reg.ofIndex 2#3 = .tvin ∧
  Reg.ofIndex 3#3 = .tvflags ∧ Reg.ofIndex 4#3 = .clen ∧ Reg.ofIndex 5#3 = .ctype ∧
  Reg.ofIndex 6#3 = .ccrc ∧ Reg.ofIndex 7#3 = .cap

/-- The bits of STATUS; a read of it has no side effect (the value goes to the model's own field `seen`, log 7),
and a write of it is ignored (R35). -/
def Obligations.StatusBits : Prop :=
  ∀ s : State,
    ((statusWord s).getLsbD 0 = decide (s.phase ≠ .idle) ∧ (statusWord s).getLsbD 1 = s.cv ∧
      (statusWord s).getLsbD 2 = s.ovr ∧ (statusWord s).getLsbD 3 = false ∧
      (statusWord s).extractLsb' 4 4 = s.err ∧ (statusWord s).extractLsb' 8 24 = 0#24) ∧
    (∀ rest : List HostAct, s.script = .rd .status :: rest →
      step s = .next { s with script := rest, seen := s.seen ++ [.read .status (statusWord s)] }) ∧
    (∀ (v : Word) (rest : List HostAct), s.script = .wr .status v :: rest →
      step s = .next { s with script := rest })

/-- The bits of TVFLAGS as functions of TVIN, ALPHA being 1 exactly when each of its four bytes lies in 0x41 to
0x5A or 0x61 to 0x7A; and a write of it is ignored (R37). -/
def Obligations.TvflagsBits : Prop :=
  ∀ s : State,
    (((readReg s .tvflags).getLsbD 0 = true ↔ fourLetters s.tvin) ∧
      (readReg s .tvflags).getLsbD 0 = (be32 s.tvin).all isAlpha ∧
      (readReg s .tvflags).getLsbD 1 = !s.tvin.getLsbD 29 ∧
      (readReg s .tvflags).getLsbD 2 = !s.tvin.getLsbD 21 ∧
      (readReg s .tvflags).getLsbD 3 = !s.tvin.getLsbD 13 ∧
      (readReg s .tvflags).getLsbD 4 = s.tvin.getLsbD 5 ∧
      (readReg s .tvflags).getLsbD 5 = (!s.tvin.getLsbD 13 && (be32 s.tvin).all isAlpha) ∧
      (readReg s .tvflags).extractLsb' 6 26 = 0#26) ∧
    (∀ (v : Word) (rest : List HostAct), s.script = .wr .tvflags v :: rest →
      step s = .next { s with script := rest })

/-- CLEN, CTYPE and CCRC read the record when CV = 1 and 0 otherwise, and writes of them are ignored (R38, R39, R40). -/
def Obligations.RecordRegistersAreGatedByCv : Prop :=
  ∀ s : State,
    (s.cv = true → readReg s .clen = s.len ∧ readReg s .ctype = s.typ ∧ readReg s .ccrc = s.crcr) ∧
    (s.cv = false → readReg s .clen = 0#32 ∧ readReg s .ctype = 0#32 ∧ readReg s .ccrc = 0#32) ∧
    (∀ (r : Reg) (v : Word) (rest : List HostAct), r = .clen ∨ r = .ctype ∨ r = .ccrc →
      s.script = .wr r v :: rest → step s = .next { s with script := rest })

/-- CAP reads PAYLOAD_CAP, no step of any kind changes it, and a write of it is ignored (R41). -/
def Obligations.CapIsConstant : Prop :=
  readReg State.reset .cap = Config.payloadCap ∧
  (∀ s : State, readReg s .cap = s.cap) ∧
  (∀ s t : State, step s = .next t → t.cap = s.cap) ∧
  (∀ (s : State) (v : Word) (rest : List HostAct), s.script = .wr .cap v :: rest →
    step s = .next { s with script := rest })

/-- VALID looks at the case of the third letter alone: changing the case of letter 0, 1 or 3 of a chunk type
leaves it, changing that of letter 2 turns it (90_conflicts.md C3 and C6). -/
def Obligations.ValidDependsOnTheThirdLetterAlone : Prop :=
  ∀ v : Word, alpha4 v = true →
    isValid (v ^^^ 0x20000000#32) = isValid v ∧ isValid (v ^^^ 0x00200000#32) = isValid v ∧
    isValid (v ^^^ 0x00000020#32) = isValid v ∧ isValid (v ^^^ 0x00002000#32) = !isValid v

/-! ## The CRC unit -/

/-- The table form computes crc_update, and the sample entries of the table (R130). -/
def Obligations.CrcTableFormIsCrcUpdate : Prop :=
  (∀ (acc : Word) (b : Byte), crcUpdate acc b = crcUpdateTable acc b) ∧
  (∀ n : Byte, crcTable n = crcUpdate (n.setWidth 32) 0#8) ∧
  crcTable 0#8 = 0x00000000#32 ∧ crcTable 1#8 = 0x77073096#32 ∧ crcTable 2#8 = 0xEE0E612C#32 ∧
  crcTable 3#8 = 0x990951BA#32 ∧ crcTable 4#8 = 0x076DC419#32 ∧ crcTable 8#8 = 0x0EDB8832#32 ∧
  crcTable 16#8 = 0x1DB71064#32 ∧ crcTable 32#8 = 0x3B6E20C8#32 ∧ crcTable 64#8 = 0x76DC4190#32 ∧
  crcTable 128#8 = 0xEDB88320#32 ∧ crcTable 255#8 = 0x2D02EF8D#32

/-- The unreflected form, shifted left with 0x04C11DB7, computes the same checksum of every byte sequence (R131). -/
def Obligations.UnreflectedFormIsTheSameChecksum : Prop :=
  ∀ s : List Byte, crc32Unreflected s = crc32 s

/-- Changing one byte of a sequence to any other value changes its checksum (40_crc_unit.md section 4). -/
def Obligations.OneChangedByteChangesTheChecksum : Prop :=
  ∀ (pre post : List Byte) (b b' : Byte), b ≠ b' →
    crc32 (pre ++ b :: post) ≠ crc32 (pre ++ b' :: post)

/-- Flipping any single bit of the payload or of the stored CRC of an accepted chunk gives CrcMismatch;
flipping one of the type gives InvalidChunkType if the byte stops being a letter and CrcMismatch
otherwise. Nothing is said of the length field (40_crc_unit.md section 4, 90_conflicts.md C9). -/
def Obligations.SingleBitCorruptionIsDetected : Prop :=
  ∀ (cap : Word) (s : List Byte) (c : Chunk) (n i k : Nat), parseSlice cap s = .ok (c, n) → k < 8 →
    (8 ≤ i → i < n → parseSlice cap (flipBit s i k) = .error .crcMismatch) ∧
    (4 ≤ i → i < 8 →
      parseSlice cap (flipBit s i k) =
        .error (if alpha4 (wordAt (flipBit s i k) 4) then .crcMismatch else .invalidChunkType))

/-! ## The token steps -/

/-- The step in P_LEN: a byte shifted into LEN, the fourth one begins P_TYPE; EOS gives TruncatedChunk; and
four bytes shifted into 0 are from_be32 of them (R161). -/
def Obligations.LengthFieldStep : Prop :=
  (∀ s : State, s.script = [] → s.phase = .pLen →
    (∀ (b : Byte) (rest : List Token), s.inq = .byte b :: rest →
      (s.idx = 3#32 →
        step s = .next { s with
          inq := rest, len := (s.len <<< 8) + b.setWidth 32, typ := 0#32, acc := 0xFFFFFFFF#32,
          phase := .pType, idx := 0#32 }) ∧
      (s.idx ≠ 3#32 →
        step s = .next { s with
          inq := rest, len := (s.len <<< 8) + b.setWidth 32, idx := s.idx + 1#32 })) ∧
    (∀ rest : List Token, s.inq = .eos :: rest →
      step s = .next { s with inq := rest, err := 2#4, phase := .idle })) ∧
  (∀ b0 b1 b2 b3 : Byte,
    shiftIn (shiftIn (shiftIn (shiftIn 0#32 b0) b1) b2) b3 = fromBe32 b0 b1 b2 b3)

/-- The step in P_TYPE: the tests on the fourth byte use the new TYP, in the order alphabetic, capacity,
empty payload; EOS gives TruncatedChunk (R162). -/
def Obligations.TypeFieldStep : Prop :=
  ∀ s : State, s.script = [] → s.phase = .pType →
    (∀ (b : Byte) (rest : List Token) (t : Word), s.inq = .byte b :: rest →
      t = (s.typ <<< 8) + b.setWidth 32 →
      (s.idx ≠ 3#32 →
        step s = .next { s with inq := rest, typ := t, acc := crcUpdate s.acc b, idx := s.idx + 1#32 }) ∧
      (s.idx = 3#32 → alpha4 t = false →
        step s = .next { s with
          inq := rest, typ := t, acc := crcUpdate s.acc b, err := 1#4, phase := .idle }) ∧
      (s.idx = 3#32 → alpha4 t = true → s.cap.toNat < s.len.toNat →
        step s = .next { s with
          inq := rest, typ := t, acc := crcUpdate s.acc b, err := 9#4, phase := .idle }) ∧
      (s.idx = 3#32 → alpha4 t = true → s.len = 0#32 →
        step s = .next { s with
          inq := rest, typ := t, acc := crcUpdate s.acc b, scrc := 0#32, phase := .pCrc, idx := 0#32 }) ∧
      (s.idx = 3#32 → alpha4 t = true → s.len.toNat ≤ s.cap.toNat → s.len ≠ 0#32 →
        step s = .next { s with
          inq := rest, typ := t, acc := crcUpdate s.acc b, phase := .pData, idx := 0#32 })) ∧
    (∀ rest : List Token, s.inq = .eos :: rest →
      step s = .next { s with inq := rest, err := 2#4, phase := .idle })

/-- P_DATA is entered only with 1 <= LEN <= PAYLOAD_CAP; and the step in P_DATA, with IDX < LEN, is: the byte is stored in BUF[IDX]
and in no other place, and the last one begins P_CRC; EOS gives TruncatedChunk (R163). -/
def Obligations.PayloadStepStoresOneByte : Prop :=
  (∀ s t : State, step s = .next t → s.phase ≠ .pData → t.phase = .pData →
    1 ≤ t.len.toNat ∧ t.len.toNat ≤ t.cap.toNat) ∧
  ∀ s : State, s.script = [] → s.phase = .pData → s.buf.wf = true →
    s.idx.toNat < s.len.toNat → s.len.toNat ≤ s.cap.toNat →
    (∀ (b : Byte) (rest : List Token), s.inq = .byte b :: rest →
      ∃ t : State, step s = .next t ∧
        (∀ a : Nat, t.buf.read a = if a = s.idx.toNat then b else s.buf.read a) ∧
        (s.idx = s.len - 1#32 →
          t = { s with
            inq := rest, buf := t.buf, acc := crcUpdate s.acc b, scrc := 0#32, phase := .pCrc,
            idx := 0#32 }) ∧
        (s.idx ≠ s.len - 1#32 →
          t = { s with inq := rest, buf := t.buf, acc := crcUpdate s.acc b, idx := s.idx + 1#32 })) ∧
    (∀ rest : List Token, s.inq = .eos :: rest →
      step s = .next { s with inq := rest, err := 2#4, phase := .idle })

/-- The step in P_CRC: on the fourth byte the chunk is accepted exactly when the stored value equals the
recomputed one, CrcMismatch otherwise; EOS gives TruncatedChunk (R164). -/
def Obligations.StoredCrcStep : Prop :=
  ∀ s : State, s.script = [] → s.phase = .pCrc →
    (∀ (b : Byte) (rest : List Token) (v : Word), s.inq = .byte b :: rest →
      v = (s.scrc <<< 8) + b.setWidth 32 →
      (s.idx ≠ 3#32 → step s = .next { s with inq := rest, scrc := v, idx := s.idx + 1#32 }) ∧
      (s.idx = 3#32 → v = crcFinal s.acc →
        step s = .next { s with
          inq := rest, scrc := v, crcr := crcFinal s.acc, cv := true, err := 0#4, phase := .idle }) ∧
      (s.idx = 3#32 → v ≠ crcFinal s.acc →
        step s = .next { s with inq := rest, scrc := v, err := 3#4, phase := .idle })) ∧
    (∀ rest : List Token, s.inq = .eos :: rest →
      step s = .next { s with inq := rest, err := 2#4, phase := .idle })

/-- The steps in B_DATA, with IDX <= PAYLOAD_CAP (10_state.md R29): a byte is stored in BUF[IDX] and in no
other place, or finds the buffer full and is lost; EOS completes the record (R191, R192). -/
def Obligations.BuildStepStoresOneByteOrCompletes : Prop :=
  ∀ s : State, s.script = [] → s.phase = .bData → s.buf.wf = true → s.idx.toNat ≤ s.cap.toNat →
    (∀ (b : Byte) (rest : List Token), s.inq = .byte b :: rest →
      (s.idx = s.cap → step s = .next { s with inq := rest, err := 9#4, phase := .idle }) ∧
      (s.idx ≠ s.cap →
        ∃ t : State, step s = .next t ∧
          (∀ a : Nat, t.buf.read a = if a = s.idx.toNat then b else s.buf.read a) ∧
          t = { s with inq := rest, buf := t.buf, acc := crcUpdate s.acc b, idx := s.idx + 1#32 })) ∧
    (∀ rest : List Token, s.inq = .eos :: rest →
      step s = .next { s with
        inq := rest, len := s.idx, crcr := crcFinal s.acc, cv := true, err := 0#4, phase := .idle })

/-- The steps in E_LEN, E_TYPE and E_CRC, with IDX at 0 to 3: byte IDX of the field is pushed, and the fourth
one begins the next phase; from IDX = 0 four steps send the field, most significant byte first, the
checksum as it is stored (R211, R212, R214). -/
def Obligations.EmitFieldSteps : Prop :=
  ∀ s : State, s.script = [] → s.idx.toNat < 4 →
    (s.phase = .eLen →
      (s.idx = 3#32 →
        step s = .next { s with
          outq := s.outq ++ [.byte (byteK s.idx.toNat s.len)], phase := .eType, idx := 0#32 }) ∧
      (s.idx ≠ 3#32 →
        step s = .next { s with
          outq := s.outq ++ [.byte (byteK s.idx.toNat s.len)], idx := s.idx + 1#32 }) ∧
      (s.idx = 0#32 →
        stepMany 4 s = .next { s with
          outq := s.outq ++ (be32 s.len).map .byte, phase := .eType, idx := 0#32 })) ∧
    (s.phase = .eType →
      (s.idx = 3#32 → s.len = 0#32 →
        step s = .next { s with
          outq := s.outq ++ [.byte (byteK s.idx.toNat s.typ)], phase := .eCrc, idx := 0#32 }) ∧
      (s.idx = 3#32 → s.len ≠ 0#32 →
        step s = .next { s with
          outq := s.outq ++ [.byte (byteK s.idx.toNat s.typ)], phase := .eData, idx := 0#32 }) ∧
      (s.idx ≠ 3#32 →
        step s = .next { s with
          outq := s.outq ++ [.byte (byteK s.idx.toNat s.typ)], idx := s.idx + 1#32 }) ∧
      (s.idx = 0#32 →
        stepMany 4 s = .next { s with
          outq := s.outq ++ (be32 s.typ).map .byte,
          phase := if s.len = 0#32 then .eCrc else .eData, idx := 0#32 })) ∧
    (s.phase = .eCrc →
      (s.idx = 3#32 →
        step s = .next { s with
          outq := s.outq ++ [.byte (byteK s.idx.toNat s.crcr)], phase := .eEos, idx := 0#32 }) ∧
      (s.idx ≠ 3#32 →
        step s = .next { s with
          outq := s.outq ++ [.byte (byteK s.idx.toNat s.crcr)], idx := s.idx + 1#32 }) ∧
      (s.idx = 0#32 →
        stepMany 4 s = .next { s with
          outq := s.outq ++ (be32 s.crcr).map .byte, phase := .eEos, idx := 0#32 }))

/-- E_DATA and D_DATA are entered only with LEN >= 1; their steps, with IDX < LEN <= PAYLOAD_CAP: BUF[IDX] is
pushed unchanged, and the LEN-th byte begins the next phase; from IDX = 0 LEN steps send the payload,
BUF[0] first (R213, R217). -/
def Obligations.EmitPayloadSteps : Prop :=
  (∀ s t : State, step s = .next t →
    (s.phase ≠ .eData → t.phase = .eData → 1 ≤ t.len.toNat) ∧
    (s.phase ≠ .dData → t.phase = .dData → 1 ≤ t.len.toNat)) ∧
  ∀ (s : State) (p : Phase), s.script = [] →
    (s.phase = .eData ∧ p = .eCrc) ∨ (s.phase = .dData ∧ p = .dEos) →
    s.idx.toNat < s.len.toNat → s.len.toNat ≤ s.cap.toNat →
    (s.idx = s.len - 1#32 →
      step s = .next { s with
        outq := s.outq ++ [.byte (s.buf.read s.idx.toNat)], phase := p, idx := 0#32 }) ∧
    (s.idx ≠ s.len - 1#32 →
      step s = .next { s with
        outq := s.outq ++ [.byte (s.buf.read s.idx.toNat)], idx := s.idx + 1#32 }) ∧
    (s.idx = 0#32 →
      stepMany s.len.toNat s = .next { s with
        outq := s.outq ++ (s.buf.prefixBytes s.len.toNat).map .byte, phase := p, idx := 0#32 })

/-- The steps in E_EOS and D_EOS: the EOS token is pushed and the command is done (R215, R218). -/
def Obligations.EmitClosesWithEos : Prop :=
  ∀ s : State, s.script = [] → s.phase = .eEos ∨ s.phase = .dEos →
    step s = .next { s with outq := s.outq ++ [.eos], err := 0#4, phase := .idle }

/-- Waiting: in a consuming phase with INQ empty, and while idle, the step changes nothing. That a wait is a
step that changes nothing, not the absence of a step, is THE MODEL'S CHOICE (log 8);
42_frame_parser.md section 3: "It stays busy, changes nothing, and goes on when a token arrives." -/
def Obligations.WaitingChangesNothing : Prop :=
  ∀ s : State, s.script = [] → waitsForToken s = true ∨ s.phase = .idle → step s = .next s

/-! ## Whole-machine rules -/

/-- A step of the engine takes at most the head token of INQ, and only in the five consuming phases; it adds
at most one token to the tail of OUTQ, and only in the seven emitting phases (20_memory.md section 2). -/
def Obligations.StreamsMoveOneTokenInTheirPhases : Prop :=
  ∀ s t : State, s.script = [] → step s = .next t →
    (s.phase ∈ [Phase.pLen, .pType, .pData, .pCrc, .bData] → t.inq = s.inq.tail) ∧
    (s.phase ∉ [Phase.pLen, .pType, .pData, .pCrc, .bData] → t.inq = s.inq) ∧
    (s.phase ∈ [Phase.eLen, .eType, .eData, .eCrc, .eEos, .dData, .dEos] →
      ∃ tok : Token, t.outq = s.outq ++ [tok]) ∧
    (s.phase ∉ [Phase.eLen, .eType, .eData, .eCrc, .eEos, .dData, .dEos] → t.outq = s.outq)

/-- The host's side of the streams, and nothing else of the machine changed: a push appends to the tail of
INQ, pop, OUT and feed take the head of OUTQ, and the tokens pushed or taken keep their order
(20_memory.md sections 2 and 6). THE MODEL'S CHOICE (log 6, 7, 8, 9): what is popped is recorded in `seen`,
an empty stream gives nothing, OUT and WAIT stay pending, and what discard, flush and feed are. -/
def Obligations.HostActsOnItsSideOfTheStreams : Prop :=
  (∀ (s : State) (a : HostAct) (rest : List HostAct), s.script = a :: rest →
    (∀ t : Token, a = .push t → step s = .next { s with script := rest, inq := s.inq ++ [t] }) ∧
    (∀ (t : Token) (ts : List Token), s.outq = t :: ts →
      (a = .pop → step s = .next { s with script := rest, outq := ts, seen := s.seen ++ [.token t] }) ∧
      (a = .drain → step s = .next { s with outq := ts, seen := s.seen ++ [.token t] }) ∧
      (a = .feed →
        step s = .next { s with
          script := rest, outq := ts, inq := s.inq ++ [t], seen := s.seen ++ [.token t] })) ∧
    (s.outq = [] → a = .pop ∨ a = .drain ∨ a = .feed → step s = .next { s with script := rest }) ∧
    (∀ (t : Token) (ts : List Token), s.inq = t :: ts → a = .discard →
      step s = .next { s with script := rest, inq := ts }) ∧
    (∀ (bytes : List Byte) (ts : List Token), s.inq = sliceTokens bytes ++ ts → a = .flush →
      step s = .next { s with script := rest, inq := ts }) ∧
    (Token.eos ∉ s.inq → a = .flush → step s = .next { s with script := rest, inq := [] }) ∧
    (s.inq = [] → a = .discard ∨ a = .flush → step s = .next { s with script := rest }) ∧
    (a = .wait →
      (s.phase = .idle → step s = .next { s with script := rest }) ∧
      (s.phase ≠ .idle → step s = engineStep s)) ∧
    (a = .engine → step s = engineStep { s with script := rest })) ∧
  (∀ (s : State) (bytes : List Byte) (rest : List HostAct), s.script = inActs bytes ++ eosAct :: rest →
    stepMany (bytes.length + 1) s =
      .next { s with script := rest, inq := s.inq ++ sliceTokens bytes }) ∧
  (∀ (s : State) (rest : List HostAct), s.script = .drain :: rest →
    stepMany (s.outq.length + 1) s =
      .next { s with script := rest, outq := [], seen := s.seen ++ s.outq.map .token })

/-- A run in which the host wrote a command other than SRST while busy, at any point, has not gone well,
whatever came after: the command was lost (60_exceptions.md section 6, 70_reset_and_hazards.md section 5,
95_test_vectors.md P7; that OVR is looked at in every state of the run is DEDUCED, log 26). A run that has
gone well ends idle, with no host action left and with OVR = 0, and every STATUS it expected to show
ERR = 0 did. -/
def Obligations.ARunThatLosesACommandHasNotGoneWell : Prop :=
  (∀ (s t : State) (expected : List Nat) (j k : Nat) (w : Word) (rest : List HostAct), j < k →
    stepMany j s = .next t → t.script = .wr .cmd w :: rest → w ≠ 0x00000006#32 → t.phase ≠ .idle →
    wentWell expected k s = false) ∧
  (∀ (s : State) (expected : List Nat) (k : Nat), wentWell expected k s = true →
    ∃ t : State, stepMany k s = .next t ∧ t.phase = .idle ∧ t.script = [] ∧ t.ovr = false ∧
      ∀ i ∈ expected, ∃ v : Word, t.seen[i]? = some (.read .status v) ∧ v.extractLsb' 4 4 = 0#4)

/-- In the emitting phases a step writes only PHASE, IDX, ERR and OUTQ: the record, every byte of BUF, TVIN,
OVR, ACC, SCRC and INQ are unchanged (44_serializer.md section 3). -/
def Obligations.SerializerFrame : Prop :=
  ∀ s t : State, s.script = [] → s.phase ∈ [Phase.eLen, .eType, .eData, .eCrc, .eEos, .dData, .dEos] →
    step s = .next t →
    t.cv = s.cv ∧ t.len = s.len ∧ t.typ = s.typ ∧ t.crcr = s.crcr ∧
    (∀ a : Nat, t.buf.read a = s.buf.read a) ∧ t.tvin = s.tvin ∧ t.ovr = s.ovr ∧ t.acc = s.acc ∧
    t.scrc = s.scrc ∧ t.inq = s.inq ∧ t.script = s.script ∧ t.seen = s.seen

/-- TVIN is changed only by a host write of TVIN, a reset or SRST (45_control_and_register_access.md section 4). -/
def Obligations.TvinIsWrittenByHostAndResetOnly : Prop :=
  ∀ s t : State, step s = .next t →
    t.tvin = s.tvin ∨ s.script.head? = some (.wr .tvin t.tvin) ∨
    (t.tvin = 0#32 ∧
      (s.script.head? = some .reset ∨ s.script.head? = some (.wr .cmd 0x00000006#32)))

/-- CV is set only by the last step of a successful BUILD or PARSE, cleared only by reset, SRST and the
acceptance of a BUILD or PARSE, and by every one of these; NOP, TCHK, EMIT, EMITD, an illegal command
and a discarded command leave it; its reset value is 0 (R25). -/
def Obligations.CvFollowsTheRecord : Prop :=
  (∀ s t : State, step s = .next t → s.cv = false → t.cv = true →
    (s.phase = .bData ∨ s.phase = .pCrc) ∧ t.phase = .idle ∧ t.err = 0#4) ∧
  (∀ s t : State, step s = .next t → s.cv = true → t.cv = false →
    s.script.head? = some .reset ∨ s.script.head? = some (.wr .cmd 0x00000006#32) ∨
    (s.phase = .idle ∧
      (s.script.head? = some (.wr .cmd 0x00000002#32) ∨ s.script.head? = some (.wr .cmd 0x00000003#32)))) ∧
  (∀ s t : State, exec .srst s = .next t → t.cv = false) ∧
  (∀ (s : State) (rest : List HostAct), s.script = .reset :: rest →
    ∃ t, step s = .next t ∧ t.cv = false) ∧
  (∀ (s t : State) (i : Instr), s.phase = .idle → i = .build ∨ i = .parse →
    exec i s = .next t → t.cv = false) ∧
  (∀ (s t : State) (i : Instr), i = .nop ∨ i = .tchk ∨ i = .emit ∨ i = .emitd →
    exec i s = .next t → t.cv = s.cv) ∧
  (∀ (s t : State) (w : Word) (rest : List HostAct), s.script = .wr .cmd w :: rest →
    6 < w.toNat ∨ (s.phase ≠ .idle ∧ w ≠ 0x00000006#32) → step s = .next t → t.cv = s.cv) ∧
  State.reset.cv = false

/-- While CV stays 1 no step changes the length, the type, the checksum or a payload byte of the record
(10_state.md section 5). -/
def Obligations.HeldRecordIsImmutable : Prop :=
  ∀ s t : State, Inv s → step s = .next t → s.cv = true → t.cv = true → heldChunk t = heldChunk s

/-- Tokens pushed early or late give the same result: an engine step that does not wait commutes with a push
onto INQ (20_memory.md section 6, R74 point 4). -/
def Obligations.PushCommutesWithEngineStep : Prop :=
  ∀ (s t : State) (tok : Token), waitsForToken s = false → engineStep s = .next t →
    engineStep { s with inq := s.inq ++ [tok] } = .next { t with inq := t.inq ++ [tok] }

/-- A command under way reads neither TVIN nor anything of the host: writing TVIN, the script and what the
host has seen do not change what the engine's step does (70_reset_and_hazards.md section 3,
10_state.md section 2). -/
def Obligations.EngineStepIgnoresTvinAndHost : Prop :=
  ∀ (s t : State) (v : Word) (sc : List HostAct) (se : List HostObs), engineStep s = .next t →
    engineStep { s with tvin := v, script := sc, seen := se } =
      .next { t with tvin := v, script := sc, seen := se }

/-! ## Reset and the invariant -/

/-- The reset values of the spec's table, after power-on, after a hardware reset and after SRST, and the
host-visible reading after reset; a reset in a run leaves INQ and OUTQ. BUF, ACC and SCRC, which the
table allows to be unspecified, are not spoken of (R47). -/
def Obligations.ResetValuesAndReadings : Prop :=
  (∀ t : State,
    t = State.reset ∨ (∃ s : State, exec .srst s = .next t) ∨
      (∃ (s : State) (rest : List HostAct), s.script = .reset :: rest ∧ step s = .next t) →
    t.tvin = 0#32 ∧ t.len = 0#32 ∧ t.typ = 0#32 ∧ t.crcr = 0#32 ∧ t.cv = false ∧ t.err = 0#4 ∧
    t.ovr = false ∧ t.phase = .idle ∧ t.idx = 0#32 ∧
    readReg t .cmd = 0#32 ∧ readReg t .status = 0x00000000#32 ∧ readReg t .tvin = 0#32 ∧
    readReg t .tvflags = 0x0000000E#32 ∧ readReg t .clen = 0#32 ∧ readReg t .ctype = 0#32 ∧
    readReg t .ccrc = 0#32 ∧ readReg t .cap = t.cap) ∧
  State.reset.cap = Config.payloadCap ∧
  (∀ s t : State,
    exec .srst s = .next t ∨ (s.script.head? = some .reset ∧ step s = .next t) →
    t.inq = s.inq ∧ t.outq = s.outq ∧ t.cap = s.cap)

/-- The invariant of the engine holds after reset. -/
def Obligations.ResetMeetsTheInvariant : Prop := Inv State.reset

/-- Every step, whatever the host does, keeps the invariant of the engine: BUF in form and in range, ERR a
raised code and 0 while busy, IDX within the phase, ACC the checksum so far, and the record sound
wherever CV = 1 (10_state.md section 5). -/
def Obligations.EveryStepKeepsTheInvariant : Prop :=
  ∀ s t : State, Inv s → step s = .next t → Inv t

/-- The chunk record invariant, its four clauses, in every state that meets Inv (10_state.md section 5). -/
def Obligations.ChunkRecordInvariant : Prop :=
  ∀ s : State, Inv s → s.cv = true →
    s.phase ∈ [Phase.idle, .eLen, .eType, .eData, .eCrc, .eEos, .dData, .dEos] ∧
    alpha4 s.typ = true ∧ s.len.toNat ≤ s.cap.toNat ∧
    s.crcr = crc32 (be32 s.typ ++ s.buf.prefixBytes s.len.toNat)

/-- No step from a state that meets Inv faults or is refused: every access to BUF is in range
(20_memory.md section 4) and every command has a meaning. -/
def Obligations.NoStepStops : Prop :=
  ∀ s : State, Inv s → ∃ t : State, step s = .next t

/-! ## What the commands compute -/

/-- PARSE computes the function parse: run on a slice and its EOS it ends idle after exactly the tokens that
function's outcome consumes, with the chunk held on success and the error's code and no chunk otherwise,
and pushes no token (42_frame_parser.md section 5, with the token counts of section 3). -/
def Obligations.ParseComputesTheParseFunction : Prop :=
  ∀ (s : State) (bytes : List Byte) (rest : List Token),
    s.script = [cmdAct .parse] → s.phase = .idle → s.buf.wf = true →
    s.inq = sliceTokens bytes ++ rest →
    ∃ t : State, stepMany (1 + parseTokens s.cap bytes) s = .next t ∧
      t.phase = .idle ∧ t.script = [] ∧ t.seen = s.seen ∧ t.outq = s.outq ∧ t.tvin = s.tvin ∧
      t.ovr = s.ovr ∧ t.cap = s.cap ∧ t.inq = s.inq.drop (parseTokens s.cap bytes) ∧
      (∀ (c : Chunk) (n : Nat), parseSlice s.cap bytes = .ok (c, n) →
        t.err = 0#4 ∧ heldChunk t = some c) ∧
      (∀ k : ErrorKind, parseSlice s.cap bytes = .error k → t.err = k.code ∧ heldChunk t = none)

/-- BUILD computes the function build: run on a payload and its EOS it ends idle after exactly the tokens its
outcome consumes, with the chunk held on success and the error's code and no chunk otherwise
(43_chunk_builder.md section 3). -/
def Obligations.BuildComputesTheBuildFunction : Prop :=
  ∀ (s : State) (d : List Byte) (rest : List Token),
    s.script = [cmdAct .build] → s.phase = .idle → s.buf.wf = true → s.inq = sliceTokens d ++ rest →
    ∃ t : State, stepMany (1 + buildTokens s.cap s.tvin d) s = .next t ∧
      t.phase = .idle ∧ t.script = [] ∧ t.seen = s.seen ∧ t.outq = s.outq ∧ t.tvin = s.tvin ∧
      t.ovr = s.ovr ∧ t.cap = s.cap ∧ t.inq = s.inq.drop (buildTokens s.cap s.tvin d) ∧
      (∀ c : Chunk, buildChunk s.cap s.tvin d = .ok c → t.err = 0#4 ∧ heldChunk t = some c) ∧
      (∀ k : ErrorKind, buildChunk s.cap s.tvin d = .error k → t.err = k.code ∧ heldChunk t = none)

/-- EMIT appends the wire form of the held chunk and one EOS to OUTQ, in 13 + LEN steps after the
acceptance; EMITD its payload and one EOS, in LEN + 1 steps; nothing else of the engine changes but ERR
and IDX (44_serializer.md section 3). -/
def Obligations.EmitComputesTheWireForm : Prop :=
  ∀ (s : State) (c : Chunk), s.phase = .idle → heldChunk s = some c → s.len.toNat ≤ s.cap.toNat →
    (s.script = [cmdAct .emit] →
      stepMany (1 + (13 + s.len.toNat)) s =
        .next { s with
          script := [], err := 0#4, idx := 0#32, outq := s.outq ++ sliceTokens (serializeChunk c) }) ∧
    (s.script = [cmdAct .emitd] →
      stepMany (1 + (s.len.toNat + 1)) s =
        .next { s with
          script := [], err := 0#4, idx := 0#32, outq := s.outq ++ sliceTokens c.data })

/-- The wire form decodes to what was encoded, whatever bytes follow it; and every accepted slice begins with
the wire form of the chunk it gives, which is sound (42_frame_parser.md section 5). -/
def Obligations.WireFormRoundTrip : Prop :=
  (∀ (cap : Word) (c : Chunk) (rest : List Byte), c.sound cap = true →
    parseSlice cap (serializeChunk c ++ rest) = .ok (c, 12 + c.length.toNat)) ∧
  (∀ (cap : Word) (s : List Byte) (c : Chunk) (n : Nat), parseSlice cap s = .ok (c, n) →
    c.sound cap = true ∧ n = 12 + c.length.toNat ∧ serializeChunk c = s.take n)

/-- EMIT, the tokens moved from OUTQ to INQ, then PARSE: the PARSE succeeds, the same chunk is held, and only
the EOS is left in INQ (42_frame_parser.md section 5). -/
def Obligations.EmitThenParseKeepsTheChunk : Prop :=
  ∀ s : State, Inv s → s.phase = .idle → s.cv = true → s.script = [cmdAct .emit] → s.outq = [] →
    ∃ t u : State, stepMany (1 + (13 + s.len.toNat)) s = .next t ∧
      stepMany (1 + (12 + s.len.toNat)) { t with inq := t.outq, outq := [], script := [cmdAct .parse] } =
        .next u ∧
      u.phase = .idle ∧ u.err = 0#4 ∧ u.cv = true ∧ heldChunk u = heldChunk s ∧ u.inq = [.eos]

/-- A command under way ends: with an EOS somewhere in INQ if it consumes tokens, and no host action in
between, the engine is idle after a bounded number of steps (70_reset_and_hazards.md section 4). -/
def Obligations.CommandsUnderWayEnd : Prop :=
  ∀ s : State, Inv s → s.script = [] → (s.phase.consumes = true → Token.eos ∈ s.inq) →
    ∃ (k : Nat) (t : State), k ≤ s.inq.length + 13 + s.len.toNat ∧ stepMany k s = .next t ∧
      t.phase = .idle

/-! ## The host contract -/

/-- Serializing the chunks of an accepted file gives the file back, byte for byte (R257). -/
def Obligations.FileRoundTrip : Prop :=
  ∀ (cap : Word) (trailingHdr : Nat) (file : List Byte) (cs : List Chunk),
    containerParse cap trailingHdr file = .ok cs → containerSerialize cs = file

/-- Two chunks of a type appended to a list without that type: the search gives both in order, the first
removal the first, the second the second, a third fails with ChunkNotFound (R273). Removing all chunks of
a type, from any list, gives how many there were, 0 among them, and the others in their order; it never
fails, and is the first-match removal repeated until it fails (R261). -/
def Obligations.SearchAndRemoveByType : Prop :=
  (∀ (t : Word) (cs : List Chunk) (c d : Chunk),
    chunksByType t cs = [] → c.typ = t → d.typ = t →
    chunksByType t (appendChunk d (appendChunk c cs)) = [c, d] ∧
    removeChunk t (appendChunk d (appendChunk c cs)) = .ok (c, appendChunk d cs) ∧
    removeChunk t (appendChunk d cs) = .ok (d, cs) ∧
    removeChunk t cs = .error .chunkNotFound ∧
    removeAllChunks t (appendChunk d (appendChunk c cs)) = (2, cs)) ∧
  (∀ (t : Word) (cs : List Chunk),
    removeAllChunks t cs =
      ((chunksByType t cs).length, cs.filter (fun c => decide (c.typ ≠ t))) ∧
    (removeChunk t cs = .error .chunkNotFound → removeAllChunks t cs = (0, cs)) ∧
    (∀ (c : Chunk) (ds : List Chunk), removeChunk t cs = .ok (c, ds) →
      removeAllChunks t cs = ((removeAllChunks t ds).1 + 1, (removeAllChunks t ds).2)))

/-- encode succeeds exactly when the file parses, the string is a chunk type and BUILD takes the message's
UTF-8 bytes, and its output is the file followed by the new chunk's wire form (R262). For a file without
that type, decode of the output gives one string, the message, under every rule for text that takes
the encodings of texts for valid UTF-8; and the source's message under "RuSt" makes a chunk of length 42
with CRC 2882656334 (R274). THE MODEL'S CHOICE: that decode takes the type packed (log 18) and the UTF-8
encoding of a message that is not ASCII (log 25). -/
def Obligations.EncodeThenDecodeGivesTheMessage : Prop :=
  (∀ (cap : Word) (trailingHdr : Nat) (file out : List Byte) (message name : List Char),
    encodeFile cap trailingHdr file message name = .ok out ↔
      ∃ (cs : List Chunk) (t : Word) (c : Chunk), containerParse cap trailingHdr file = .ok cs ∧
        parseStr name = .ok t ∧ buildChunk cap t (utf8Encode message) = .ok c ∧
        out = file ++ serializeChunk c) ∧
  (∀ (cap : Word) (trailingHdr : Nat) (r : TextRules) (file out : List Byte) (message name : List Char)
    (t : Word), trailingHdr ≤ 12 → r.acceptsText → decodeFile cap trailingHdr r file t = .ok [] →
    parseStr name = .ok t → encodeFile cap trailingHdr file message name = .ok out →
    decodeFile cap trailingHdr r out t = .ok [message]) ∧
  parseStr ['R', 'u', 'S', 't'] = .ok 0x52755374#32 ∧
  (∀ cap : Word, 42 ≤ cap.toNat →
    ∃ c : Chunk, buildChunk cap 0x52755374#32 (utf8Encode
        ['T', 'h', 'i', 's', ' ', 'i', 's', ' ', 'w', 'h', 'e', 'r', 'e', ' ', 'y', 'o', 'u', 'r', ' ',
          's', 'e', 'c', 'r', 'e', 't', ' ', 'm', 'e', 's', 's', 'a', 'g', 'e', ' ', 'w', 'i', 'l', 'l',
          ' ', 'b', 'e', '!']) = .ok c ∧
      c.length.toNat = 42 ∧ c.crc.toNat = 2882656334)
end

