-- ==== Sys2Proof/Laws/Crc.lean ====
section
/-! SUPPORT. The CRC unit: the accumulator over joined sequences, and that a round, an update and a fold lose no
information about the accumulator. -/

namespace Sys2Proof.Machine

open Sys2Proof

@[simp] theorem crcFold_nil (acc : Word) : crcFold acc [] = acc := rfl

@[simp] theorem crcFold_cons (acc : Word) (b : Byte) (s : List Byte) :
    crcFold acc (b :: s) = crcFold (crcUpdate acc b) s := rfl

theorem crcFold_append (acc : Word) (s t : List Byte) :
    crcFold acc (s ++ t) = crcFold (crcFold acc s) t := by
  simp [crcFold]

/-- One more byte at the end. -/
theorem crcFold_concat (acc : Word) (s : List Byte) (b : Byte) :
    crcFold acc (s ++ [b]) = crcUpdate (crcFold acc s) b := by
  simp [crcFold_append]

/-- A round is injective: bit 31 of the result tells whether the polynomial entered. -/
theorem crcRound_injective {a b : Word} (h : crcRound a = crcRound b) : a = b := by
  have key : ∀ x : Word, (crcRound x).getLsbD 31 = x.getLsbD 0 := by
    intro x
    unfold crcRound
    split <;> simp_all [crcPoly]
  have h0 : a.getLsbD 0 = b.getLsbD 0 := by rw [← key a, ← key b, h]
  have hs : a >>> 1 = b >>> 1 := by
    unfold crcRound at h
    rw [h0] at h
    split at h
    · have := congrArg (· ^^^ crcPoly) h
      simpa [BitVec.xor_assoc] using this
    · exact h
  apply BitVec.eq_of_getLsbD_eq
  intro i hi
  cases i with
  | zero => exact h0
  | succ i =>
    have := congrArg (fun v : Word => v.getLsbD i) hs
    simpa [BitVec.getLsbD_ushiftRight, Nat.add_comm] using this

theorem crcRounds_injective {n : Nat} {a b : Word} (h : crcRounds n a = crcRounds n b) : a = b := by
  induction n generalizing a b with
  | zero => exact h
  | succ n ih => exact crcRound_injective (ih h)

/-- Different accumulators stay different over the same byte. -/
theorem crcUpdate_injective {a a' : Word} {b : Byte} (h : crcUpdate a b = crcUpdate a' b) : a = a' := by
  have := crcRounds_injective h
  have := congrArg (· ^^^ b.setWidth 32) this
  simpa [BitVec.xor_assoc] using this

/-- Different bytes give different accumulators. -/
theorem crcUpdate_byte_injective {a : Word} {b b' : Byte} (h : crcUpdate a b = crcUpdate a b') : b = b' := by
  have := crcRounds_injective h
  have hx : b.setWidth 32 = b'.setWidth 32 := by
    have h2 := congrArg (a ^^^ ·) this
    simpa [← BitVec.xor_assoc] using h2
  have h3 := congrArg (fun v : Word => v.setWidth 8) hx
  simpa using h3

/-- Different accumulators stay different over the same sequence. -/
theorem crcFold_injective {s : List Byte} {a a' : Word} (h : crcFold a s = crcFold a' s) : a = a' := by
  induction s generalizing a a' with
  | nil => exact h
  | cons b s ih => exact crcUpdate_injective (ih h)

theorem crcFinal_injective {a b : Word} (h : crcFinal a = crcFinal b) : a = b := by
  have := congrArg (· ^^^ 0xFFFFFFFF#32) h
  simpa [crcFinal, BitVec.xor_assoc] using this

end Sys2Proof.Machine
end

