-- ==== Sys2Proof/Laws/Memory.lean ====
section
/-! SUPPORT. BUF: every write keeps the canonical form and the range of indices, a read after a write gives the byte
written there and what was there elsewhere, and equal readings mean equal memories. -/

namespace Sys2Proof.Machine

open Sys2Proof

@[simp] theorem Memory.wf_nil : Memory.wf [] = true := rfl

theorem Memory.wf_cons {c : Host.Cell} {m : Memory} :
    Memory.wf (c :: m) = true ↔
      c.2 ≠ Config.unlistedByte ∧ (∀ d ∈ m, c.1 < d.1) ∧ Memory.wf m = true := by
  simp [Memory.wf, and_assoc]

@[simp] theorem Memory.below_nil (n : Nat) : Memory.below [] n = true := rfl

theorem Memory.below_cons {c : Host.Cell} {m : Memory} {n : Nat} :
    Memory.below (c :: m) n = true ↔ c.1 < n ∧ Memory.below m n = true := by
  simp [Memory.below]

@[simp] theorem Memory.read_nil (a : Nat) : Memory.read [] a = Config.unlistedByte := rfl

theorem Memory.read_cons (c : Host.Cell) (m : Memory) (a : Nat) :
    Memory.read (c :: m) a = if c.1 = a then c.2 else Memory.read m a := rfl

/-- Below every listed index a memory reads as unlisted. -/
theorem Memory.read_of_lt {m : Memory} {a : Nat} (h : ∀ d ∈ m, a < d.1) :
    Memory.read m a = Config.unlistedByte := by
  induction m with
  | nil => rfl
  | cons c m ih =>
    have hc : a < c.1 := h c (by simp)
    rw [Memory.read_cons, if_neg (by omega), ih (fun d hd => h d (by simp [hd]))]

/-- The indices a write can list: the old ones and the one written. -/
theorem Memory.mem_write {m : Memory} {a : Nat} {b : Byte} {d : Host.Cell}
    (h : d ∈ Memory.write m a b) : d ∈ m ∨ d.1 = a := by
  induction m with
  | nil =>
    simp only [Memory.write] at h
    split at h
    · simp at h
    · right; simp at h; simp [h]
  | cons c m ih =>
    simp only [Memory.write] at h
    split at h
    · split at h
      · exact .inl h
      · rcases List.mem_cons.1 h with rfl | h
        · exact .inr rfl
        · exact .inl h
    · split at h
      · split at h
        · exact .inl (List.mem_cons_of_mem _ h)
        · rcases List.mem_cons.1 h with rfl | h
          · exact .inr rfl
          · exact .inl (List.mem_cons_of_mem _ h)
      · rcases List.mem_cons.1 h with rfl | h
        · exact .inl (by simp)
        · rcases ih h with h | h
          · exact .inl (List.mem_cons_of_mem _ h)
          · exact .inr h

/-- Every write keeps the canonical form. -/
theorem Memory.write_wf {m : Memory} (a : Nat) (b : Byte) (h : m.wf = true) :
    (m.write a b).wf = true := by
  induction m with
  | nil =>
    simp only [Memory.write]
    split
    · rfl
    · rename_i hb; exact Memory.wf_cons.2 ⟨hb, by simp, rfl⟩
  | cons c m ih =>
    obtain ⟨hc, hlt, hm⟩ := Memory.wf_cons.1 h
    simp only [Memory.write]
    split
    · rename_i hac
      split
      · exact h
      · rename_i hb
        refine Memory.wf_cons.2 ⟨hb, ?_, h⟩
        intro d hd
        rcases List.mem_cons.1 hd with rfl | hd
        · exact hac
        · exact lt_trans hac (hlt d hd)
    · split
      · rename_i hac
        subst hac
        split
        · exact hm
        · rename_i hb; exact Memory.wf_cons.2 ⟨hb, hlt, hm⟩
      · refine Memory.wf_cons.2 ⟨hc, ?_, ih hm⟩
        intro d hd
        rcases Memory.mem_write hd with hd | hd
        · exact hlt d hd
        · omega

/-- Every write below n keeps the listed indices below n. -/
theorem Memory.write_below {m : Memory} {a n : Nat} (b : Byte) (ha : a < n)
    (h : m.below n = true) : (m.write a b).below n = true := by
  simp only [Memory.below, List.all_eq_true, decide_eq_true_eq] at h ⊢
  intro d hd
  rcases Memory.mem_write hd with hd | hd
  · exact h d hd
  · omega

/-- A read after a write: the byte written at its index, what was there at every other index. -/
theorem Memory.read_write {m : Memory} (a : Nat) (b : Byte) (a' : Nat) (h : m.wf = true) :
    (m.write a b).read a' = if a' = a then b else m.read a' := by
  induction m with
  | nil =>
    simp only [Memory.write]
    split
    · rename_i hb; simp [hb]
    · simp only [Memory.read_cons, Memory.read_nil]
      split <;> split <;> simp_all
  | cons c m ih =>
    obtain ⟨hc, hlt, hm⟩ := Memory.wf_cons.1 h
    simp only [Memory.write]
    split
    · rename_i hac
      split
      · rename_i hb
        split
        · rename_i haa
          subst haa
          rw [Memory.read_of_lt, hb]
          intro d hd
          rcases List.mem_cons.1 hd with rfl | hd
          · exact hac
          · exact lt_trans hac (hlt d hd)
        · rfl
      · rw [Memory.read_cons]
        split <;> split <;> simp_all
    · split
      · rename_i hac
        subst hac
        split
        · rename_i hb
          split
          · rename_i haa
            subst haa
            rw [Memory.read_of_lt hlt, hb]
          · rename_i haa
            rw [Memory.read_cons, if_neg (fun hh => haa hh.symm)]
        · rw [Memory.read_cons]
          split
          · rename_i haa; rw [if_pos haa.symm]
          · rename_i haa
            rw [if_neg (fun hh => haa hh.symm), Memory.read_cons, if_neg haa]
      · rename_i hlt' hne
        rw [Memory.read_cons, Memory.read_cons, ih hm]
        split
        · rename_i hca
          rw [if_neg (by omega)]
        · rfl

/-- The first n bytes do not see a write at n or above. -/
theorem Memory.prefixBytes_write {m : Memory} {a n : Nat} (b : Byte) (h : m.wf = true) (hn : n ≤ a) :
    (m.write a b).prefixBytes n = m.prefixBytes n := by
  simp only [Memory.prefixBytes]
  refine List.map_congr_left fun i hi => ?_
  rw [Memory.read_write a b i h, if_neg]
  have := List.mem_range.1 hi
  omega

theorem Memory.prefixBytes_zero (m : Memory) : m.prefixBytes 0 = [] := rfl

theorem Memory.prefixBytes_succ (m : Memory) (n : Nat) :
    m.prefixBytes (n + 1) = m.prefixBytes n ++ [m.read n] := by
  simp [Memory.prefixBytes, List.range_succ]

@[simp] theorem Memory.length_prefixBytes (m : Memory) (n : Nat) : (m.prefixBytes n).length = n := by
  simp [Memory.prefixBytes]

/-- After a write at n the first n + 1 bytes are the first n and the byte written. -/
theorem Memory.prefixBytes_write_succ {m : Memory} (n : Nat) (b : Byte) (h : m.wf = true) :
    (m.write n b).prefixBytes (n + 1) = m.prefixBytes n ++ [b] := by
  rw [Memory.prefixBytes_succ, Memory.prefixBytes_write b h le_rfl, Memory.read_write n b n h, if_pos rfl]

/-- MemRead answers exactly at the indices that exist. -/
theorem bufRead_eq_some {s : State} {a : Nat} {b : Byte} :
    bufRead s a = some b ↔ a < s.cap.toNat ∧ b = s.buf.read a := by
  unfold bufRead
  split
  · simp_all [eq_comm]
  · simp_all

/-- MemWrite answers exactly at the indices that exist, and changes BUF alone. -/
theorem bufWrite_eq_some {s t : State} {a : Nat} {b : Byte} :
    bufWrite s a b = some t ↔ a < s.cap.toNat ∧ t = { s with buf := s.buf.write a b } := by
  unfold bufWrite
  split
  · simp_all [eq_comm]
  · simp_all

theorem bufRead_of_lt {s : State} {a : Nat} (h : a < s.cap.toNat) :
    bufRead s a = some (s.buf.read a) := if_pos h

theorem bufWrite_of_lt {s : State} {a : Nat} (b : Byte) (h : a < s.cap.toNat) :
    bufWrite s a b = some { s with buf := s.buf.write a b } := if_pos h

end Sys2Proof.Machine
end

