-- ==== Sys2Proof/Laws/Ops.lean ====
section
/-! SUPPORT. One lemma for each shared operation that says once everything it can do; proofs cite these instead of
unfolding the operation. -/

namespace Sys2Proof.Machine

open Sys2Proof

theorem whenIdle_idle {s t : State} (h : s.phase = .idle) : whenIdle s t = .next t := if_pos h

theorem whenIdle_busy {s t : State} (h : s.phase ≠ .idle) : whenIdle s t = .next (overrun s) :=
  if_neg h

/-- A command other than SRST: accepted when idle, discarded with OVR when busy; nothing else. -/
theorem whenIdle_cases {s t u : State} (h : whenIdle s t = .next u) :
    (s.phase = .idle ∧ u = t) ∨ (s.phase ≠ .idle ∧ u = overrun s) := by
  by_cases hp : s.phase = .idle
  · rw [whenIdle_idle hp] at h; cases h; exact .inl ⟨hp, rfl⟩
  · rw [whenIdle_busy hp] at h; cases h; exact .inr ⟨hp, rfl⟩

theorem consume_nil {s : State} {f : Byte → State → Result} {g : State → Result} (h : s.inq = []) :
    consume s f g = .next s := by simp [consume, h]

theorem consume_byte {s : State} {f : Byte → State → Result} {g : State → Result} {b : Byte}
    {rest : List Token} (h : s.inq = .byte b :: rest) : consume s f g = f b (inPop s) := by
  simp [consume, h]

theorem consume_eos {s : State} {f : Byte → State → Result} {g : State → Result}
    {rest : List Token} (h : s.inq = .eos :: rest) : consume s f g = g (inPop s) := by
  simp [consume, h]

/-- A consuming step waits, takes a byte or takes an EOS. -/
theorem consume_cases {s : State} {f : Byte → State → Result} {g : State → Result} {r : Result}
    (h : consume s f g = r) :
    (s.inq = [] ∧ r = .next s) ∨
    (∃ b rest, s.inq = .byte b :: rest ∧ f b (inPop s) = r) ∨
    (∃ rest, s.inq = .eos :: rest ∧ g (inPop s) = r) := by
  match hq : s.inq with
  | [] => rw [consume_nil hq] at h; exact .inl ⟨rfl, h.symm⟩
  | .byte b :: rest => rw [consume_byte hq] at h; exact .inr (.inl ⟨b, rest, rfl, h⟩)
  | .eos :: rest => rw [consume_eos hq] at h; exact .inr (.inr ⟨rest, rfl, h⟩)

/-- The acceptance of BUILD: both branches clear CV. -/
theorem acceptBuild_cases (s : State) :
    (alpha4 s.tvin = true ∧
      acceptBuild s =
        { s with
          cv := false, err := 0#4, typ := s.tvin, acc := crcFold crcInit (be32 s.tvin), idx := 0#32,
          phase := .bData }) ∨
    (alpha4 s.tvin = false ∧ acceptBuild s = { s with cv := false, err := 1#4, phase := .idle }) := by
  unfold acceptBuild
  cases h : alpha4 s.tvin
  · right; simp [raiseError, ErrorKind.code]
  · left; simp

/-- The acceptance of EMIT and EMITD: the first phase, or NoChunk. -/
theorem acceptEmit_cases (p : Phase) (s : State) :
    (s.cv = true ∧ acceptEmit p s = { s with err := 0#4, phase := p, idx := 0#32 }) ∨
    (s.cv = false ∧ acceptEmit p s = { s with err := 8#4, phase := .idle }) := by
  unfold acceptEmit
  cases h : s.cv
  · right; simp [h, raiseError, ErrorKind.code]
  · left; simp [enterPhase]

/-- A 4-byte emitting step pushes one byte of the field and moves on. -/
theorem emitFieldByte_next {v : Word} {p : Phase} {s : State} (h : s.idx.toNat < 4) :
    emitFieldByte v p s =
      .next
        (if s.idx = 3#32 then enterPhase p (outPush (.byte (byteK s.idx.toNat v)) s)
        else advance (outPush (.byte (byteK s.idx.toNat v)) s)) := by
  unfold emitFieldByte
  rw [if_pos h]
  by_cases h3 : s.idx = 3#32 <;> simp [h3, outPush]

/-- A payload emitting step pushes BUF[IDX] and moves on. -/
theorem emitPayloadByte_next {p : Phase} {s : State} (h : s.idx.toNat < s.cap.toNat) :
    emitPayloadByte p s =
      .next
        (if s.idx = s.len - 1#32 then enterPhase p (outPush (.byte (s.buf.read s.idx.toNat)) s)
        else advance (outPush (.byte (s.buf.read s.idx.toNat)) s)) := by
  unfold emitPayloadByte
  rw [bufRead_of_lt h]
  by_cases h3 : s.idx = s.len - 1#32 <;> simp [h3, outPush]

end Sys2Proof.Machine
end

