-- ==== Sys2Proof/Laws/State.lean ====
section
/-! SUPPORT. One lemma for each field of State after each named update, true by rfl, so that no proof unfolds a
record update. -/

namespace Sys2Proof.Machine

open Sys2Proof

/-! ## inPop -/

@[simp] theorem inPop_tvin (s : State) : (inPop s).tvin = s.tvin := rfl
@[simp] theorem inPop_len (s : State) : (inPop s).len = s.len := rfl
@[simp] theorem inPop_typ (s : State) : (inPop s).typ = s.typ := rfl
@[simp] theorem inPop_crcr (s : State) : (inPop s).crcr = s.crcr := rfl
@[simp] theorem inPop_cv (s : State) : (inPop s).cv = s.cv := rfl
@[simp] theorem inPop_err (s : State) : (inPop s).err = s.err := rfl
@[simp] theorem inPop_ovr (s : State) : (inPop s).ovr = s.ovr := rfl
@[simp] theorem inPop_phase (s : State) : (inPop s).phase = s.phase := rfl
@[simp] theorem inPop_idx (s : State) : (inPop s).idx = s.idx := rfl
@[simp] theorem inPop_acc (s : State) : (inPop s).acc = s.acc := rfl
@[simp] theorem inPop_scrc (s : State) : (inPop s).scrc = s.scrc := rfl
@[simp] theorem inPop_buf (s : State) : (inPop s).buf = s.buf := rfl
@[simp] theorem inPop_cap (s : State) : (inPop s).cap = s.cap := rfl
@[simp] theorem inPop_inq (s : State) : (inPop s).inq = s.inq.tail := rfl
@[simp] theorem inPop_outq (s : State) : (inPop s).outq = s.outq := rfl
@[simp] theorem inPop_script (s : State) : (inPop s).script = s.script := rfl
@[simp] theorem inPop_seen (s : State) : (inPop s).seen = s.seen := rfl

/-! ## outPush -/

@[simp] theorem outPush_tvin (t : Token) (s : State) : (outPush t s).tvin = s.tvin := rfl
@[simp] theorem outPush_len (t : Token) (s : State) : (outPush t s).len = s.len := rfl
@[simp] theorem outPush_typ (t : Token) (s : State) : (outPush t s).typ = s.typ := rfl
@[simp] theorem outPush_crcr (t : Token) (s : State) : (outPush t s).crcr = s.crcr := rfl
@[simp] theorem outPush_cv (t : Token) (s : State) : (outPush t s).cv = s.cv := rfl
@[simp] theorem outPush_err (t : Token) (s : State) : (outPush t s).err = s.err := rfl
@[simp] theorem outPush_ovr (t : Token) (s : State) : (outPush t s).ovr = s.ovr := rfl
@[simp] theorem outPush_phase (t : Token) (s : State) : (outPush t s).phase = s.phase := rfl
@[simp] theorem outPush_idx (t : Token) (s : State) : (outPush t s).idx = s.idx := rfl
@[simp] theorem outPush_acc (t : Token) (s : State) : (outPush t s).acc = s.acc := rfl
@[simp] theorem outPush_scrc (t : Token) (s : State) : (outPush t s).scrc = s.scrc := rfl
@[simp] theorem outPush_buf (t : Token) (s : State) : (outPush t s).buf = s.buf := rfl
@[simp] theorem outPush_cap (t : Token) (s : State) : (outPush t s).cap = s.cap := rfl
@[simp] theorem outPush_inq (t : Token) (s : State) : (outPush t s).inq = s.inq := rfl
@[simp] theorem outPush_outq (t : Token) (s : State) : (outPush t s).outq = s.outq ++ [t] := rfl
@[simp] theorem outPush_script (t : Token) (s : State) : (outPush t s).script = s.script := rfl
@[simp] theorem outPush_seen (t : Token) (s : State) : (outPush t s).seen = s.seen := rfl

/-! ## raiseError -/

@[simp] theorem raiseError_tvin (k : ErrorKind) (s : State) : (raiseError k s).tvin = s.tvin := rfl
@[simp] theorem raiseError_len (k : ErrorKind) (s : State) : (raiseError k s).len = s.len := rfl
@[simp] theorem raiseError_typ (k : ErrorKind) (s : State) : (raiseError k s).typ = s.typ := rfl
@[simp] theorem raiseError_crcr (k : ErrorKind) (s : State) : (raiseError k s).crcr = s.crcr := rfl
@[simp] theorem raiseError_cv (k : ErrorKind) (s : State) : (raiseError k s).cv = s.cv := rfl
@[simp] theorem raiseError_err (k : ErrorKind) (s : State) : (raiseError k s).err = k.code := rfl
@[simp] theorem raiseError_ovr (k : ErrorKind) (s : State) : (raiseError k s).ovr = s.ovr := rfl
@[simp] theorem raiseError_phase (k : ErrorKind) (s : State) : (raiseError k s).phase = .idle := rfl
@[simp] theorem raiseError_idx (k : ErrorKind) (s : State) : (raiseError k s).idx = s.idx := rfl
@[simp] theorem raiseError_acc (k : ErrorKind) (s : State) : (raiseError k s).acc = s.acc := rfl
@[simp] theorem raiseError_scrc (k : ErrorKind) (s : State) : (raiseError k s).scrc = s.scrc := rfl
@[simp] theorem raiseError_buf (k : ErrorKind) (s : State) : (raiseError k s).buf = s.buf := rfl
@[simp] theorem raiseError_cap (k : ErrorKind) (s : State) : (raiseError k s).cap = s.cap := rfl
@[simp] theorem raiseError_inq (k : ErrorKind) (s : State) : (raiseError k s).inq = s.inq := rfl
@[simp] theorem raiseError_outq (k : ErrorKind) (s : State) : (raiseError k s).outq = s.outq := rfl
@[simp] theorem raiseError_script (k : ErrorKind) (s : State) : (raiseError k s).script = s.script := rfl
@[simp] theorem raiseError_seen (k : ErrorKind) (s : State) : (raiseError k s).seen = s.seen := rfl

/-! ## finish -/

@[simp] theorem finish_tvin (s : State) : (finish s).tvin = s.tvin := rfl
@[simp] theorem finish_len (s : State) : (finish s).len = s.len := rfl
@[simp] theorem finish_typ (s : State) : (finish s).typ = s.typ := rfl
@[simp] theorem finish_crcr (s : State) : (finish s).crcr = s.crcr := rfl
@[simp] theorem finish_cv (s : State) : (finish s).cv = s.cv := rfl
@[simp] theorem finish_err (s : State) : (finish s).err = 0#4 := rfl
@[simp] theorem finish_ovr (s : State) : (finish s).ovr = s.ovr := rfl
@[simp] theorem finish_phase (s : State) : (finish s).phase = .idle := rfl
@[simp] theorem finish_idx (s : State) : (finish s).idx = s.idx := rfl
@[simp] theorem finish_acc (s : State) : (finish s).acc = s.acc := rfl
@[simp] theorem finish_scrc (s : State) : (finish s).scrc = s.scrc := rfl
@[simp] theorem finish_buf (s : State) : (finish s).buf = s.buf := rfl
@[simp] theorem finish_cap (s : State) : (finish s).cap = s.cap := rfl
@[simp] theorem finish_inq (s : State) : (finish s).inq = s.inq := rfl
@[simp] theorem finish_outq (s : State) : (finish s).outq = s.outq := rfl
@[simp] theorem finish_script (s : State) : (finish s).script = s.script := rfl
@[simp] theorem finish_seen (s : State) : (finish s).seen = s.seen := rfl

/-! ## enterPhase -/

@[simp] theorem enterPhase_tvin (p : Phase) (s : State) : (enterPhase p s).tvin = s.tvin := rfl
@[simp] theorem enterPhase_len (p : Phase) (s : State) : (enterPhase p s).len = s.len := rfl
@[simp] theorem enterPhase_typ (p : Phase) (s : State) : (enterPhase p s).typ = s.typ := rfl
@[simp] theorem enterPhase_crcr (p : Phase) (s : State) : (enterPhase p s).crcr = s.crcr := rfl
@[simp] theorem enterPhase_cv (p : Phase) (s : State) : (enterPhase p s).cv = s.cv := rfl
@[simp] theorem enterPhase_err (p : Phase) (s : State) : (enterPhase p s).err = s.err := rfl
@[simp] theorem enterPhase_ovr (p : Phase) (s : State) : (enterPhase p s).ovr = s.ovr := rfl
@[simp] theorem enterPhase_phase (p : Phase) (s : State) : (enterPhase p s).phase = p := rfl
@[simp] theorem enterPhase_idx (p : Phase) (s : State) : (enterPhase p s).idx = 0#32 := rfl
@[simp] theorem enterPhase_acc (p : Phase) (s : State) : (enterPhase p s).acc = s.acc := rfl
@[simp] theorem enterPhase_scrc (p : Phase) (s : State) : (enterPhase p s).scrc = s.scrc := rfl
@[simp] theorem enterPhase_buf (p : Phase) (s : State) : (enterPhase p s).buf = s.buf := rfl
@[simp] theorem enterPhase_cap (p : Phase) (s : State) : (enterPhase p s).cap = s.cap := rfl
@[simp] theorem enterPhase_inq (p : Phase) (s : State) : (enterPhase p s).inq = s.inq := rfl
@[simp] theorem enterPhase_outq (p : Phase) (s : State) : (enterPhase p s).outq = s.outq := rfl
@[simp] theorem enterPhase_script (p : Phase) (s : State) : (enterPhase p s).script = s.script := rfl
@[simp] theorem enterPhase_seen (p : Phase) (s : State) : (enterPhase p s).seen = s.seen := rfl

/-! ## advance -/

@[simp] theorem advance_tvin (s : State) : (advance s).tvin = s.tvin := rfl
@[simp] theorem advance_len (s : State) : (advance s).len = s.len := rfl
@[simp] theorem advance_typ (s : State) : (advance s).typ = s.typ := rfl
@[simp] theorem advance_crcr (s : State) : (advance s).crcr = s.crcr := rfl
@[simp] theorem advance_cv (s : State) : (advance s).cv = s.cv := rfl
@[simp] theorem advance_err (s : State) : (advance s).err = s.err := rfl
@[simp] theorem advance_ovr (s : State) : (advance s).ovr = s.ovr := rfl
@[simp] theorem advance_phase (s : State) : (advance s).phase = s.phase := rfl
@[simp] theorem advance_idx (s : State) : (advance s).idx = s.idx + 1#32 := rfl
@[simp] theorem advance_acc (s : State) : (advance s).acc = s.acc := rfl
@[simp] theorem advance_scrc (s : State) : (advance s).scrc = s.scrc := rfl
@[simp] theorem advance_buf (s : State) : (advance s).buf = s.buf := rfl
@[simp] theorem advance_cap (s : State) : (advance s).cap = s.cap := rfl
@[simp] theorem advance_inq (s : State) : (advance s).inq = s.inq := rfl
@[simp] theorem advance_outq (s : State) : (advance s).outq = s.outq := rfl
@[simp] theorem advance_script (s : State) : (advance s).script = s.script := rfl
@[simp] theorem advance_seen (s : State) : (advance s).seen = s.seen := rfl

/-! ## overrun -/

@[simp] theorem overrun_tvin (s : State) : (overrun s).tvin = s.tvin := rfl
@[simp] theorem overrun_len (s : State) : (overrun s).len = s.len := rfl
@[simp] theorem overrun_typ (s : State) : (overrun s).typ = s.typ := rfl
@[simp] theorem overrun_crcr (s : State) : (overrun s).crcr = s.crcr := rfl
@[simp] theorem overrun_cv (s : State) : (overrun s).cv = s.cv := rfl
@[simp] theorem overrun_err (s : State) : (overrun s).err = s.err := rfl
@[simp] theorem overrun_ovr (s : State) : (overrun s).ovr = true := rfl
@[simp] theorem overrun_phase (s : State) : (overrun s).phase = s.phase := rfl
@[simp] theorem overrun_idx (s : State) : (overrun s).idx = s.idx := rfl
@[simp] theorem overrun_acc (s : State) : (overrun s).acc = s.acc := rfl
@[simp] theorem overrun_scrc (s : State) : (overrun s).scrc = s.scrc := rfl
@[simp] theorem overrun_buf (s : State) : (overrun s).buf = s.buf := rfl
@[simp] theorem overrun_cap (s : State) : (overrun s).cap = s.cap := rfl
@[simp] theorem overrun_inq (s : State) : (overrun s).inq = s.inq := rfl
@[simp] theorem overrun_outq (s : State) : (overrun s).outq = s.outq := rfl
@[simp] theorem overrun_script (s : State) : (overrun s).script = s.script := rfl
@[simp] theorem overrun_seen (s : State) : (overrun s).seen = s.seen := rfl

/-! ## softReset -/

@[simp] theorem softReset_tvin (s : State) : (softReset s).tvin = 0#32 := rfl
@[simp] theorem softReset_len (s : State) : (softReset s).len = 0#32 := rfl
@[simp] theorem softReset_typ (s : State) : (softReset s).typ = 0#32 := rfl
@[simp] theorem softReset_crcr (s : State) : (softReset s).crcr = 0#32 := rfl
@[simp] theorem softReset_cv (s : State) : (softReset s).cv = false := rfl
@[simp] theorem softReset_err (s : State) : (softReset s).err = 0#4 := rfl
@[simp] theorem softReset_ovr (s : State) : (softReset s).ovr = false := rfl
@[simp] theorem softReset_phase (s : State) : (softReset s).phase = .idle := rfl
@[simp] theorem softReset_idx (s : State) : (softReset s).idx = 0#32 := rfl
@[simp] theorem softReset_acc (s : State) : (softReset s).acc = crcInit := rfl
@[simp] theorem softReset_scrc (s : State) : (softReset s).scrc = 0#32 := rfl
@[simp] theorem softReset_buf (s : State) : (softReset s).buf = s.buf := rfl
@[simp] theorem softReset_cap (s : State) : (softReset s).cap = s.cap := rfl
@[simp] theorem softReset_inq (s : State) : (softReset s).inq = s.inq := rfl
@[simp] theorem softReset_outq (s : State) : (softReset s).outq = s.outq := rfl
@[simp] theorem softReset_script (s : State) : (softReset s).script = s.script := rfl
@[simp] theorem softReset_seen (s : State) : (softReset s).seen = s.seen := rfl

/-! ## withFetchWord -/

@[simp] theorem withFetchWord_tvin (s : State) (nbits w : Nat) :
    (s.withFetchWord nbits w).tvin = s.tvin := rfl
@[simp] theorem withFetchWord_len (s : State) (nbits w : Nat) :
    (s.withFetchWord nbits w).len = s.len := rfl
@[simp] theorem withFetchWord_typ (s : State) (nbits w : Nat) :
    (s.withFetchWord nbits w).typ = s.typ := rfl
@[simp] theorem withFetchWord_crcr (s : State) (nbits w : Nat) :
    (s.withFetchWord nbits w).crcr = s.crcr := rfl
@[simp] theorem withFetchWord_cv (s : State) (nbits w : Nat) :
    (s.withFetchWord nbits w).cv = s.cv := rfl
@[simp] theorem withFetchWord_err (s : State) (nbits w : Nat) :
    (s.withFetchWord nbits w).err = s.err := rfl
@[simp] theorem withFetchWord_ovr (s : State) (nbits w : Nat) :
    (s.withFetchWord nbits w).ovr = s.ovr := rfl
@[simp] theorem withFetchWord_phase (s : State) (nbits w : Nat) :
    (s.withFetchWord nbits w).phase = s.phase := rfl
@[simp] theorem withFetchWord_idx (s : State) (nbits w : Nat) :
    (s.withFetchWord nbits w).idx = s.idx := rfl
@[simp] theorem withFetchWord_acc (s : State) (nbits w : Nat) :
    (s.withFetchWord nbits w).acc = s.acc := rfl
@[simp] theorem withFetchWord_scrc (s : State) (nbits w : Nat) :
    (s.withFetchWord nbits w).scrc = s.scrc := rfl
@[simp] theorem withFetchWord_buf (s : State) (nbits w : Nat) :
    (s.withFetchWord nbits w).buf = s.buf := rfl
@[simp] theorem withFetchWord_cap (s : State) (nbits w : Nat) :
    (s.withFetchWord nbits w).cap = s.cap := rfl
@[simp] theorem withFetchWord_inq (s : State) (nbits w : Nat) :
    (s.withFetchWord nbits w).inq = s.inq := rfl
@[simp] theorem withFetchWord_outq (s : State) (nbits w : Nat) :
    (s.withFetchWord nbits w).outq = s.outq := rfl
@[simp] theorem withFetchWord_script (s : State) (nbits w : Nat) :
    (s.withFetchWord nbits w).script = HostAct.wr .cmd (tableWord nbits w) :: s.script := rfl
@[simp] theorem withFetchWord_seen (s : State) (nbits w : Nat) :
    (s.withFetchWord nbits w).seen = s.seen := rfl

end Sys2Proof.Machine
end

