-- ==== Sys2Proof/Laws/Step.lean ====
section
/-! SUPPORT. What a step can do: the host's action at the head of the script, or the engine's step of its phase; and
runs of several steps. -/

namespace Sys2Proof.Machine

open Sys2Proof

theorem step_nil {s : State} (h : s.script = []) : step s = engineStep s := by simp [step, h]

theorem step_cons {s : State} {a : HostAct} {rest : List HostAct} (h : s.script = a :: rest) :
    step s = hostStep a rest s := by simp [step, h]

/-- A step is the engine's, or the action at the head of the script. -/
theorem step_cases {s : State} {r : Result} (h : step s = r) :
    (s.script = [] ∧ engineStep s = r) ∨
    (∃ a rest, s.script = a :: rest ∧ hostStep a rest s = r) := by
  match hs : s.script with
  | [] => exact .inl ⟨rfl, (step_nil hs).symm.trans h⟩
  | a :: rest => exact .inr ⟨a, rest, rfl, (step_cons hs).symm.trans h⟩

theorem engineStep_idle {s : State} (h : s.phase = .idle) : engineStep s = .next s := by
  simp [engineStep, h]

theorem engineStep_pLen {s : State} (h : s.phase = .pLen) : engineStep s = parseLenStep s := by
  simp [engineStep, h]

theorem engineStep_pType {s : State} (h : s.phase = .pType) : engineStep s = parseTypeStep s := by
  simp [engineStep, h]

theorem engineStep_pData {s : State} (h : s.phase = .pData) : engineStep s = parseDataStep s := by
  simp [engineStep, h]

theorem engineStep_pCrc {s : State} (h : s.phase = .pCrc) : engineStep s = parseCrcStep s := by
  simp [engineStep, h]

theorem engineStep_bData {s : State} (h : s.phase = .bData) : engineStep s = buildStep s := by
  simp [engineStep, h]

theorem engineStep_eLen {s : State} (h : s.phase = .eLen) : engineStep s = emitLenStep s := by
  simp [engineStep, h]

theorem engineStep_eType {s : State} (h : s.phase = .eType) : engineStep s = emitTypeStep s := by
  simp [engineStep, h]

theorem engineStep_eData {s : State} (h : s.phase = .eData) : engineStep s = emitDataStep s := by
  simp [engineStep, h]

theorem engineStep_eCrc {s : State} (h : s.phase = .eCrc) : engineStep s = emitCrcStep s := by
  simp [engineStep, h]

theorem engineStep_eEos {s : State} (h : s.phase = .eEos) : engineStep s = emitEosStep s := by
  simp [engineStep, h]

theorem engineStep_dData {s : State} (h : s.phase = .dData) : engineStep s = emitdDataStep s := by
  simp [engineStep, h]

theorem engineStep_dEos {s : State} (h : s.phase = .dEos) : engineStep s = emitdEosStep s := by
  simp [engineStep, h]

@[simp] theorem stepMany_zero (s : State) : stepMany 0 s = .next s := rfl

theorem stepMany_succ {k : Nat} {s t : State} (h : step s = .next t) :
    stepMany (k + 1) s = stepMany k t := by simp [stepMany, h]

/-- A run of j + k steps is a run of j, then a run of k. -/
theorem stepMany_add {j k : Nat} {s t : State} (h : stepMany j s = .next t) :
    stepMany (j + k) s = stepMany k t := by
  induction j generalizing s with
  | zero => cases h; simp
  | succ j ih =>
    rw [show j + 1 + k = (j + k) + 1 by omega]
    cases hs : step s with
    | next u => rw [stepMany_succ hs] at h ⊢; exact ih h
    | fault f => simp [stepMany, hs] at h
    | refused r => simp [stepMany, hs] at h

/-- A state that j of k steps lead to is a state of the run of k steps. -/
theorem mem_runStates {j k : Nat} {s t : State} (hj : j ≤ k) (h : stepMany j s = .next t) :
    t ∈ runStates k s := by
  induction j generalizing k s with
  | zero =>
    cases h
    cases k with
    | zero => simp [runStates]
    | succ k => rw [runStates]; split <;> simp
  | succ j ih =>
    obtain ⟨k, rfl⟩ : ∃ i, k = i + 1 := ⟨k - 1, by omega⟩
    simp only [stepMany] at h
    rw [runStates]
    split at h
    · exact List.mem_cons_of_mem _ (ih (by omega) h)
    · cases h
    · cases h

/-- What a run that has gone well is: it ends over, and OVR = 0 in every state of it. -/
theorem wentWell_cases {expected : List Nat} {k : Nat} {s : State} (h : wentWell expected k s = true) :
    ∃ t, stepMany k s = .next t ∧ runOver t = true ∧ (∀ u ∈ runStates k s, u.ovr = false) ∧
      expected.all (sawNoError t) = true := by
  unfold wentWell at h
  split at h
  · rename_i t ht
    simp only [Bool.and_eq_true, List.all_eq_true, Bool.not_eq_true'] at h
    exact ⟨t, ht, h.1.1, h.1.2, List.all_eq_true.2 h.2⟩
  · cases h
  · cases h

/-- The model's runs are the host's runs of the core. -/
theorem stepMany_eq_run (k : Nat) (s : State) : stepMany k s = Sys2Proof.core.run k s := by
  induction k generalizing s with
  | zero => rfl
  | succ k ih =>
    cases hs : step s with
    | next t =>
      have hc : Sys2Proof.core.step s = .next t := hs
      simp only [stepMany, hs, Host.Core.run, hc]
      exact ih t
    | fault f =>
      have hc : Sys2Proof.core.step s = .fault f := hs
      simp only [stepMany, hs, Host.Core.run, hc]
      rfl
    | refused r =>
      have hc : Sys2Proof.core.step s = .refused r := hs
      simp only [stepMany, hs, Host.Core.run, hc]
      rfl

end Sys2Proof.Machine
end

