-- ==== Sys2Proof/Laws/EngineStep.lean ====
section
/-! SUPPORT. What each step can do, said once: the inversion of every step of the engine and of the host, and
the items that no step of the engine writes. -/

namespace Sys2Proof.Machine

open Sys2Proof

theorem inPop_cons {s : State} {x : Token} {rest : List Token} (h : s.inq = x :: rest) :
    inPop s = { s with inq := rest } := by simp [inPop, h]

/-- The step in P_LEN waits, takes a byte or takes an EOS. -/
theorem parseLenStep_cases {s t : State} (h : parseLenStep s = .next t) :
    (s.inq = [] ∧ t = s) ∨
    (∃ b rest, s.inq = .byte b :: rest ∧
      ((s.idx = 3#32 ∧
        t = { s with
          inq := rest, len := shiftIn s.len b, typ := 0#32, acc := crcInit, phase := .pType, idx := 0#32 }) ∨
      (s.idx ≠ 3#32 ∧ t = { s with inq := rest, len := shiftIn s.len b, idx := s.idx + 1#32 }))) ∨
    (∃ rest, s.inq = .eos :: rest ∧ t = { s with inq := rest, err := 2#4, phase := .idle }) := by
  rcases consume_cases h with ⟨hq, h⟩ | ⟨b, rest, hq, h⟩ | ⟨rest, hq, h⟩
  · cases h; exact .inl ⟨hq, rfl⟩
  · refine .inr (.inl ⟨b, rest, hq, ?_⟩)
    rw [inPop_cons hq] at h
    simp only [parseLenByte] at h
    split at h <;> cases h
    · exact .inl ⟨‹_›, rfl⟩
    · exact .inr ⟨‹_›, rfl⟩
  · rw [inPop_cons hq] at h; cases h; exact .inr (.inr ⟨rest, hq, rfl⟩)

/-- The step in P_TYPE waits, takes a byte (with the three tests after the fourth) or takes an EOS. -/
theorem parseTypeStep_cases {s t : State} (h : parseTypeStep s = .next t) :
    (s.inq = [] ∧ t = s) ∨
    (∃ b rest ty ac, s.inq = .byte b :: rest ∧ ty = shiftIn s.typ b ∧ ac = crcUpdate s.acc b ∧
      ((s.idx = 3#32 ∧ alpha4 ty = false ∧
        t = { s with inq := rest, typ := ty, acc := ac, err := 1#4, phase := .idle }) ∨
      (s.idx = 3#32 ∧ alpha4 ty = true ∧ s.cap.toNat < s.len.toNat ∧
        t = { s with inq := rest, typ := ty, acc := ac, err := 9#4, phase := .idle }) ∨
      (s.idx = 3#32 ∧ alpha4 ty = true ∧ s.len = 0#32 ∧
        t = { s with inq := rest, typ := ty, acc := ac, scrc := 0#32, phase := .pCrc, idx := 0#32 }) ∨
      (s.idx = 3#32 ∧ alpha4 ty = true ∧ s.len ≠ 0#32 ∧ s.len.toNat ≤ s.cap.toNat ∧
        t = { s with inq := rest, typ := ty, acc := ac, phase := .pData, idx := 0#32 }) ∨
      (s.idx ≠ 3#32 ∧ t = { s with inq := rest, typ := ty, acc := ac, idx := s.idx + 1#32 }))) ∨
    (∃ rest, s.inq = .eos :: rest ∧ t = { s with inq := rest, err := 2#4, phase := .idle }) := by
  rcases consume_cases h with ⟨hq, h⟩ | ⟨b, rest, hq, h⟩ | ⟨rest, hq, h⟩
  · cases h; exact .inl ⟨hq, rfl⟩
  · refine .inr (.inl ⟨b, rest, _, _, hq, rfl, rfl, ?_⟩)
    rw [inPop_cons hq] at h
    simp only [parseTypeByte, parseTypeTests] at h
    split at h
    · rename_i h3
      split at h
      · rename_i ha; cases h; exact .inl ⟨h3, by simpa using ha, rfl⟩
      · rename_i ha
        have ha : alpha4 (shiftIn s.typ b) = true := by simpa using ha
        split at h
        · cases h; exact .inr (.inl ⟨h3, ha, ‹_›, rfl⟩)
        · split at h <;> cases h
          · exact .inr (.inr (.inl ⟨h3, ha, ‹_›, rfl⟩))
          · exact .inr (.inr (.inr (.inl ⟨h3, ha, ‹_›, by omega, rfl⟩)))
    · cases h; exact .inr (.inr (.inr (.inr ⟨‹_›, rfl⟩)))
  · rw [inPop_cons hq] at h; cases h; exact .inr (.inr ⟨rest, hq, rfl⟩)

/-- The step in P_DATA waits, stores a byte at an index that exists, or takes an EOS. -/
theorem parseDataStep_cases {s t : State} (h : parseDataStep s = .next t) :
    (s.inq = [] ∧ t = s) ∨
    (∃ b rest bf ac, s.inq = .byte b :: rest ∧ s.idx.toNat < s.cap.toNat ∧
      bf = s.buf.write s.idx.toNat b ∧ ac = crcUpdate s.acc b ∧
      ((s.idx = s.len - 1#32 ∧
        t = { s with inq := rest, buf := bf, acc := ac, scrc := 0#32, phase := .pCrc, idx := 0#32 }) ∨
      (s.idx ≠ s.len - 1#32 ∧ t = { s with inq := rest, buf := bf, acc := ac, idx := s.idx + 1#32 }))) ∨
    (∃ rest, s.inq = .eos :: rest ∧ t = { s with inq := rest, err := 2#4, phase := .idle }) := by
  rcases consume_cases h with ⟨hq, h⟩ | ⟨b, rest, hq, h⟩ | ⟨rest, hq, h⟩
  · cases h; exact .inl ⟨hq, rfl⟩
  · rw [inPop_cons hq] at h
    simp only [parseDataByte] at h
    split at h
    · cases h
    · rename_i u hw
      obtain ⟨hlt, rfl⟩ := bufWrite_eq_some.1 hw
      refine .inr (.inl ⟨b, rest, _, _, hq, hlt, rfl, rfl, ?_⟩)
      split at h <;> cases h
      · exact .inl ⟨‹_›, rfl⟩
      · exact .inr ⟨‹_›, rfl⟩
  · rw [inPop_cons hq] at h; cases h; exact .inr (.inr ⟨rest, hq, rfl⟩)

/-- The step in P_CRC waits, takes a byte (with the checker after the fourth) or takes an EOS. -/
theorem parseCrcStep_cases {s t : State} (h : parseCrcStep s = .next t) :
    (s.inq = [] ∧ t = s) ∨
    (∃ b rest v, s.inq = .byte b :: rest ∧ v = shiftIn s.scrc b ∧
      ((s.idx = 3#32 ∧ v = crcFinal s.acc ∧
        t = { s with
          inq := rest, scrc := v, crcr := crcFinal s.acc, cv := true, err := 0#4, phase := .idle }) ∨
      (s.idx = 3#32 ∧ v ≠ crcFinal s.acc ∧
        t = { s with inq := rest, scrc := v, err := 3#4, phase := .idle }) ∨
      (s.idx ≠ 3#32 ∧ t = { s with inq := rest, scrc := v, idx := s.idx + 1#32 }))) ∨
    (∃ rest, s.inq = .eos :: rest ∧ t = { s with inq := rest, err := 2#4, phase := .idle }) := by
  rcases consume_cases h with ⟨hq, h⟩ | ⟨b, rest, hq, h⟩ | ⟨rest, hq, h⟩
  · cases h; exact .inl ⟨hq, rfl⟩
  · refine .inr (.inl ⟨b, rest, _, hq, rfl, ?_⟩)
    rw [inPop_cons hq] at h
    simp only [parseCrcByte, parseCrcTest] at h
    split at h
    · split at h <;> cases h
      · exact .inl ⟨‹_›, ‹_›, rfl⟩
      · exact .inr (.inl ⟨‹_›, ‹_›, rfl⟩)
    · cases h
      exact .inr (.inr ⟨‹_›, rfl⟩)
  · rw [inPop_cons hq] at h; cases h; exact .inr (.inr ⟨rest, hq, rfl⟩)

/-- The step in B_DATA waits, finds the buffer full, stores a byte, or completes the record. -/
theorem buildStep_cases {s t : State} (h : buildStep s = .next t) :
    (s.inq = [] ∧ t = s) ∨
    (∃ b rest, s.inq = .byte b :: rest ∧ s.idx = s.cap ∧
      t = { s with inq := rest, err := 9#4, phase := .idle }) ∨
    (∃ b rest, s.inq = .byte b :: rest ∧ s.idx ≠ s.cap ∧ s.idx.toNat < s.cap.toNat ∧
      t = { s with
        inq := rest, buf := s.buf.write s.idx.toNat b, acc := crcUpdate s.acc b, idx := s.idx + 1#32 }) ∨
    (∃ rest, s.inq = .eos :: rest ∧
      t = { s with
        inq := rest, len := s.idx, crcr := crcFinal s.acc, cv := true, err := 0#4, phase := .idle }) := by
  rcases consume_cases h with ⟨hq, h⟩ | ⟨b, rest, hq, h⟩ | ⟨rest, hq, h⟩
  · cases h; exact .inl ⟨hq, rfl⟩
  · rw [inPop_cons hq] at h
    simp only [buildByte] at h
    split at h
    · cases h; exact .inr (.inl ⟨b, rest, hq, ‹_›, rfl⟩)
    · split at h
      · cases h
      · rename_i u hw
        obtain ⟨hlt, rfl⟩ := bufWrite_eq_some.1 hw
        cases h
        exact .inr (.inr (.inl ⟨b, rest, hq, ‹_›, hlt, rfl⟩))
  · rw [inPop_cons hq] at h; cases h; exact .inr (.inr (.inr ⟨rest, hq, rfl⟩))

/-- A 4-byte emitting step that answers pushes byte IDX, and moves on or advances. -/
theorem emitFieldByte_cases {v : Word} {p : Phase} {s t : State} (h : emitFieldByte v p s = .next t) :
    s.idx.toNat < 4 ∧
    ∃ o, o = s.outq ++ [.byte (byteK s.idx.toNat v)] ∧
      ((s.idx = 3#32 ∧ t = { s with outq := o, phase := p, idx := 0#32 }) ∨
      (s.idx ≠ 3#32 ∧ t = { s with outq := o, idx := s.idx + 1#32 })) := by
  simp only [emitFieldByte] at h
  split at h
  · refine ⟨‹_›, _, rfl, ?_⟩
    split at h <;> cases h
    · exact .inl ⟨‹_›, rfl⟩
    · exact .inr ⟨‹_›, rfl⟩
  · cases h

/-- A payload emitting step that answers pushes BUF[IDX], and moves on or advances. -/
theorem emitPayloadByte_cases {p : Phase} {s t : State} (h : emitPayloadByte p s = .next t) :
    s.idx.toNat < s.cap.toNat ∧
    ∃ o, o = s.outq ++ [.byte (s.buf.read s.idx.toNat)] ∧
      ((s.idx = s.len - 1#32 ∧ t = { s with outq := o, phase := p, idx := 0#32 }) ∨
      (s.idx ≠ s.len - 1#32 ∧ t = { s with outq := o, idx := s.idx + 1#32 })) := by
  simp only [emitPayloadByte] at h
  split at h
  · cases h
  · rename_i b hb
    obtain ⟨hlt, rfl⟩ := bufRead_eq_some.1 hb
    refine ⟨hlt, _, rfl, ?_⟩
    split at h <;> cases h
    · exact .inl ⟨‹_›, rfl⟩
    · exact .inr ⟨‹_›, rfl⟩

theorem emitClose_next (s : State) :
    emitClose s = .next { s with outq := s.outq ++ [.eos], err := 0#4, phase := .idle } := rfl

/-- What one host action does: a read, a command, a write of TVIN, an ignored write, a push, another
move of tokens in the two streams, a WAIT that ends or gives the engine a step, a reset, or the engine's turn. -/
theorem hostStep_cases {s t : State} {a : HostAct} {rest : List HostAct}
    (h : hostStep a rest s = .next t) :
    (∃ r, a = .rd r ∧ t = { s with script := rest, seen := s.seen ++ [.read r (readReg s r)] }) ∨
    (∃ w, a = .wr .cmd w ∧ writeCmd w { s with script := rest } = .next t) ∨
    (∃ v, a = .wr .tvin v ∧ t = { s with script := rest, tvin := v }) ∨
    (∃ r v, a = .wr r v ∧ r ≠ .cmd ∧ r ≠ .tvin ∧ t = { s with script := rest }) ∨
    (∃ k, a = .push k ∧ t = { s with script := rest, inq := s.inq ++ [k] }) ∨
    (∃ sc i o se, a ∈ [HostAct.pop, .drain, .discard, .flush, .feed] ∧
      t = { s with script := sc, inq := i, outq := o, seen := se }) ∨
    (a = .wait ∧ s.phase = .idle ∧ t = { s with script := rest }) ∨
    (a = .wait ∧ s.phase ≠ .idle ∧ engineStep s = .next t) ∨
    (a = .reset ∧ t = softReset { s with script := rest }) ∨
    (a = .engine ∧ engineStep { s with script := rest } = .next t) := by
  cases a with
  | rd r => cases h; exact .inl ⟨r, rfl, rfl⟩
  | wr r v =>
    by_cases hc : r = .cmd
    · subst hc; exact .inr (.inl ⟨v, rfl, h⟩)
    · by_cases ht : r = .tvin
      · subst ht; cases h; exact .inr (.inr (.inl ⟨v, rfl, rfl⟩))
      · refine .inr (.inr (.inr (.inl ⟨r, v, rfl, hc, ht, ?_⟩)))
        cases r <;> simp_all [hostStep, writeReg]
  | push k => cases h; exact .inr (.inr (.inr (.inr (.inl ⟨k, rfl, rfl⟩))))
  | pop =>
    refine .inr (.inr (.inr (.inr (.inr (.inl ?_)))))
    simp only [hostStep, popOut] at h
    split at h <;> cases h
    · exact ⟨rest, s.inq, s.outq, s.seen, by simp, rfl⟩
    · exact ⟨_, _, _, _, by simp, rfl⟩
  | drain =>
    refine .inr (.inr (.inr (.inr (.inr (.inl ?_)))))
    simp only [hostStep, popOut] at h
    split at h
    · cases h; exact ⟨rest, s.inq, s.outq, s.seen, by simp, rfl⟩
    · split at h <;> cases h
      · exact ⟨s.script, s.inq, s.outq, s.seen, by simp, rfl⟩
      · exact ⟨s.script, s.inq, _, _, by simp, rfl⟩
  | discard =>
    cases h
    exact .inr (.inr (.inr (.inr (.inr (.inl ⟨rest, s.inq.tail, s.outq, s.seen, by simp, rfl⟩)))))
  | flush =>
    cases h
    exact .inr (.inr (.inr (.inr (.inr (.inl ⟨rest, dropSlice s.inq, s.outq, s.seen, by simp, rfl⟩)))))
  | feed =>
    refine .inr (.inr (.inr (.inr (.inr (.inl ?_)))))
    simp only [hostStep, feedBack] at h
    split at h <;> cases h
    · exact ⟨rest, s.inq, s.outq, s.seen, by simp, rfl⟩
    · exact ⟨rest, _, _, _, by simp, rfl⟩
  | wait =>
    simp only [hostStep] at h
    split at h
    · cases h; exact .inr (.inr (.inr (.inr (.inr (.inr (.inl ⟨rfl, ‹_›, rfl⟩))))))
    · exact .inr (.inr (.inr (.inr (.inr (.inr (.inr (.inl ⟨rfl, ‹_›, h⟩)))))))
  | reset => cases h; exact .inr (.inr (.inr (.inr (.inr (.inr (.inr (.inr (.inl ⟨rfl, rfl⟩))))))))
  | engine => exact .inr (.inr (.inr (.inr (.inr (.inr (.inr (.inr (.inr ⟨rfl, h⟩))))))))

/-- No step of the engine writes CAP, TVIN, OVR or the host's fields. -/
theorem engineStep_frame {s t : State} (h : engineStep s = .next t) :
    t.cap = s.cap ∧ t.tvin = s.tvin ∧ t.ovr = s.ovr ∧ t.script = s.script ∧ t.seen = s.seen := by
  cases hp : s.phase
  · rw [engineStep_idle hp] at h; cases h; simp
  · rw [engineStep_pLen hp] at h
    rcases parseLenStep_cases h with ⟨_, rfl⟩ | ⟨b, rest, _, ⟨_, rfl⟩ | ⟨_, rfl⟩⟩ | ⟨rest, _, rfl⟩ <;> simp
  · rw [engineStep_pType hp] at h
    rcases parseTypeStep_cases h with ⟨_, rfl⟩ | ⟨b, rest, _, _, _, _, _, h⟩ | ⟨rest, _, rfl⟩
    · simp
    · rcases h with ⟨_, _, rfl⟩ | ⟨_, _, _, rfl⟩ | ⟨_, _, _, rfl⟩ | ⟨_, _, _, _, rfl⟩ | ⟨_, rfl⟩ <;> simp
    · simp
  · rw [engineStep_pData hp] at h
    rcases parseDataStep_cases h with ⟨_, rfl⟩ | ⟨b, rest, _, _, _, _, _, _, ⟨_, rfl⟩ | ⟨_, rfl⟩⟩ |
      ⟨rest, _, rfl⟩ <;> simp
  · rw [engineStep_pCrc hp] at h
    rcases parseCrcStep_cases h with ⟨_, rfl⟩ | ⟨b, rest, _, _, _, ⟨_, _, rfl⟩ | ⟨_, _, rfl⟩ | ⟨_, rfl⟩⟩ |
      ⟨rest, _, rfl⟩ <;> simp
  · rw [engineStep_bData hp] at h
    rcases buildStep_cases h with ⟨_, rfl⟩ | ⟨b, rest, _, _, rfl⟩ | ⟨b, rest, _, _, _, rfl⟩ |
      ⟨rest, _, rfl⟩ <;> simp
  · rw [engineStep_eLen hp] at h; obtain ⟨_, _, _, ⟨_, rfl⟩ | ⟨_, rfl⟩⟩ := emitFieldByte_cases h <;> simp
  · rw [engineStep_eType hp] at h; obtain ⟨_, _, _, ⟨_, rfl⟩ | ⟨_, rfl⟩⟩ := emitFieldByte_cases h <;> simp
  · rw [engineStep_eData hp] at h; obtain ⟨_, _, _, ⟨_, rfl⟩ | ⟨_, rfl⟩⟩ := emitPayloadByte_cases h <;> simp
  · rw [engineStep_eCrc hp] at h; obtain ⟨_, _, _, ⟨_, rfl⟩ | ⟨_, rfl⟩⟩ := emitFieldByte_cases h <;> simp
  · rw [engineStep_eEos hp, emitEosStep, emitClose_next] at h; cases h; simp
  · rw [engineStep_dData hp] at h; obtain ⟨_, _, _, ⟨_, rfl⟩ | ⟨_, rfl⟩⟩ := emitPayloadByte_cases h <;> simp
  · rw [engineStep_dEos hp, emitdEosStep, emitClose_next] at h; cases h; simp

end Sys2Proof.Machine
end

