-- ==== Sys2Proof/Laws/Operands.lean ====
section
/-! SUPPORT. Big-endian fields: assembly and disassembly are inverse, and shifting a byte in drops the first byte and
adds the new one at the end. -/

namespace Sys2Proof.Machine

open Sys2Proof

@[simp] theorem length_be32 (v : Word) : (be32 v).length = 4 := rfl

/-- Bytes joined by `or` add up. -/
theorem or_byte_eq_add (a b : Nat) (hb : b < 2 ^ 8) : (a * 2 ^ 8 ||| b) = a * 2 ^ 8 + b := by
  rw [← Nat.shiftLeft_eq, Nat.shiftLeft_add_eq_or_of_lt hb]

/-- byte_k as a quotient and a remainder. -/
theorem toNat_byteK (v : Word) (k : Nat) : (byteK k v).toNat = v.toNat / 2 ^ (24 - 8 * k) % 256 := by
  simp [byteK, Nat.shiftRight_eq_div_pow]

/-- from_be32 as the sum of 00_scope.md R16. -/
theorem toNat_fromBe32 (b0 b1 b2 b3 : Byte) :
    (fromBe32 b0 b1 b2 b3).toNat =
      b0.toNat * 2 ^ 24 + b1.toNat * 2 ^ 16 + b2.toNat * 2 ^ 8 + b3.toNat := by
  have := b1.isLt; have := b2.isLt; have := b3.isLt
  simp only [fromBe32, BitVec.toNat_append, Nat.shiftLeft_eq]
  rw [or_byte_eq_add _ _ (by omega), or_byte_eq_add _ _ (by omega), or_byte_eq_add _ _ (by omega)]
  omega

/-- from_be32 of the four bytes of a word is the word. -/
theorem fromBe32_be32 (v : Word) : fromBe32 (byteK 0 v) (byteK 1 v) (byteK 2 v) (byteK 3 v) = v := by
  have := v.isLt
  apply BitVec.eq_of_toNat_eq
  simp only [toNat_fromBe32, toNat_byteK]
  norm_num
  omega

/-- be32 of an assembled word is the four bytes. -/
theorem be32_fromBe32 (b0 b1 b2 b3 : Byte) : be32 (fromBe32 b0 b1 b2 b3) = [b0, b1, b2, b3] := by
  have := b0.isLt; have := b1.isLt; have := b2.isLt; have := b3.isLt
  simp only [be32, List.cons.injEq, and_true]
  refine ⟨?_, ?_, ?_, ?_⟩ <;> apply BitVec.eq_of_toNat_eq <;>
    rw [toNat_byteK, toNat_fromBe32] <;> norm_num <;> omega

/-- be32 loses nothing. -/
theorem be32_injective {v w : Word} (h : be32 v = be32 w) : v = w := by
  simp only [be32, List.cons.injEq, and_true] at h
  rw [← fromBe32_be32 v, ← fromBe32_be32 w, h.1, h.2.1, h.2.2.1, h.2.2.2]

/-- Shifting a byte in multiplies by 256 and adds, cut to 32 bits. -/
theorem toNat_shiftIn (v : Word) (b : Byte) :
    (shiftIn v b).toNat = (v.toNat * 256 + b.toNat) % 2 ^ 32 := by
  have := b.isLt
  simp only [shiftIn, BitVec.toNat_add, BitVec.toNat_shiftLeft, BitVec.toNat_setWidth,
    Nat.shiftLeft_eq]
  omega

/-- Shifting a byte in drops the first byte and adds the new one at the end. -/
theorem be32_shiftIn (v : Word) (b : Byte) : be32 (shiftIn v b) = (be32 v).drop 1 ++ [b] := by
  have := b.isLt; have := v.isLt
  simp only [be32, List.drop_succ_cons, List.drop_zero, List.cons_append, List.nil_append,
    List.cons.injEq, and_true]
  refine ⟨?_, ?_, ?_, ?_⟩ <;> apply BitVec.eq_of_toNat_eq <;>
    simp only [toNat_byteK, toNat_shiftIn] <;> norm_num <;> omega

/-- Four bytes shifted in are the field they assemble, whatever was there before. -/
theorem shiftIn_four (v : Word) (b0 b1 b2 b3 : Byte) :
    shiftIn (shiftIn (shiftIn (shiftIn v b0) b1) b2) b3 = fromBe32 b0 b1 b2 b3 := by
  have := b0.isLt; have := b1.isLt; have := b2.isLt; have := b3.isLt
  apply BitVec.eq_of_toNat_eq
  simp only [toNat_shiftIn, toNat_fromBe32]
  omega

@[simp] theorem Reg.ofIndex_index (r : Reg) : Reg.ofIndex r.index = r := by cases r <;> rfl

end Sys2Proof.Machine
end

