-- ==== Sys2Proof/Laws/Flags.lean ====
section
/-! SUPPORT. The alphabetic test against the numbers of 41_type_validator.md R140. -/

namespace Sys2Proof.Machine

open Sys2Proof

theorem isAlpha_iff (b : Byte) :
    isAlpha b = true ↔
      (0x41 ≤ b.toNat ∧ b.toNat ≤ 0x5A) ∨ (0x61 ≤ b.toNat ∧ b.toNat ≤ 0x7A) := by simp [isAlpha]

/-- alpha4 is true exactly when each of the four bytes lies in one of the two ranges. -/
theorem alpha4_iff_fourLetters (v : Word) : alpha4 v = true ↔ fourLetters v := by
  simp only [alpha4, Bool.and_eq_true, isAlpha_iff, toNat_byteK]
  constructor
  · rintro ⟨⟨⟨h0, h1⟩, h2⟩, h3⟩ k hk
    match k, hk with
    | 0, _ => exact h3
    | 1, _ => exact h2
    | 2, _ => exact h1
    | 3, _ => exact h0
  · intro h
    exact ⟨⟨⟨h 3 (by omega), h 2 (by omega)⟩, h 1 (by omega)⟩, h 0 (by omega)⟩

end Sys2Proof.Machine
end

