-- ==== Sys2Proof/Laws/PerInstr.lean ====
section
/-! SUPPORT. Statements made per instruction, one lemma for each constructor of Instr. -/

namespace Sys2Proof.Laws.EncodesLegalWord

open Sys2Proof

/-- The command is well formed and its word is one of the legal command words. -/
def Statement (i : Instr) : Prop := i.wellFormed = true ∧ wellFormedWord (encode i) = true

theorem nop : Statement .nop := by unfold Statement; decide
theorem tchk : Statement .tchk := by unfold Statement; decide
theorem build : Statement .build := by unfold Statement; decide
theorem parse : Statement .parse := by unfold Statement; decide
theorem emit : Statement .emit := by unfold Statement; decide
theorem emitd : Statement .emitd := by unfold Statement; decide
theorem srst : Statement .srst := by unfold Statement; decide

end Sys2Proof.Laws.EncodesLegalWord
end

