-- ==== Sys2Proof/Laws/Text.lean ====
section
/-! SUPPORT. What the text functions can do: the encoding of a character read back, the lossy conversion on the
encoding of a text, and the string of a chunk type parsed again. -/

namespace Sys2Proof.Machine

open Sys2Proof

theorem char_ofNat_toNat (c : Char) : Char.ofNat c.toNat = c := Char.ofNat_toNat c

/-- The number of a character is below 0x110000. -/
theorem char_toNat_lt (c : Char) : c.toNat < 0x110000 := by
  have h := c.valid
  simp only [UInt32.isValidChar, Nat.isValidChar] at h
  change c.val.toNat < _
  omega

@[simp] theorem utf8Encode_nil : utf8Encode [] = [] := rfl
@[simp] theorem utf8Encode_cons (c : Char) (text : List Char) :
    utf8Encode (c :: text) = utf8Char c ++ utf8Encode text := rfl

theorem utf8Char_length (c : Char) : 1 ≤ (utf8Char c).length ∧ (utf8Char c).length ≤ 4 := by
  unfold utf8Char; split <;> [skip; (split <;> [skip; split])] <;> simp

/-- The number of a byte made from a number below 256. -/
theorem byte_toNat (n : Nat) (h : n < 256) : (BitVec.ofNat 8 n).toNat = n := by simp; omega

/-- The character at the head of an encoding is the one encoded. -/
theorem charAt_utf8Char (c : Char) (d : List Byte) : charAt (utf8Char c ++ d) = c := by
  have hc := char_toNat_lt c
  have key : ∀ n : Nat, n = c.toNat → Char.ofNat n = c := fun n h => h ▸ Char.ofNat_toNat c
  have hb : ∀ n : Nat, n < 256 → (BitVec.ofNat 8 n).toNat = n := byte_toNat
  unfold utf8Char utf8Tail
  split
  · simp only [charAt, List.cons_append, List.getD_cons_zero]
    rw [hb _ (by omega), if_pos (by omega)]
    exact key _ rfl
  split
  · simp only [charAt, List.cons_append, List.getD_cons_zero, List.getD_cons_succ]
    rw [hb _ (by omega), hb _ (by omega), if_neg (by omega), if_pos (by omega)]
    exact key _ (by omega)
  split
  · simp only [charAt, List.cons_append, List.getD_cons_zero, List.getD_cons_succ]
    rw [hb _ (by omega), hb _ (by omega), hb _ (by omega), if_neg (by omega), if_neg (by omega),
      if_pos (by omega)]
    exact key _ (by omega)
  · simp only [charAt, List.cons_append, List.getD_cons_zero, List.getD_cons_succ]
    rw [hb _ (by omega), hb _ (by omega), hb _ (by omega), hb _ (by omega), if_neg (by omega),
      if_neg (by omega), if_neg (by omega)]
    exact key _ (by omega)

/-- A character of a text is read at the head of its encoding, whatever follows. -/
theorem nextChar_utf8Char (r : TextRules) (hr : r.acceptsText) (c : Char) (d : List Byte) :
    r.nextChar (utf8Char c ++ d) = some c := by
  have h := hr [c]
  simp only [utf8Encode_cons, utf8Encode_nil, List.append_nil] at h
  simp [TextRules.nextChar, charAt_utf8Char, h]

theorem lossyLoop_utf8Encode (r : TextRules) (hr : r.acceptsText) (text : List Char) (fuel : Nat)
    (h : (utf8Encode text).length ≤ fuel) : lossyLoop r fuel [] (utf8Encode text) = text := by
  induction text generalizing fuel with
  | nil => cases fuel <;> simp [lossyLoop, TextRules.replacement]
  | cons c text ih =>
    have hl := (utf8Char_length c).1
    have hn := nextChar_utf8Char r hr c (utf8Encode text)
    simp only [utf8Encode_cons, List.length_append] at h ⊢
    obtain ⟨b, d, hd⟩ := List.exists_cons_of_ne_nil (l := utf8Char c ++ utf8Encode text)
      (fun h0 => by simp [List.append_eq_nil_iff] at h0; simp [h0.1] at hl)
    obtain ⟨f, rfl⟩ : ∃ f, fuel = f + 1 := ⟨fuel - 1, by omega⟩
    rw [hd] at hn ⊢
    simp only [lossyLoop, hn, TextRules.replacement, if_true, List.nil_append]
    rw [← hd, List.drop_left, ih f (by omega)]

/-- The lossy conversion gives back the text a payload encodes. -/
theorem textLossy_utf8Encode (r : TextRules) (hr : r.acceptsText) (text : List Char) :
    textLossy r (utf8Encode text) = text := lossyLoop_utf8Encode r hr text _ (Nat.le_refl _)

/-- The strict accessor gives the text a payload encodes. -/
theorem textStrict_utf8Encode (r : TextRules) (hr : r.acceptsText) (text : List Char) :
    textStrict r (utf8Encode text) = .ok text := by
  simp [textStrict, hr text, textLossy_utf8Encode r hr]

/-- What parseStr can do: exactly four characters below 0x80, packed, if they are letters. -/
theorem parseStr_ok (s : List Char) (t : Word) (h : parseStr s = .ok t) :
    alpha4 t = true ∧ ∃ a b c d : Char, s = [a, b, c, d] ∧
      t = fromBe32 (BitVec.ofNat 8 a.toNat) (BitVec.ofNat 8 b.toNat) (BitVec.ofNat 8 c.toNat)
        (BitVec.ofNat 8 d.toNat) := by
  unfold parseStr at h
  split at h
  · rename_i a b c d
    split at h
    · rename_i hs
      simp only [Bool.and_eq_true] at hs
      cases h
      exact ⟨hs.2, a, b, c, d, rfl, rfl⟩
    · cases h
  · cases h

/-- The string of a chunk type, parsed, is the type. -/
theorem parseStr_typeString (v : Word) (h : alpha4 v = true) : parseStr (typeString v) = .ok v := by
  have hv : ∀ b : Byte, isAlpha b = true → (Char.ofNat b.toNat).toNat = b.toNat ∧ b.toNat < 0x80 := by
    decide
  have hw := h
  simp only [alpha4, Bool.and_eq_true] at h
  obtain ⟨⟨⟨h0, h1⟩, h2⟩, h3⟩ := h
  simp only [parseStr, typeString, be32, List.map_cons, List.map_nil, List.all_cons, List.all_nil,
    (hv _ h0).1, (hv _ h1).1, (hv _ h2).1, (hv _ h3).1, (hv _ h0).2, (hv _ h1).2, (hv _ h2).2,
    (hv _ h3).2, BitVec.ofNat_toNat, BitVec.setWidth_eq, fromBe32_be32]
  simp [hw]

end Sys2Proof.Machine
end

