-- ==== Sys2Proof/Tests/Slice0.lean ====
section
/-! SUPPORT. The model's own tests, each with its source in 95_test_vectors.md or the rule it checks, and a witness
for the hypotheses of every obligation that has some. -/

namespace Sys2Proof.Tests

open Sys2Proof Sys2Proof.Machine

/-! ## Well-formedness and decoding -/

theorem test_word_seven_ill_formed : wellFormedWord 0x00000007#32 = false := by decide
theorem test_word_all_ones_ill_formed : wellFormedWord 0xFFFFFFFF#32 = false := by decide
theorem test_word_high_bit_ill_formed : wellFormedWord 0x80000003#32 = false := by decide
theorem test_word_low_byte_legal_ill_formed : wellFormedWord 0x00000103#32 = false := by decide
theorem test_memory_out_of_order_ill_formed : Memory.wf [(2, 1#8), (1, 1#8)] = false := by decide
theorem test_memory_repeated_ill_formed : Memory.wf [(1, 1#8), (1, 2#8)] = false := by decide
theorem test_memory_unlisted_value_ill_formed : Memory.wf [(1, 0#8)] = false := by decide
theorem test_memory_in_form : Memory.wf [(1, 1#8), (2, 1#8)] = true := by decide

/-- The words of 30_encoding.md R100, bit by bit. -/
theorem test_decode_nop : decode 0b00000000000000000000000000000000#32 = .ok .nop := by decide
theorem test_decode_tchk : decode 0b00000000000000000000000000000001#32 = .ok .tchk := by decide
theorem test_decode_build : decode 0b00000000000000000000000000000010#32 = .ok .build := by decide
theorem test_decode_parse : decode 0b00000000000000000000000000000011#32 = .ok .parse := by decide
theorem test_decode_emit : decode 0b00000000000000000000000000000100#32 = .ok .emit := by decide
theorem test_decode_emitd : decode 0b00000000000000000000000000000101#32 = .ok .emitd := by decide
theorem test_decode_srst : decode 0b00000000000000000000000000000110#32 = .ok .srst := by decide
theorem test_decode_illegal :
    decode 0x00000103#32 = .error (.illegalCommand 0x00000103#32) := by decide
theorem test_decodeTableWord : decodeTableWord 32 6 = some .srst := by decide

/-! ## The CRC unit (95 section 2) -/

/-- K2, K5 and K7. -/
theorem test_crcUpdate :
    crcUpdate 0x00000000#32 0x01#8 = 0x77073096#32 ∧ crcUpdate 0xFFFFFFFF#32 0x00#8 = 0x2DFD1072#32 ∧
      crcUpdate 0xFFFFFFFF#32 0x61#8 = 0x174841BC#32 := by decide

/-- K8, K9 and K14. -/
theorem test_crc32 :
    crc32 [] = 0x00000000#32 ∧ crc32 [0x61#8] = 0xE8B7BE43#32 ∧
      crc32 [0#8, 0#8, 0#8, 0#8] = 0x2144DF1C#32 := by decide +kernel

/-- K23, "RuSthello". -/
theorem test_crc32_hello :
    crc32 [0x52#8, 0x75#8, 0x53#8, 0x74#8, 0x68#8, 0x65#8, 0x6C#8, 0x6C#8, 0x6F#8] = 0x2CA10FCC#32 := by
  decide +kernel

/-! ## The type validator (95 section 3) -/

/-- T1, T3, T12 and T21. -/
theorem test_tvFlags :
    tvFlags 0x52755374#32 = 0x3B#32 ∧ tvFlags 0x52757374#32 = 0x13#32 ∧
      tvFlags 0x52753174#32 = 0x12#32 ∧ tvFlags 0xD2755374#32 = 0x1A#32 := by decide

/-- T14 to T17: the four byte values next to the letter ranges. -/
theorem test_isAlpha_edges :
    isAlpha 0x40#8 = false ∧ isAlpha 0x5B#8 = false ∧ isAlpha 0x60#8 = false ∧ isAlpha 0x7B#8 = false ∧
      isAlpha 0x41#8 = true ∧ isAlpha 0x5A#8 = true ∧ isAlpha 0x61#8 = true ∧ isAlpha 0x7A#8 = true := by
  decide

/-! ## Small states -/

/-- The engine after reset with PAYLOAD_CAP = 4. -/
def s0 : State := { State.reset with cap := 4#32 }

/-- Idle with the record of 95 B10 held: type "IEND", no payload. -/
def sIend : State := { s0 with cv := true, typ := 0x49454E44#32, crcr := 0xAE426082#32 }

/-- Idle with a one-byte record held: type "RuSt", payload 68. -/
def sOne : State :=
  { s0 with
    cv := true, typ := 0x52755374#32, len := 1#32, buf := [(0, 0x68#8)],
    crcr := crc32 [0x52#8, 0x75#8, 0x53#8, 0x74#8, 0x68#8] }

/-- Idle with a two-byte record held: type "RuSt", payload "hi" (95 P7). -/
def sHi : State :=
  { s0 with
    cv := true, typ := 0x52755374#32, len := 2#32, buf := [(0, 0x68#8), (1, 0x69#8)],
    crcr := 0xD2BC3F73#32 }

/-- Waiting in P_LEN. -/
def sLen : State := { s0 with phase := .pLen }

/-- In B_DATA with the type "RuSt" accepted. -/
def sBuild : State :=
  { s0 with
    tvin := 0x52755374#32, typ := 0x52755374#32, phase := .bData,
    acc := crcFold crcInit (be32 0x52755374#32) }

/-- The wire form of 95 IENDC. -/
def iendc : List Byte :=
  [0x00#8, 0x00#8, 0x00#8, 0x00#8, 0x49#8, 0x45#8, 0x4E#8, 0x44#8, 0xAE#8, 0x42#8, 0x60#8, 0x82#8]

/-- The chunk of 95 IENDC. -/
def iendChunk : Chunk := ⟨0#32, 0x49454E44#32, [], 0xAE426082#32⟩

/-- The result is a next state equal to t. -/
def answers (r : Result) (t : State) : Bool :=
  match r with
  | .next u => decide (u = t)
  | _ => false

/-! ## One step each -/

/-- X4. -/
theorem test_nop_clears_err : answers (exec .nop { s0 with err := 1#4 }) s0 = true := by decide

/-- T12. -/
theorem test_tchk_digit :
    answers (exec .tchk { s0 with tvin := 0x52753174#32 })
      { s0 with tvin := 0x52753174#32, err := 1#4 } = true := by decide

/-- X6: a refused BUILD loses the record. -/
theorem test_build_refused :
    answers (exec .build { sIend with tvin := 0x52753174#32 })
      { sIend with tvin := 0x52753174#32, cv := false, err := 1#4 } = true := by decide

/-- K19 with 95 section 2: ACC after BUILD of "RuSt" is accepted. -/
theorem test_build_acc :
    answers (exec .build { s0 with tvin := 0x52755374#32 })
      { s0 with
        tvin := 0x52755374#32, typ := 0x52755374#32, acc := 0x2B7BF6C3#32, phase := .bData } = true := by
  decide +kernel

/-- X10: PARSE drops the record at acceptance. -/
theorem test_parse_drops_record :
    answers (exec .parse sIend) { sIend with cv := false, phase := .pLen } = true := by decide

/-- E5: NoChunk. -/
theorem test_emit_noChunk : answers (exec .emit s0) { s0 with err := 8#4 } = true := by decide

/-- E4: EMITD of an empty payload goes to D_EOS. -/
theorem test_emitd_empty : answers (exec .emitd sIend) { sIend with phase := .dEos } = true := by
  decide

/-- X9: SRST while busy. -/
theorem test_srst_busy : answers (exec .srst { sIend with phase := .eType, idx := 2#32 }) s0 = true := by
  decide

/-- X5: an illegal word. -/
theorem test_illegal_word :
    answers (step { s0 with script := [.wr .cmd 0x00000103#32] }) { s0 with err := 10#4 } = true := by
  decide

/-- X7: a command while busy. -/
theorem test_overrun :
    answers (step { sLen with script := [.wr .cmd 0x00000004#32] }) { sLen with ovr := true } = true := by
  decide

/-- F14: the eighth byte of a bad type ends the PARSE. -/
theorem test_parse_bad_type :
    answers (step { s0 with phase := .pType, idx := 3#32, typ := 0x00527531#32, inq := [.byte 0x74#8] })
      { s0 with
        idx := 3#32, typ := 0x52753174#32, acc := crcUpdate 0xFFFFFFFF#32 0x74#8, err := 1#4 } = true := by
  decide

/-- B6: the byte that finds the buffer full is consumed, the EOS behind it is not. -/
theorem test_build_full :
    answers (step { sBuild with idx := 4#32, inq := [.byte 0x6F#8, .eos] })
      { sBuild with idx := 4#32, inq := [.eos], err := 9#4, phase := .idle } = true := by decide +kernel

/-- R211: IDX = 0 sends the most significant byte. -/
theorem test_emit_first_byte :
    answers (step { sIend with phase := .eType })
      { sIend with phase := .eType, idx := 1#32, outq := [.byte 0x49#8] } = true := by decide

/-- F3: the slice of IENDC, with the function that PARSE computes. -/
theorem test_parseSlice_iendc : parseSlice 4#32 iendc = .ok (iendChunk, 12) := by decide +kernel

/-- F5 and F6h. -/
theorem test_parseSlice_short :
    parseSlice 4#32 [] = .error .truncatedChunk ∧
      parseSlice 4#32 (iendc.take 11) = .error .truncatedChunk := by decide

/-- B7 and B6: exactly PAYLOAD_CAP bytes fit. -/
theorem test_buildChunk_capacity :
    buildTokens 4#32 0x52755374#32 [0x68#8, 0x65#8, 0x6C#8, 0x6C#8] = 5 ∧
      buildChunk 4#32 0x52755374#32 [0x68#8, 0x65#8, 0x6C#8, 0x6C#8, 0x6F#8] = .error .capacity := by
  decide

/-- P5: the signature alone is an empty list, a changed one is BadSignature. -/
theorem test_containerParse_signature :
    containerParse 64#32 8 pngSignature = .ok [] ∧
      containerParse 64#32 8 (0x88#8 :: pngSignature.tail) = .error .badSignature := by decide

/-- 41 R150: the string of 0x49454E44. -/
theorem test_typeString :
    typeString 0x49454E44#32 = ['I', 'E', 'N', 'D'] ∧ parseStr ['R', 'U', '-', 'T'] = .error .invalidChunkType := by
  decide

/-- One character of each length (RFC 3629; log 25). -/
theorem test_utf8Char :
    utf8Char 'h' = [0x68#8] ∧ utf8Char 'é' = [0xC3#8, 0xA9#8] ∧ utf8Char '€' = [0xE2#8, 0x82#8, 0xAC#8] ∧
      utf8Char '𝄞' = [0xF0#8, 0x9D#8, 0x84#8, 0x9E#8] := by decide

/-- Rules for text that take every sequence for valid UTF-8 that encodes something, with '?' for each invalid one. -/
def anyText : TextRules := ⟨fun _ => true, '?', fun _ => 1⟩

/-- 46 R267: an invalid sequence between valid ones, and at the end. -/
theorem test_textLossy :
    textLossy anyText [0x68#8, 0xFF#8, 0x80#8, 0xC3#8, 0xA9#8, 0xE2#8, 0x82#8] = ['h', '?', 'é', '?'] := by
  decide

/-- 95 P7: a run that lost a command has not gone well, though an SRST cleared OVR at its end; without the
lost command it has. -/
theorem test_wentWell :
    wentWell [] 2 { sLen with script := [cmdAct .nop, cmdAct .srst] } = false ∧
      wentWell [0] 2 { sLen with script := [cmdAct .srst, .rd .status] } = true := by decide

/-- 70 R331: the host drops the rest of a slice. -/
theorem test_flush :
    answers (step { s0 with script := [.flush], inq := [.byte 1#8, .eos, .byte 2#8] })
      { s0 with inq := [.byte 2#8] } = true := by decide

/-- X1: TVFLAGS after reset. -/
theorem test_reset_tvflags : readReg s0 .tvflags = 0x0000000E#32 := by decide

/-! ## States that meet the invariant, one for each kind of phase -/

theorem inv_idle_no_record : Inv s0 :=
  ⟨by decide, by decide, by decide, by decide, by simp only [s0, State.reset, phaseOk]; decide⟩

theorem inv_idle_record : Inv sIend :=
  ⟨by decide, by decide, by decide, by decide,
    by simp only [sIend, s0, State.reset, phaseOk]; decide +kernel⟩

theorem inv_idle_payload : Inv sHi :=
  ⟨by decide, by decide, by decide, by decide,
    by simp only [sHi, s0, State.reset, phaseOk]; decide +kernel⟩

theorem inv_pLen : Inv { sLen with inq := [.byte 0#8, .eos] } :=
  ⟨by decide, by decide, by decide, by decide,
    by simp only [sLen, s0, State.reset, phaseOk]; decide⟩

theorem inv_bData : Inv { sBuild with inq := [.byte 0x68#8, .eos] } :=
  ⟨by decide, by decide, by decide, by decide,
    by simp only [sBuild, s0, State.reset, phaseOk]; decide +kernel⟩

theorem inv_eData : Inv { sHi with phase := .eData, idx := 1#32 } :=
  ⟨by decide, by decide, by decide, by decide,
    by simp only [sHi, s0, State.reset, phaseOk]; decide +kernel⟩

theorem inv_eEos : Inv { sHi with phase := .eEos } :=
  ⟨by decide, by decide, by decide, by decide,
    by simp only [sHi, s0, State.reset, phaseOk]; decide +kernel⟩

/-- P_DATA with one of two payload bytes done. -/
theorem inv_pData :
    Inv { s0 with
      phase := .pData, idx := 1#32, len := 2#32, typ := 0x52755374#32, buf := [(0, 0x68#8)],
      acc := crcFold crcInit [0x52#8, 0x75#8, 0x53#8, 0x74#8, 0x68#8] } :=
  ⟨by decide, by decide, by decide, by decide,
    by simp only [s0, State.reset, phaseOk]; decide +kernel⟩

/-! ## Witnesses: a concrete state and operands that meet the hypotheses of each obligation -/

/-- The next host action writes the word w to CMD, in a state that is idle or busy as asked. -/
def writing (w : Word) (p : Phase) : State := { s0 with phase := p, script := [.wr .cmd w] }

theorem witness_StepRunsTheDecodedCommand :
    ((writing 0x00000003#32 .idle).script = [.wr .cmd 0x00000003#32] ∧
      decode 0x00000003#32 = .ok .parse) ∧
    (decodeTableWord 32 0 = some .nop ∧ decodeTableWord 32 6 = some .srst) ∧ s0.script = [] := by decide

theorem witness_CmdWriteTestsInOrder :
    (writing 0x00000006#32 .pLen).script = [.wr .cmd 0x00000006#32] ∧
    (0x00000005#32 : Word) ≠ 0x00000006#32 ∧ (writing 0x00000005#32 .dEos).phase ≠ .idle ∧
    (writing 0x00000000#32 .idle).phase = .idle ∧ 6 < (0x00000007#32 : Word).toNat := by decide

theorem witness_IllegalCommandWord :
    6 < (0x00000007#32 : Word).toNat ∧ 6 < (0xFFFFFFFF#32 : Word).toNat ∧
    (writing 0x00000007#32 .idle).script = [.wr .cmd 0x00000007#32] ∧
    (writing 0x00000007#32 .idle).phase = .idle ∧ (writing 0xFFFFFFFF#32 .pLen).phase ≠ .idle := by decide

theorem witness_CommandWhileBusyIsDiscarded :
    (Instr.emit ≠ .srst ∧ sLen.phase ≠ .idle) ∧
    ((writing 0x00000004#32 .pLen).script = [.wr .cmd 0x00000004#32] ∧
      (writing 0x00000004#32 .pLen).phase ≠ .idle) ∧
    (∃ t, step { sLen with ovr := true } = .next t) ∧
    (∃ t, engineStep { sLen with inq := [.byte 5#8] } = .next t) := ⟨by decide, by decide, ⟨_, rfl⟩, ⟨_, rfl⟩⟩

theorem witness_NopClearsErrAlone : s0.phase = .idle ∧ sLen.phase ≠ .idle := by decide

theorem witness_TchkReportsTheAlphabeticTest :
    s0.phase = .idle ∧ fourLetters 0x52755374#32 ∧ ¬ fourLetters s0.tvin ∧ sLen.phase ≠ .idle :=
  ⟨by decide, (alpha4_iff_fourLetters _).1 (by decide), fun h => by
    have := (alpha4_iff_fourLetters _).2 h; revert this; decide, by decide⟩

theorem witness_BuildAcceptance :
    (({ s0 with tvin := 0x52755374#32 } : State).phase = .idle ∧
      alpha4 ({ s0 with tvin := 0x52755374#32 } : State).tvin = true) ∧
    (s0.phase = .idle ∧ alpha4 s0.tvin = false) ∧ sLen.phase ≠ .idle ∧
    (sBuild.phase = .bData ∧ ∃ t, engineStep sBuild = .next t) :=
  ⟨by decide, by decide, by decide, rfl, ⟨_, rfl⟩⟩

theorem witness_ParseAcceptance : s0.phase = .idle ∧ sLen.phase ≠ .idle := by decide

theorem witness_EmitAcceptance :
    (sIend.phase = .idle ∧ sIend.cv = true) ∧ (s0.phase = .idle ∧ s0.cv = false) ∧ sLen.phase ≠ .idle := by
  decide

theorem witness_EmitdAcceptance :
    (sOne.phase = .idle ∧ sOne.cv = true ∧ sOne.len ≠ 0#32) ∧
    (sIend.phase = .idle ∧ sIend.cv = true ∧ sIend.len = 0#32) ∧ (s0.phase = .idle ∧ s0.cv = false) ∧
    sLen.phase ≠ .idle := by decide

theorem witness_SrstGivesEveryItemItsResetValue : sLen.phase ≠ .idle ∧ Instr.nop ≠ .srst := by decide

theorem witness_SrstLeavesBufAsItWas : ∃ t, exec .srst sHi = .next t := ⟨_, rfl⟩

theorem witness_HardwareResetEqualsSrst : ({ sHi with script := [.reset] } : State).script = [.reset] := rfl

theorem witness_CommandFrame :
    (∃ t, exec .nop s0 = .next t) ∧ (∃ t, exec .tchk s0 = .next t) ∧ (∃ t, exec .build s0 = .next t) ∧
    (∃ t, exec .parse s0 = .next t) ∧ (∃ t, exec .emit sHi = .next t) ∧ (∃ t, exec .emitd sHi = .next t) ∧
    (∃ t, exec .srst sLen = .next t) ∧
    (∃ t, exec .nop { sLen with ovr := true } = .next t) :=
  ⟨⟨_, rfl⟩, ⟨_, rfl⟩, ⟨_, rfl⟩, ⟨_, rfl⟩, ⟨_, rfl⟩, ⟨_, rfl⟩, ⟨_, rfl⟩, ⟨_, rfl⟩⟩

theorem witness_RegisterReads :
    ({ sHi with script := [.rd .cmd] } : State).script = [.rd (Reg.ofIndex 0#3)] ∧
    ({ sHi with script := [.rd .cap] } : State).script = [.rd (Reg.ofIndex 7#3)] := ⟨rfl, rfl⟩

theorem witness_RegisterWrites :
    ({ sHi with script := [.wr .tvin 5#32] } : State).script = [.wr (Reg.ofIndex 2#3) 5#32] ∧
    ({ sHi with script := [.wr .cmd 5#32] } : State).script = [.wr (Reg.ofIndex 0#3) 5#32] ∧
    ({ sHi with script := [.wr .cap 5#32] } : State).script = [.wr (Reg.ofIndex 7#3) 5#32] ∧
    (7#3 : BitVec 3) ≠ 0#3 ∧ (7#3 : BitVec 3) ≠ 2#3 := by decide

theorem witness_StatusBits_TvflagsBits_CapIsConstant :
    ({ sHi with script := [.rd .status] } : State).script = [.rd .status] ∧
    ({ sHi with script := [.wr .status 1#32] } : State).script = [.wr .status 1#32] ∧
    ({ sHi with script := [.wr .tvflags 1#32] } : State).script = [.wr .tvflags 1#32] ∧
    ({ sHi with script := [.wr .cap 1#32] } : State).script = [.wr .cap 1#32] ∧
    (∃ t, step { sHi with script := [.wr .cap 1#32] } = .next t) := ⟨rfl, rfl, rfl, rfl, ⟨_, rfl⟩⟩

theorem witness_RecordRegistersAreGatedByCv :
    sHi.cv = true ∧ s0.cv = false ∧ (Reg.clen = .clen ∨ Reg.clen = .ctype ∨ Reg.clen = .ccrc) ∧
    ({ sHi with script := [.wr .clen 5#32] } : State).script = [.wr .clen 5#32] := by decide

theorem witness_ValidDependsOnTheThirdLetterAlone :
    alpha4 0x52755374#32 = true ∧ alpha4 0x41414141#32 = true ∧ alpha4 0x7A7A7A7A#32 = true := by decide

theorem witness_OneChangedByteChangesTheChecksum : (0x00#8 : Byte) ≠ 0xFF#8 := by decide

/-- IENDC at the first and last type byte and CRC byte, and a slice with a payload byte at index 8. -/
theorem witness_SingleBitCorruptionIsDetected :
    (parseSlice 4#32 iendc = .ok (iendChunk, 12) ∧ 4 ≤ 4 ∧ 7 < 8 ∧ 8 ≤ 11 ∧ 11 < 12) ∧
    (∃ c, parseSlice 4#32
      ([0#8, 0#8, 0#8, 1#8, 0x52#8, 0x75#8, 0x53#8, 0x74#8, 0x68#8] ++ be32 sOne.crcr) = .ok (c, 13)) :=
  ⟨by decide +kernel, ⟨⟨1#32, 0x52755374#32, [0x68#8], sOne.crcr⟩, by decide +kernel⟩⟩

theorem witness_LengthFieldStep :
    (sLen.script = [] ∧ sLen.phase = .pLen) ∧
    (∃ s : State, s.script = [] ∧ s.phase = .pLen ∧ s.inq = [.byte 5#8] ∧ s.idx = 3#32) ∧
    (∃ s : State, s.script = [] ∧ s.phase = .pLen ∧ s.inq = [.byte 5#8] ∧ s.idx ≠ 3#32) ∧
    (∃ s : State, s.script = [] ∧ s.phase = .pLen ∧ s.inq = [.eos]) :=
  ⟨by decide,
    ⟨{ sLen with inq := [.byte 5#8], idx := 3#32 }, by decide⟩,
    ⟨{ sLen with inq := [.byte 5#8], idx := 2#32 }, by decide⟩,
    ⟨{ sLen with inq := [.eos] }, by decide⟩⟩

/-- P_TYPE with "RuS" shifted in and the given fourth byte, length and index. -/
def sType (b : Byte) (len idx : Word) : State :=
  { s0 with phase := .pType, typ := 0x00527553#32, len := len, idx := idx, inq := [.byte b] }

theorem witness_TypeFieldStep :
    ((sType 0x74#8 0#32 2#32).script = [] ∧ (sType 0x74#8 0#32 2#32).phase = .pType ∧
      (sType 0x74#8 0#32 2#32).inq = [.byte 0x74#8] ∧ (sType 0x74#8 0#32 2#32).idx ≠ 3#32) ∧
    ((sType 0x31#8 0#32 3#32).idx = 3#32 ∧ alpha4 ((0x00527553#32 <<< 8) + (0x31#8).setWidth 32) = false) ∧
    (alpha4 ((0x00527553#32 <<< 8) + (0x74#8).setWidth 32) = true ∧
      (sType 0x74#8 5#32 3#32).cap.toNat < (sType 0x74#8 5#32 3#32).len.toNat) ∧
    (sType 0x74#8 0#32 3#32).len = 0#32 ∧
    ((sType 0x74#8 4#32 3#32).len.toNat ≤ (sType 0x74#8 4#32 3#32).cap.toNat ∧
      (sType 0x74#8 4#32 3#32).len ≠ 0#32) ∧
    ({ sType 0x74#8 0#32 0#32 with inq := [.eos] } : State).inq = [.eos] := by decide

/-- P_DATA at the given index, with LEN = PAYLOAD_CAP = 4. -/
def sData (idx : Word) (q : List Token) : State :=
  { s0 with phase := .pData, len := 4#32, idx := idx, inq := q }

theorem witness_PayloadStepStoresOneByte :
    ((sData 3#32 [.byte 1#8]).script = [] ∧ (sData 3#32 [.byte 1#8]).phase = .pData ∧
      (sData 3#32 [.byte 1#8]).buf.wf = true ∧
      (sData 3#32 [.byte 1#8]).idx.toNat < (sData 3#32 [.byte 1#8]).len.toNat ∧
      (sData 3#32 [.byte 1#8]).len.toNat ≤ (sData 3#32 [.byte 1#8]).cap.toNat ∧
      (sData 3#32 [.byte 1#8]).idx = (sData 3#32 [.byte 1#8]).len - 1#32) ∧
    ((sData 2#32 [.byte 1#8]).idx ≠ (sData 2#32 [.byte 1#8]).len - 1#32) ∧
    (sData 0#32 [.eos]).inq = [.eos] ∧
    (∃ t, step (sType 0x74#8 4#32 3#32) = .next t ∧ (sType 0x74#8 4#32 3#32).phase ≠ .pData ∧
      t.phase = .pData) :=
  ⟨by decide, by decide, by decide, ⟨_, rfl, by decide, by decide⟩⟩

/-- P_CRC with three bytes of IENDC's checksum shifted in, and the given fourth. -/
def sCrc (b : Byte) (idx : Word) : State :=
  { s0 with
    phase := .pCrc, typ := 0x49454E44#32, acc := 0x51BD9F7D#32, scrc := 0x00AE4260#32, idx := idx,
    inq := [.byte b] }

theorem witness_StoredCrcStep :
    ((sCrc 0x82#8 3#32).script = [] ∧ (sCrc 0x82#8 3#32).phase = .pCrc ∧
      (sCrc 0x82#8 3#32).inq = [.byte 0x82#8] ∧ (sCrc 0x82#8 3#32).idx = 3#32 ∧
      (0x00AE4260#32 <<< 8) + (0x82#8).setWidth 32 = crcFinal 0x51BD9F7D#32) ∧
    (0x00AE4260#32 <<< 8) + (0x83#8).setWidth 32 ≠ crcFinal 0x51BD9F7D#32 ∧
    (sCrc 0x82#8 2#32).idx ≠ 3#32 ∧ ({ sCrc 0#8 0#32 with inq := [.eos] } : State).inq = [.eos] := by decide

theorem witness_BuildStepStoresOneByteOrCompletes :
    (sBuild.script = [] ∧ sBuild.phase = .bData ∧ sBuild.buf.wf = true ∧
      sBuild.idx.toNat ≤ sBuild.cap.toNat) ∧
    (({ sBuild with idx := 4#32, inq := [.byte 1#8] } : State).idx = sBuild.cap ∧
      ({ sBuild with idx := 4#32, inq := [.byte 1#8] } : State).inq = [.byte 1#8]) ∧
    (({ sBuild with idx := 3#32, inq := [.byte 1#8] } : State).idx ≠ sBuild.cap) ∧
    ({ sBuild with inq := [.eos] } : State).inq = [.eos] := by decide

theorem witness_EmitFieldSteps :
    (∃ s : State, s.script = [] ∧ s.idx.toNat < 4 ∧ s.phase = .eLen ∧ s.idx = 3#32) ∧
    (∃ s : State, s.script = [] ∧ s.idx.toNat < 4 ∧ s.phase = .eLen ∧ s.idx = 0#32) ∧
    (∃ s : State, s.script = [] ∧ s.idx.toNat < 4 ∧ s.phase = .eType ∧ s.idx = 3#32 ∧ s.len = 0#32) ∧
    (∃ s : State, s.script = [] ∧ s.idx.toNat < 4 ∧ s.phase = .eType ∧ s.idx = 3#32 ∧ s.len ≠ 0#32) ∧
    (∃ s : State, s.script = [] ∧ s.idx.toNat < 4 ∧ s.phase = .eCrc ∧ s.idx = 2#32) :=
  ⟨⟨{ sHi with phase := .eLen, idx := 3#32 }, by decide⟩, ⟨{ sHi with phase := .eLen }, by decide⟩,
    ⟨{ sIend with phase := .eType, idx := 3#32 }, by decide⟩,
    ⟨{ sHi with phase := .eType, idx := 3#32 }, by decide⟩,
    ⟨{ sHi with phase := .eCrc, idx := 2#32 }, by decide⟩⟩

theorem witness_EmitPayloadSteps :
    (∃ s : State, s.script = [] ∧ s.phase = .eData ∧ s.idx.toNat < s.len.toNat ∧
      s.len.toNat ≤ s.cap.toNat ∧ s.idx = s.len - 1#32) ∧
    (∃ s : State, s.script = [] ∧ s.phase = .dData ∧ s.idx.toNat < s.len.toNat ∧
      s.len.toNat ≤ s.cap.toNat ∧ s.idx ≠ s.len - 1#32 ∧ s.idx = 0#32) ∧
    (∃ s t : State, step s = .next t ∧ s.phase ≠ .eData ∧ t.phase = .eData) ∧
    (∃ s t : State, step s = .next t ∧ s.phase ≠ .dData ∧ t.phase = .dData) :=
  ⟨⟨{ sHi with phase := .eData, idx := 1#32 }, by decide⟩, ⟨{ sHi with phase := .dData }, by decide⟩,
    ⟨{ sHi with phase := .eType, idx := 3#32 }, _, rfl, by decide, by decide⟩,
    ⟨{ sHi with script := [cmdAct .emitd] }, _, rfl, by decide, by decide⟩⟩

theorem witness_EmitClosesWithEos :
    ({ sHi with phase := .eEos } : State).script = [] ∧ ({ sHi with phase := .dEos } : State).phase = .dEos := by
  decide

theorem witness_WaitingChangesNothing :
    (sLen.script = [] ∧ waitsForToken sLen = true) ∧ (sHi.script = [] ∧ sHi.phase = .idle) := by decide

theorem witness_StreamsMoveOneTokenInTheirPhases_SerializerFrame :
    (∃ t, step { sLen with inq := [.byte 1#8] } = .next t) ∧ sLen.phase ∈ [Phase.pLen] ∧
    ({ sHi with phase := .dEos } : State).script = [] ∧
    (∃ t, step { sHi with phase := .dEos } = .next t) := ⟨⟨_, rfl⟩, by decide, rfl, ⟨_, rfl⟩⟩

/-- A stream to take from, an empty one, a slice on INQ, and INQ with no EOS. -/
theorem witness_HostActsOnItsSideOfTheStreams :
    (∃ s : State, s.script = [.pop] ∧ s.outq = [.byte 1#8, .eos]) ∧
    (∃ s : State, s.script = [.feed] ∧ s.outq = []) ∧
    (∃ s : State, s.script = [.flush] ∧ s.inq = sliceTokens [1#8] ++ [.byte 2#8]) ∧
    (∃ s : State, s.script = [.discard] ∧ s.inq = [.byte 2#8]) ∧
    (∃ s : State, s.script = [.flush] ∧ Token.eos ∉ s.inq) ∧
    (∃ s : State, s.script = [.wait] ∧ s.phase = .idle) ∧ (∃ s : State, s.script = [.wait] ∧ s.phase ≠ .idle) ∧
    (∃ s : State, s.script = [.engine]) ∧ (∃ s : State, s.script = inActs [1#8] ++ eosAct :: []) ∧
    (∃ s : State, s.script = [.drain] ∧ s.outq = [.byte 1#8, .eos]) :=
  ⟨⟨{ s0 with script := [.pop], outq := [.byte 1#8, .eos] }, rfl, rfl⟩, ⟨{ s0 with script := [.feed] }, rfl, rfl⟩,
    ⟨{ s0 with script := [.flush], inq := [.byte 1#8, .eos, .byte 2#8] }, rfl, rfl⟩,
    ⟨{ s0 with script := [.discard], inq := [.byte 2#8] }, rfl, rfl⟩,
    ⟨{ s0 with script := [.flush], inq := [.byte 2#8] }, rfl, by decide⟩,
    ⟨{ s0 with script := [.wait] }, rfl, rfl⟩, ⟨{ sLen with script := [.wait] }, rfl, by decide⟩,
    ⟨{ s0 with script := [.engine] }, rfl⟩, ⟨{ s0 with script := [.push (.byte 1#8), .push .eos] }, rfl⟩,
    ⟨{ s0 with script := [.drain], outq := [.byte 1#8, .eos] }, rfl, rfl⟩⟩

/-- A NOP written in P_LEN after 0 of 2 steps; and a run that has gone well (test_wentWell). -/
theorem witness_ARunThatLosesACommandHasNotGoneWell :
    (∃ t, 0 < 2 ∧ stepMany 0 { sLen with script := [cmdAct .nop, cmdAct .srst] } = .next t ∧
      t.script = .wr .cmd 0x00000000#32 :: [cmdAct .srst] ∧ (0x00000000#32 : Word) ≠ 0x00000006#32 ∧
      t.phase ≠ .idle) ∧
    wentWell [0] 2 { sLen with script := [cmdAct .srst, .rd .status] } = true :=
  ⟨⟨_, by decide, rfl, rfl, by decide, by decide⟩, test_wentWell.2⟩

theorem witness_TvinIsWrittenByHostAndResetOnly : ∃ t, step { sHi with script := [.wr .tvin 1#32] } = .next t :=
  ⟨_, rfl⟩

theorem witness_CvFollowsTheRecord :
    (∃ t, step { sBuild with inq := [.eos] } = .next t ∧ sBuild.cv = false ∧ t.cv = true) ∧
    (∃ t, step { sHi with script := [cmdAct .parse] } = .next t ∧ sHi.cv = true ∧ t.cv = false) ∧
    (∃ t, exec .srst sHi = .next t) ∧
    ({ sHi with script := [.reset] } : State).script = [.reset] ∧
    (∃ t, exec .build sHi = .next t) ∧ (∃ t, exec .emit sHi = .next t) ∧
    (6 < (0x00000007#32 : Word).toNat ∧ ∃ t, step (writing 0x00000007#32 .idle) = .next t) :=
  ⟨⟨_, rfl, rfl, rfl⟩, ⟨_, rfl, rfl, rfl⟩, ⟨_, rfl⟩, rfl, ⟨_, rfl⟩, ⟨_, rfl⟩, by decide, ⟨_, rfl⟩⟩

/-- A step of EMIT on a held record. -/
theorem witness_HeldRecordIsImmutable :
    Inv { sHi with phase := .eData, idx := 1#32 } ∧
    ∃ t, step { sHi with phase := .eData, idx := 1#32 } = .next t ∧ sHi.cv = true ∧ t.cv = true :=
  ⟨inv_eData, _, rfl, rfl, rfl⟩

theorem witness_PushCommutesWithEngineStep :
    waitsForToken { sLen with inq := [.byte 1#8] } = false ∧
    ∃ t, engineStep { sLen with inq := [.byte 1#8] } = .next t := ⟨by decide, _, rfl⟩

theorem witness_EngineStepIgnoresTvinAndHost : ∃ t, engineStep { sBuild with inq := [.eos] } = .next t :=
  ⟨_, rfl⟩

theorem witness_ResetValuesAndReadings :
    (∃ t, exec .srst sHi = .next t) ∧
    (∃ t, step { sHi with script := [.reset] } = .next t) ∧
    ({ sHi with script := [.reset] } : State).script.head? = some .reset := ⟨⟨_, rfl⟩, ⟨_, rfl⟩, rfl⟩

theorem witness_EveryStepKeepsTheInvariant :
    (Inv { sLen with inq := [.byte 0#8, .eos] } ∧
      ∃ t, step { sLen with inq := [.byte 0#8, .eos] } = .next t) ∧
    (Inv { sBuild with inq := [.byte 0x68#8, .eos] } ∧
      ∃ t, step { sBuild with inq := [.byte 0x68#8, .eos] } = .next t) ∧
    (Inv { sHi with phase := .eEos } ∧ ∃ t, step { sHi with phase := .eEos } = .next t) :=
  ⟨⟨inv_pLen, _, rfl⟩, ⟨inv_bData, _, rfl⟩, ⟨inv_eEos, _, rfl⟩⟩

theorem witness_ChunkRecordInvariant_NoStepStops : Inv sHi ∧ sHi.cv = true := ⟨inv_idle_payload, rfl⟩

/-- PARSE on IENDC (success), on a slice cut off in it (an error), and the tokens behind it. -/
theorem witness_ParseComputesTheParseFunction :
    (∃ s : State, s.script = [cmdAct .parse] ∧ s.phase = .idle ∧ s.buf.wf = true ∧
      s.inq = sliceTokens iendc ++ [.byte 1#8]) ∧
    parseSlice 4#32 iendc = .ok (iendChunk, 12) ∧
    parseSlice 4#32 (iendc.take 7) = .error .truncatedChunk :=
  ⟨⟨{ s0 with script := [cmdAct .parse], inq := sliceTokens iendc ++ [.byte 1#8] }, by decide⟩,
    by decide +kernel, by decide +kernel⟩

/-- BUILD of "hi" (success), of five bytes (Capacity) and with no type (InvalidChunkType). -/
theorem witness_BuildComputesTheBuildFunction :
    (∃ s : State, s.script = [cmdAct .build] ∧ s.phase = .idle ∧ s.buf.wf = true ∧
      s.inq = sliceTokens [0x68#8, 0x69#8] ++ []) ∧
    buildChunk 4#32 0x52755374#32 [0x68#8, 0x69#8] =
      .ok ⟨2#32, 0x52755374#32, [0x68#8, 0x69#8], 0xD2BC3F73#32⟩ ∧
    buildChunk 4#32 0#32 [] = .error .invalidChunkType :=
  ⟨⟨{ s0 with script := [cmdAct .build], inq := sliceTokens [0x68#8, 0x69#8] ++ [] }, by decide⟩,
    by decide +kernel, by decide +kernel⟩

theorem witness_EmitComputesTheWireForm :
    sHi.phase = .idle ∧ heldChunk sHi = some ⟨2#32, 0x52755374#32, [0x68#8, 0x69#8], 0xD2BC3F73#32⟩ ∧
    sHi.len.toNat ≤ sHi.cap.toNat ∧
    ({ sHi with script := [cmdAct .emit] } : State).script = [cmdAct .emit] ∧
    ({ sHi with script := [cmdAct .emitd] } : State).script = [cmdAct .emitd] := by decide

theorem witness_WireFormRoundTrip :
    iendChunk.sound 4#32 = true ∧ parseSlice 4#32 iendc = .ok (iendChunk, 12) := by decide +kernel

theorem witness_EmitThenParseKeepsTheChunk :
    Inv { sHi with script := [cmdAct .emit] } ∧ sHi.phase = .idle ∧ sHi.cv = true ∧ sHi.outq = [] :=
  ⟨⟨by decide, by decide, by decide, by decide,
    by simp only [sHi, s0, State.reset, phaseOk]; decide +kernel⟩, rfl, rfl, rfl⟩

theorem witness_CommandsUnderWayEnd :
    (Inv { sLen with inq := [.byte 0#8, .eos] } ∧ sLen.script = [] ∧
      Token.eos ∈ ({ sLen with inq := [.byte 0#8, .eos] } : State).inq) ∧
    (Inv { sHi with phase := .eData, idx := 1#32 } ∧ sHi.script = [] ∧ Phase.eData.consumes = false) :=
  ⟨⟨inv_pLen, rfl, by decide⟩, ⟨inv_eData, rfl, rfl⟩⟩

/-- A file of the signature and IENDC. -/
theorem witness_FileRoundTrip : containerParse 4#32 8 (pngSignature ++ iendc) = .ok [iendChunk] := by
  decide +kernel

theorem witness_SearchAndRemoveByType :
    chunksByType 0x52755374#32 [iendChunk] = [] ∧
    (⟨0#32, 0x52755374#32, [], 0#32⟩ : Chunk).typ = 0x52755374#32 ∧
    removeChunk 0x52755374#32 [iendChunk] = .error .chunkNotFound ∧
    removeChunk 0x49454E44#32 [iendChunk] = .ok (iendChunk, []) := by decide

/-- "hi" encoded under "RuSt" into the signature and IENDC. -/
theorem witness_EncodeThenDecodeGivesTheMessage :
    anyText.acceptsText ∧ 8 ≤ 12 ∧
    decodeFile 64#32 8 anyText (pngSignature ++ iendc) 0x52755374#32 = .ok [] ∧
    parseStr ['R', 'u', 'S', 't'] = .ok 0x52755374#32 ∧
    (∃ out, encodeFile 64#32 8 (pngSignature ++ iendc) ['h', 'i'] ['R', 'u', 'S', 't'] = .ok out) ∧
    42 ≤ (64#32 : Word).toNat :=
  ⟨fun _ => rfl, by decide, by decide +kernel, by decide,
    ⟨pngSignature ++ iendc ++ serializeChunk ⟨2#32, 0x52755374#32, [0x68#8, 0x69#8], 0xD2BC3F73#32⟩,
      by decide +kernel⟩, by decide⟩

end Sys2Proof.Tests
end

/-! # The decoder and the write of CMD

What a write of CMD can do, said once: the word against the table of R100, then the command by whether the
engine is idle (45_control_and_register_access.md R232 to R236). -/

namespace Sys2Proof.Machine

open Sys2Proof

/-! ## The decoder -/

theorem decode_encode (i : Instr) : decode (encode i) = .ok i := by cases i <;> rfl

/-- Every word is the word of a command or is above 6 (30_encoding.md R100, R102). -/
theorem eq_encode_or_gt_six (w : Word) : (∃ i, w = encode i) ∨ 6 < w.toNat := by
  by_cases h : 6 < w.toNat
  · exact .inr h
  · have hw : w = BitVec.ofNat 32 w.toNat := by simp
    generalize w.toNat = n at h hw
    match n, h with
    | 0, _ => exact .inl ⟨.nop, hw⟩
    | 1, _ => exact .inl ⟨.tchk, hw⟩
    | 2, _ => exact .inl ⟨.build, hw⟩
    | 3, _ => exact .inl ⟨.parse, hw⟩
    | 4, _ => exact .inl ⟨.emit, hw⟩
    | 5, _ => exact .inl ⟨.emitd, hw⟩
    | 6, _ => exact .inl ⟨.srst, hw⟩
    | n + 7, h => omega

/-- A word above 6 matches no row: the whole word is compared (R102). -/
theorem decode_of_gt_six {w : Word} (h : 6 < w.toNat) : decode w = .error (.illegalCommand w) := by
  have hne : ∀ k : Word, k.toNat ≤ 6 → w &&& 0xFFFFFFFF#32 ≠ k := by
    intro k hk hwk
    have hw : w &&& 0xFFFFFFFF#32 = w := BitVec.and_allOnes
    rw [hw] at hwk
    subst hwk
    omega
  simp [decode, commandTable, matchRow, hne]

theorem encode_ne_srst {i : Instr} (h : encode i ≠ 0x00000006#32) : i ≠ .srst := by
  rintro rfl; exact h rfl

/-! ## The meanings of the commands -/

/-- A command other than SRST is discarded while the engine is busy (R236). -/
theorem exec_busy {i : Instr} {s : State} (hi : i ≠ .srst) (hp : s.phase ≠ .idle) :
    exec i s = .next (overrun s) := by
  cases i with
  | srst => exact absurd rfl hi
  | nop => exact whenIdle_busy hp
  | tchk => exact whenIdle_busy hp
  | build => exact whenIdle_busy hp
  | parse => exact whenIdle_busy hp
  | emit => exact whenIdle_busy hp
  | emitd => exact whenIdle_busy hp

/-- What a command can do: SRST resets, every other one is discarded while busy and does its own work while idle. -/
theorem exec_cases {i : Instr} {s t : State} (h : exec i s = .next t) :
    (i = .srst ∧ t = softReset s) ∨
    (i ≠ .srst ∧ s.phase ≠ .idle ∧ t = overrun s) ∨
    (s.phase = .idle ∧
      ((i = .nop ∧ t = { s with err := 0#4 }) ∨
      (i = .tchk ∧ alpha4 s.tvin = true ∧ t = { s with err := 0#4 }) ∨
      (i = .tchk ∧ alpha4 s.tvin = false ∧ t = raiseError .invalidChunkType s) ∨
      (i = .build ∧ t = acceptBuild s) ∨
      (i = .parse ∧
        t = { s with cv := false, err := 0#4, len := 0#32, idx := 0#32, phase := .pLen }) ∨
      (i = .emit ∧ t = acceptEmit .eLen s) ∨
      (i = .emitd ∧ t = acceptEmit (if s.len = 0#32 then .dEos else .dData) s))) := by
  by_cases hi : i = .srst
  · subst hi; cases h; exact .inl ⟨rfl, rfl⟩
  by_cases hp : s.phase = .idle
  · refine .inr (.inr ⟨hp, ?_⟩)
    cases i with
    | srst => exact absurd rfl hi
    | nop => cases (whenIdle_idle hp).symm.trans h; simp
    | tchk =>
      cases (whenIdle_idle hp).symm.trans h
      cases ha : alpha4 s.tvin <;> simp
    | build => cases (whenIdle_idle hp).symm.trans h; simp
    | parse => cases (whenIdle_idle hp).symm.trans h; simp
    | emit => cases (whenIdle_idle hp).symm.trans h; simp
    | emitd => cases (whenIdle_idle hp).symm.trans h; simp
  · rw [exec_busy hi hp] at h; cases h; exact .inr (.inl ⟨hi, hp, rfl⟩)

/-! ## The write of CMD -/

@[simp] theorem writeCmd_encode (i : Instr) (s : State) : writeCmd (encode i) s = exec i s := by
  simp [writeCmd, decode_encode]

theorem writeCmd_of_gt_six {w : Word} (h : 6 < w.toNat) (s : State) :
    writeCmd w s = illegalCommand s := by
  simp [writeCmd, decode_of_gt_six h]

/-- A write of CMD executes the command that the word stands for, or is the illegal command. -/
theorem writeCmd_cases {w : Word} {s t : State} (h : writeCmd w s = .next t) :
    (∃ i, w = encode i ∧ exec i s = .next t) ∨ (6 < w.toNat ∧ illegalCommand s = .next t) := by
  rcases eq_encode_or_gt_six w with ⟨i, rfl⟩ | hw
  · exact .inl ⟨i, rfl, (writeCmd_encode i s).symm.trans h⟩
  · exact .inr ⟨hw, (writeCmd_of_gt_six hw s).symm.trans h⟩

/-- The illegal command raises its error while idle and is discarded while busy (R235, R236). -/
theorem illegalCommand_cases {s t : State} (h : illegalCommand s = .next t) :
    (s.phase = .idle ∧ t = raiseError .illegalCommand s) ∨ (s.phase ≠ .idle ∧ t = overrun s) :=
  whenIdle_cases h

/-- While busy every word but that of SRST is discarded, legal or not (R236). -/
theorem writeCmd_busy {w : Word} {s : State} (hp : s.phase ≠ .idle) (hw : w ≠ 0x00000006#32) :
    writeCmd w s = .next (overrun s) := by
  rcases eq_encode_or_gt_six w with ⟨i, rfl⟩ | hgt
  · rw [writeCmd_encode, exec_busy (encode_ne_srst hw) hp]
  · rw [writeCmd_of_gt_six hgt]; exact whenIdle_busy hp

/-! ## The host's actions as steps -/

theorem step_rd {s : State} {r : Reg} {rest : List HostAct} (h : s.script = .rd r :: rest) :
    step s = .next { s with script := rest, seen := s.seen ++ [.read r (readReg s r)] } :=
  step_cons h

theorem step_wr_cmd {s : State} {w : Word} {rest : List HostAct} (h : s.script = .wr .cmd w :: rest) :
    step s = writeCmd w { s with script := rest } :=
  step_cons h

theorem step_reset {s : State} {rest : List HostAct} (h : s.script = .reset :: rest) :
    step s = .next (softReset { s with script := rest }) :=
  step_cons h

/-- A write of a read-only register is ignored (45 R231, R42). -/
theorem step_wr_readOnly {s : State} {r : Reg} {v : Word} {rest : List HostAct} (hc : r ≠ .cmd)
    (ht : r ≠ .tvin) (h : s.script = .wr r v :: rest) : step s = .next { s with script := rest } := by
  rw [step_cons h]
  cases r with
  | cmd => exact absurd rfl hc
  | tvin => exact absurd rfl ht
  | status => rfl
  | tvflags => rfl
  | clen => rfl
  | ctype => rfl
  | ccrc => rfl
  | cap => rfl

end Sys2Proof.Machine

/-! # CAP

PAYLOAD_CAP is constant: the frame of CAP over commands, the host's actions and the engine's steps
(10_state.md R41). -/

namespace Sys2Proof.Machine

open Sys2Proof

@[simp] theorem acceptBuild_cap (s : State) : (acceptBuild s).cap = s.cap := by
  rcases acceptBuild_cases s with ⟨_, h⟩ | ⟨_, h⟩ <;> rw [h]

@[simp] theorem acceptEmit_cap (p : Phase) (s : State) : (acceptEmit p s).cap = s.cap := by
  rcases acceptEmit_cases p s with ⟨_, h⟩ | ⟨_, h⟩ <;> rw [h]

theorem exec_cap {i : Instr} {s t : State} (h : exec i s = .next t) : t.cap = s.cap := by
  rcases exec_cases h with ⟨_, rfl⟩ | ⟨_, _, rfl⟩ | ⟨_, h⟩
  · simp
  · simp
  · rcases h with ⟨_, rfl⟩ | ⟨_, _, rfl⟩ | ⟨_, _, rfl⟩ | ⟨_, rfl⟩ | ⟨_, rfl⟩ | ⟨_, rfl⟩ | ⟨_, rfl⟩ <;> simp

theorem writeCmd_cap {w : Word} {s t : State} (h : writeCmd w s = .next t) : t.cap = s.cap := by
  rcases writeCmd_cases h with ⟨_, _, h⟩ | ⟨_, h⟩
  · exact exec_cap h
  · rcases illegalCommand_cases h with ⟨_, rfl⟩ | ⟨_, rfl⟩ <;> simp

theorem engineStep_cap {s t : State} (h : engineStep s = .next t) : t.cap = s.cap :=
  (engineStep_frame h).1

theorem hostStep_cap {a : HostAct} {rest : List HostAct} {s t : State}
    (h : hostStep a rest s = .next t) : t.cap = s.cap := by
  rcases hostStep_cases h with ⟨_, _, rfl⟩ | ⟨_, _, h⟩ | ⟨_, _, rfl⟩ | ⟨_, _, _, _, _, rfl⟩ | ⟨_, _, rfl⟩ |
    ⟨_, _, _, _, _, rfl⟩ | ⟨_, _, rfl⟩ | ⟨_, _, h⟩ | ⟨_, rfl⟩ | ⟨_, h⟩
  · rfl
  · exact (writeCmd_cap h :)
  · rfl
  · rfl
  · rfl
  · rfl
  · rfl
  · exact engineStep_cap h
  · rfl
  · exact (engineStep_cap h :)

theorem step_cap {s t : State} (h : step s = .next t) : t.cap = s.cap := by
  rcases step_cases h with ⟨_, h⟩ | ⟨_, _, _, h⟩
  · exact engineStep_cap h
  · exact hostStep_cap h

/-- Settles O23, by the frame of CAP over every kind of step. -/
theorem capIsConstant : Obligations.CapIsConstant :=
  ⟨rfl, fun _ => rfl, fun _ _ h => step_cap h,
    fun _ _ _ h => step_wr_readOnly (by decide) (by decide) h⟩

end Sys2Proof.Machine

/-! # CV

CV follows the record: what one step can do to CV, said once for the engine, for a command and for the
whole machine (10_state.md R25). -/

namespace Sys2Proof.Machine

open Sys2Proof

/-- The step from s to t is the last of a successful BUILD or PARSE. -/
def completesRecord (s t : State) : Prop :=
  (s.phase = .bData ∨ s.phase = .pCrc) ∧ t.phase = .idle ∧ t.err = 0#4

/-- The action at s is a reset, SRST, or the acceptance of BUILD or PARSE. -/
def dropsRecord (s : State) (a : HostAct) : Prop :=
  a = .reset ∨ a = .wr .cmd (encode .srst) ∨
    (s.phase = .idle ∧ (a = .wr .cmd (encode .build) ∨ a = .wr .cmd (encode .parse)))

/-! ## The engine's steps -/

theorem emitFieldByte_cv {v : Word} {p : Phase} {s t : State} (h : emitFieldByte v p s = .next t) :
    t.cv = s.cv := by
  obtain ⟨_, _, _, ⟨_, rfl⟩ | ⟨_, rfl⟩⟩ := emitFieldByte_cases h <;> rfl

theorem emitPayloadByte_cv {p : Phase} {s t : State} (h : emitPayloadByte p s = .next t) :
    t.cv = s.cv := by
  obtain ⟨_, _, _, ⟨_, rfl⟩ | ⟨_, rfl⟩⟩ := emitPayloadByte_cases h <;> rfl

theorem parseLenStep_cv {s t : State} (h : parseLenStep s = .next t) : t.cv = s.cv := by
  rcases parseLenStep_cases h with ⟨_, rfl⟩ | ⟨_, _, _, ⟨_, rfl⟩ | ⟨_, rfl⟩⟩ | ⟨_, _, rfl⟩ <;> rfl

theorem parseTypeStep_cv {s t : State} (h : parseTypeStep s = .next t) : t.cv = s.cv := by
  rcases parseTypeStep_cases h with ⟨_, rfl⟩ | ⟨_, _, _, _, _, _, _, h⟩ | ⟨_, _, rfl⟩
  · rfl
  · rcases h with ⟨_, _, rfl⟩ | ⟨_, _, _, rfl⟩ | ⟨_, _, _, rfl⟩ | ⟨_, _, _, _, rfl⟩ | ⟨_, rfl⟩ <;> rfl
  · rfl

theorem parseDataStep_cv {s t : State} (h : parseDataStep s = .next t) : t.cv = s.cv := by
  rcases parseDataStep_cases h with ⟨_, rfl⟩ | ⟨_, _, _, _, _, _, _, _, ⟨_, rfl⟩ | ⟨_, rfl⟩⟩ | ⟨_, _, rfl⟩ <;>
    rfl

/-- In P_CRC only an equal checksum touches CV, and then the PARSE is done. -/
theorem parseCrcStep_cv {s t : State} (h : parseCrcStep s = .next t) :
    t.cv = s.cv ∨ (t.cv = true ∧ t.phase = .idle ∧ t.err = 0#4) := by
  rcases parseCrcStep_cases h with ⟨_, rfl⟩ | ⟨_, _, _, _, _, ⟨_, _, rfl⟩ | ⟨_, _, rfl⟩ | ⟨_, rfl⟩⟩ | ⟨_, _, rfl⟩
  case inr.inl.inl => exact .inr ⟨rfl, rfl, rfl⟩
  all_goals exact .inl rfl

/-- In B_DATA only the EOS touches CV, and then the BUILD is done. -/
theorem buildStep_cv {s t : State} (h : buildStep s = .next t) :
    t.cv = s.cv ∨ (t.cv = true ∧ t.phase = .idle ∧ t.err = 0#4) := by
  rcases buildStep_cases h with ⟨_, rfl⟩ | ⟨_, _, _, _, rfl⟩ | ⟨_, _, _, _, _, rfl⟩ | ⟨_, _, rfl⟩
  case inr.inr.inr => exact .inr ⟨rfl, rfl, rfl⟩
  all_goals exact .inl rfl

/-- A step of the engine leaves CV, or completes a record and sets it. -/
theorem engineStep_cv {s t : State} (h : engineStep s = .next t) :
    t.cv = s.cv ∨ (t.cv = true ∧ completesRecord s t) := by
  cases hp : s.phase with
  | idle => rw [engineStep_idle hp] at h; cases h; exact .inl rfl
  | pLen => exact .inl (parseLenStep_cv (engineStep_pLen hp ▸ h))
  | pType => exact .inl (parseTypeStep_cv (engineStep_pType hp ▸ h))
  | pData => exact .inl (parseDataStep_cv (engineStep_pData hp ▸ h))
  | pCrc => exact (parseCrcStep_cv (engineStep_pCrc hp ▸ h)).imp_right (.imp_right (⟨.inr hp, ·⟩))
  | bData => exact (buildStep_cv (engineStep_bData hp ▸ h)).imp_right (.imp_right (⟨.inl hp, ·⟩))
  | eLen => exact .inl (emitFieldByte_cv (engineStep_eLen hp ▸ h))
  | eType => exact .inl (emitFieldByte_cv (engineStep_eType hp ▸ h))
  | eData => exact .inl (emitPayloadByte_cv (engineStep_eData hp ▸ h))
  | eCrc => exact .inl (emitFieldByte_cv (engineStep_eCrc hp ▸ h))
  | eEos => rw [engineStep_eEos hp] at h; cases h; exact .inl rfl
  | dData => exact .inl (emitPayloadByte_cv (engineStep_dData hp ▸ h))
  | dEos => rw [engineStep_dEos hp] at h; cases h; exact .inl rfl

/-! ## The commands -/

@[simp] theorem acceptBuild_cv (s : State) : (acceptBuild s).cv = false := by
  rcases acceptBuild_cases s with ⟨_, h⟩ | ⟨_, h⟩ <;> rw [h]

@[simp] theorem acceptEmit_cv (p : Phase) (s : State) : (acceptEmit p s).cv = s.cv := by
  rcases acceptEmit_cases p s with ⟨_, h⟩ | ⟨_, h⟩ <;> rw [h]

/-- SRST clears CV, and so does a BUILD or a PARSE that is accepted; nothing else a command does touches it. -/
theorem exec_cv {i : Instr} {s t : State} (h : exec i s = .next t) :
    (t.cv = false ∧ (i = .srst ∨ (s.phase = .idle ∧ (i = .build ∨ i = .parse)))) ∨
    (t.cv = s.cv ∧ i ≠ .srst ∧ (s.phase = .idle → i ≠ .build ∧ i ≠ .parse)) := by
  rcases exec_cases h with ⟨rfl, rfl⟩ | ⟨hi, hp, rfl⟩ | ⟨hp, h⟩
  · simp
  · simp [hi, hp]
  · rcases h with ⟨rfl, rfl⟩ | ⟨rfl, _, rfl⟩ | ⟨rfl, _, rfl⟩ | ⟨rfl, rfl⟩ | ⟨rfl, rfl⟩ | ⟨rfl, rfl⟩ |
      ⟨rfl, rfl⟩ <;> simp [hp]

/-- A write of CMD leaves CV, or it is SRST or an accepted BUILD or PARSE and clears it. -/
theorem writeCmd_cv {w : Word} {s t : State} (h : writeCmd w s = .next t) :
    t.cv = s.cv ∨ (t.cv = false ∧ dropsRecord s (.wr .cmd w)) := by
  rcases writeCmd_cases h with ⟨i, rfl, he⟩ | ⟨_, h⟩
  · rcases exec_cv he with ⟨hcv, rfl | ⟨hp, rfl | rfl⟩⟩ | ⟨hcv, _⟩
    · exact .inr ⟨hcv, .inr (.inl rfl)⟩
    · exact .inr ⟨hcv, .inr (.inr ⟨hp, .inl rfl⟩)⟩
    · exact .inr ⟨hcv, .inr (.inr ⟨hp, .inr rfl⟩)⟩
    · exact .inl hcv
  · rcases illegalCommand_cases h with ⟨_, rfl⟩ | ⟨_, rfl⟩ <;> exact .inl rfl

/-! ## The whole machine -/

/-- The host's action leaves CV, gives the engine the step that completes a record, or drops the record. -/
theorem hostStep_cv {a : HostAct} {rest : List HostAct} {s t : State}
    (h : hostStep a rest s = .next t) :
    t.cv = s.cv ∨ (t.cv = true ∧ completesRecord s t) ∨ (t.cv = false ∧ dropsRecord s a) := by
  rcases hostStep_cases h with ⟨_, _, rfl⟩ | ⟨_, rfl, h⟩ | ⟨_, _, rfl⟩ | ⟨_, _, _, _, _, rfl⟩ | ⟨_, _, rfl⟩ |
    ⟨_, _, _, _, _, rfl⟩ | ⟨_, _, rfl⟩ | ⟨_, _, h⟩ | ⟨rfl, rfl⟩ | ⟨_, h⟩
  · exact .inl rfl
  · exact (writeCmd_cv h).imp_right .inr
  · exact .inl rfl
  · exact .inl rfl
  · exact .inl rfl
  · exact .inl rfl
  · exact .inl rfl
  · exact (engineStep_cv h).imp_right .inl
  · exact .inr (.inr ⟨rfl, .inl rfl⟩)
  · exact (engineStep_cv h).imp_right .inl

/-- One step leaves CV, sets it by completing a record, or clears it by an action that drops the record. -/
theorem step_cv {s t : State} (h : step s = .next t) :
    t.cv = s.cv ∨ (t.cv = true ∧ completesRecord s t) ∨
      (t.cv = false ∧ ∃ a, s.script.head? = some a ∧ dropsRecord s a) := by
  rcases step_cases h with ⟨_, h⟩ | ⟨a, rest, hs, h⟩
  · exact (engineStep_cv h).imp_right .inl
  · exact (hostStep_cv h).imp_right (.imp_right (.imp_right (⟨a, by simp [hs], ·⟩)))

theorem completesRecord_of_cv_set {s t : State} (h : step s = .next t) (hs : s.cv = false)
    (ht : t.cv = true) : completesRecord s t := by
  rcases step_cv h with hcv | ⟨_, hc⟩ | ⟨hcv, _⟩
  · simp [hs, ht] at hcv
  · exact hc
  · simp [ht] at hcv

theorem dropsRecord_of_cv_cleared {s t : State} (h : step s = .next t) (hs : s.cv = true)
    (ht : t.cv = false) : ∃ a, s.script.head? = some a ∧ dropsRecord s a := by
  rcases step_cv h with hcv | ⟨hcv, _⟩ | ⟨_, hd⟩
  · simp [hs, ht] at hcv
  · simp [ht] at hcv
  · exact hd

/-- An illegal word and a discarded command leave CV (R235, R236). -/
theorem writeCmd_cv_of_illegal_or_discarded {w : Word} {s t : State}
    (hw : 6 < w.toNat ∨ (s.phase ≠ .idle ∧ w ≠ 0x00000006#32)) (h : writeCmd w s = .next t) :
    t.cv = s.cv := by
  rcases hw with hw | ⟨hp, hw⟩
  · rw [writeCmd_of_gt_six hw] at h
    rcases illegalCommand_cases h with ⟨_, rfl⟩ | ⟨_, rfl⟩ <;> rfl
  · rw [writeCmd_busy hp hw] at h; cases h; rfl

/-- Settles O43, by what one step can do to CV. -/
theorem cvFollowsTheRecord : Obligations.CvFollowsTheRecord := by
  refine ⟨fun s t h => completesRecord_of_cv_set h, ?_, ?_, ?_, ?_, ?_, ?_, rfl⟩
  · intro s t h hs ht
    obtain ⟨a, ha, rfl | rfl | ⟨hp, rfl | rfl⟩⟩ := dropsRecord_of_cv_cleared h hs ht
    · exact .inl ha
    · exact .inr (.inl ha)
    · exact .inr (.inr ⟨hp, .inl ha⟩)
    · exact .inr (.inr ⟨hp, .inr ha⟩)
  · intro s t h
    cases h; rfl
  · intro s rest hs
    exact ⟨_, step_reset hs, rfl⟩
  · intro s t i hp hi h
    rcases exec_cv h with ⟨hcv, _⟩ | ⟨_, _, hne⟩
    · exact hcv
    · exact absurd hi (not_or.2 (hne hp))
  · intro s t i hi h
    rcases exec_cv h with ⟨_, rfl | ⟨_, rfl | rfl⟩⟩ | ⟨hcv, _⟩
    · simp at hi
    · simp at hi
    · simp at hi
    · exact hcv
  · intro s t w rest hs hw h
    rw [step_wr_cmd hs] at h
    exact writeCmd_cv_of_illegal_or_discarded (s := { s with script := rest }) hw h

end Sys2Proof.Machine

/-! # The registers read

The registers that are computed from the items: STATUS, TVFLAGS and the record registers, and what they
read after reset (10_state.md R35, R37 to R40, R47). -/

namespace Sys2Proof.Machine

open Sys2Proof

/-! ## Fields side by side -/

/-- A bit appended below a number doubles it and is added. -/
theorem toNat_append_ofBool {n : Nat} (x : BitVec n) (b : Bool) :
    (x ++ BitVec.ofBool b).toNat = 2 * x.toNat + b.toNat := by
  have hb : (BitVec.ofBool b).toNat < 2 ^ 1 := (BitVec.ofBool b).isLt
  rw [BitVec.toNat_append, ← Nat.shiftLeft_add_eq_or_of_lt hb, Nat.shiftLeft_eq, BitVec.toNat_ofBool]
  omega

/-! ## STATUS -/

/-- The sum of R35 is its fields side by side: no two of its terms overlap. -/
theorem statusWord_eq_append (s : State) :
    statusWord s =
      (s.err ++ BitVec.ofBool false ++ BitVec.ofBool s.ovr ++ BitVec.ofBool s.cv ++
        BitVec.ofBool (busy s)).setWidth 32 := by
  have := s.err.isLt
  apply BitVec.eq_of_toNat_eq
  rw [BitVec.toNat_setWidth]
  simp only [toNat_append_ofBool]
  cases ho : s.ovr <;> cases hc : s.cv <;> cases hb : busy s <;>
    simp [statusWord, bitWord, ho, hc, hb] <;> omega

theorem statusWord_errField (s : State) : (statusWord s).extractLsb' 4 4 = s.err := by
  refine BitVec.eq_of_getLsbD_eq fun i hi => ?_
  rw [statusWord_eq_append]
  simp only [BitVec.getLsbD_extractLsb', BitVec.getLsbD_setWidth, BitVec.getLsbD_append]
  simp [hi, show 4 + i < 32 by omega]

theorem statusWord_reserved (s : State) : (statusWord s).extractLsb' 8 24 = 0#24 := by
  refine BitVec.eq_of_getLsbD_eq fun i hi => ?_
  rw [statusWord_eq_append]
  simp only [BitVec.getLsbD_extractLsb', BitVec.getLsbD_setWidth, BitVec.getLsbD_append]
  simp

/-- Settles O20, by the bits of the fields side by side. -/
theorem statusBits : Obligations.StatusBits := by
  refine fun s => ⟨⟨?_, ?_, ?_, ?_, statusWord_errField s, statusWord_reserved s⟩,
    fun _ h => step_rd h, fun _ _ h => step_wr_readOnly (by decide) (by decide) h⟩
  all_goals
    rw [statusWord_eq_append]
    simp only [BitVec.getLsbD_setWidth, BitVec.getLsbD_append]
    simp [busy]

/-! ## TVFLAGS -/

theorem all_be32_isAlpha (v : Word) : (be32 v).all isAlpha = alpha4 v := by
  simp [be32, alpha4, Bool.and_assoc]

/-- Bit n of TVFLAGS is the n-th of the six flags (41_type_validator.md R147). -/
theorem getLsbD_tvFlags (v : Word) (n : Nat) :
    (tvFlags v).getLsbD n =
      [alpha4 v, critical v, isPublic v, reservedOk v, safeToCopy v, isValid v].getD n false := by
  unfold tvFlags
  simp only [BitVec.getLsbD_setWidth, BitVec.getLsbD_append]
  match n with
  | 0 | 1 | 2 | 3 | 4 | 5 => simp
  | n + 6 => simp

theorem tvFlags_reserved (v : Word) : (tvFlags v).extractLsb' 6 26 = 0#26 := by
  refine BitVec.eq_of_getLsbD_eq fun i hi => ?_
  rw [BitVec.getLsbD_extractLsb', getLsbD_tvFlags]
  simp [Nat.add_comm 6 i]

/-- Settles O21, by the bits of the six flags side by side. -/
theorem tvflagsBits : Obligations.TvflagsBits := by
  refine fun s => ⟨?_, fun _ _ h => step_wr_readOnly (by decide) (by decide) h⟩
  simp only [readReg, getLsbD_tvFlags, all_be32_isAlpha, ← alpha4_iff_fourLetters]
  exact ⟨Iff.rfl, rfl, rfl, rfl, rfl, rfl, rfl, tvFlags_reserved s.tvin⟩

/-! ## The record registers -/

/-- Settles O22, by the two values of CV. -/
theorem recordRegistersAreGatedByCv : Obligations.RecordRegistersAreGatedByCv := by
  refine fun s => ⟨fun h => by simp [readReg, h], fun h => by simp [readReg, h], ?_⟩
  rintro r v rest (rfl | rfl | rfl) h
  all_goals exact step_wr_readOnly (by decide) (by decide) h

/-! ## After reset -/

theorem tvFlags_zero : tvFlags 0#32 = 0x0000000E#32 := by decide

theorem softReset_reset : softReset State.reset = State.reset := rfl

/-- Power-on, SRST and the hardware reset all leave a state that a soft reset leaves (70_reset_and_hazards.md
R323). -/
theorem exists_softReset {t : State}
    (h : t = State.reset ∨ (∃ s : State, exec .srst s = .next t) ∨
      (∃ (s : State) (rest : List HostAct), s.script = .reset :: rest ∧ step s = .next t)) :
    ∃ s, t = softReset s := by
  rcases h with rfl | ⟨s, h⟩ | ⟨s, rest, hs, h⟩
  · exact ⟨_, softReset_reset.symm⟩
  · cases h; exact ⟨s, rfl⟩
  · rw [step_reset hs] at h; cases h; exact ⟨_, rfl⟩

/-- Settles O47: every reset is a soft reset, whose registers are computed from constants. -/
theorem resetValuesAndReadings : Obligations.ResetValuesAndReadings := by
  refine ⟨fun t ht => ?_, rfl, ?_⟩
  · obtain ⟨s, rfl⟩ := exists_softReset ht
    exact ⟨rfl, rfl, rfl, rfl, rfl, rfl, rfl, rfl, rfl, rfl, rfl, rfl, tvFlags_zero, rfl, rfl, rfl, rfl⟩
  · rintro s t (h | ⟨hs, h⟩)
    · cases h; simp
    · obtain ⟨rest, hs⟩ := List.head?_eq_some_iff.1 hs
      rw [step_reset hs] at h; cases h; simp

end Sys2Proof.Machine

/-! # The CRC unit

The two other forms of the CRC give the checksum of the bitwise form: the table form because a round is
linear and only shifts while the bits it tests are 0, the unreflected form because bit reversal carries each
of its rounds to a round of the bitwise form (40_crc_unit.md R122, R130, R131). -/

namespace Sys2Proof.Machine

open Sys2Proof

/-! ## Rounds are linear -/

theorem crcRound_xor (a b : Word) : crcRound (a ^^^ b) = crcRound a ^^^ crcRound b := by
  have hp (x y : Word) : (x ^^^ crcPoly) ^^^ (y ^^^ crcPoly) = x ^^^ y := by
    rw [BitVec.xor_comm y, BitVec.xor_assoc, ← BitVec.xor_assoc crcPoly]; simp
  unfold crcRound
  rw [BitVec.getLsbD_xor, BitVec.ushiftRight_xor_distrib]
  cases a.getLsbD 0 <;> cases b.getLsbD 0
  case false.false => simp
  case false.true => simp [BitVec.xor_assoc]
  case true.false => simp [BitVec.xor_assoc, BitVec.xor_comm crcPoly]
  case true.true => simp [hp]

theorem crcRounds_xor (n : Nat) (a b : Word) :
    crcRounds n (a ^^^ b) = crcRounds n a ^^^ crcRounds n b := by
  induction n generalizing a b with
  | zero => rfl
  | succ n ih => simp only [crcRounds, crcRound_xor, ih]

/-! ## The table form -/

/-- While the bits tested are 0 the rounds only shift. -/
theorem crcRounds_eq_ushiftRight {n : Nat} {a : Word} (h : ∀ i < n, a.getLsbD i = false) :
    crcRounds n a = a >>> n := by
  induction n generalizing a with
  | zero => simp [crcRounds]
  | succ n ih =>
    have hr : crcRound a = a >>> 1 := by rw [crcRound, h 0 n.succ_pos]; rfl
    have hlow : ∀ i < n, (a >>> 1).getLsbD i = false := fun i hi => by
      rw [BitVec.getLsbD_ushiftRight]; exact h _ (by omega)
    rw [crcRounds, hr, ih hlow, ← BitVec.shiftRight_add, Nat.add_comm]

/-- A word is its low byte and its upper three bytes, exclusive-ored. -/
theorem eq_lowByte_xor_upperBytes (x : Word) :
    x = (x.setWidth 8).setWidth 32 ^^^ (x >>> 8) <<< 8 := by
  refine BitVec.eq_of_getLsbD_eq fun i hi => ?_
  by_cases h8 : i < 8
  · simp [h8, BitVec.getLsbD_eq_getElem hi]
  · have hi8 : 8 + (i - 8) = i := by omega
    simp [h8, hi, hi8]

/-- Eight rounds use up the low byte, which a table entry stands for, and shift the rest down. -/
theorem crcRounds_eight (x : Word) : crcRounds 8 x = crcTable (x.setWidth 8) ^^^ x >>> 8 := by
  have hlow : ∀ i < 8, ((x >>> 8) <<< 8).getLsbD i = false := by simp +contextual
  have hshift : ((x >>> 8) <<< 8) >>> 8 = x >>> 8 := by
    refine BitVec.eq_of_getLsbD_eq fun i hi => ?_
    by_cases h24 : 8 + i < 32
    · simp [h24]
    · simp [h24, BitVec.getLsbD_of_ge x (8 + i) (by omega)]
  calc crcRounds 8 x
      = crcRounds 8 ((x.setWidth 8).setWidth 32 ^^^ (x >>> 8) <<< 8) := by
        rw [← eq_lowByte_xor_upperBytes]
    _ = crcTable (x.setWidth 8) ^^^ ((x >>> 8) <<< 8) >>> 8 := by
        rw [crcRounds_xor, crcRounds_eq_ushiftRight hlow, crcTable]
    _ = crcTable (x.setWidth 8) ^^^ x >>> 8 := by rw [hshift]

/-- The byte enters below bit 8 and does not reach the upper three bytes. -/
theorem xor_byte_ushiftRight_eight (acc : Word) (b : Byte) :
    (acc ^^^ b.setWidth 32) >>> 8 = acc >>> 8 := by
  refine BitVec.eq_of_getLsbD_eq fun i _ => ?_
  simp

theorem crcUpdate_eq_crcUpdateTable (acc : Word) (b : Byte) : crcUpdate acc b = crcUpdateTable acc b := by
  rw [crcUpdate, crcRounds_eight, xor_byte_ushiftRight_eight, crcUpdateTable]

/-- An entry of the table is the update of the entry's number by a zero byte (R130). -/
theorem crcTable_eq_crcUpdate (n : Byte) : crcTable n = crcUpdate (n.setWidth 32) 0#8 := by
  simp [crcTable, crcUpdate]

/-- Settles O25, by splitting the word into its low byte and the rest; the sample entries are computed. -/
theorem crcTableFormIsCrcUpdate : Obligations.CrcTableFormIsCrcUpdate :=
  ⟨crcUpdate_eq_crcUpdateTable, crcTable_eq_crcUpdate, by decide⟩

/-! ## Bit reversal -/

theorem reverse_xor {w : Nat} (x y : BitVec w) : (x ^^^ y).reverse = x.reverse ^^^ y.reverse := by
  refine BitVec.eq_of_getLsbD_eq fun i _ => ?_
  simp only [BitVec.getLsbD_reverse, BitVec.getLsbD_xor, BitVec.getMsbD_xor]

theorem reverse_shiftLeft {w : Nat} (x : BitVec w) (n : Nat) : (x <<< n).reverse = x.reverse >>> n := by
  refine BitVec.eq_of_getLsbD_eq fun i hi => ?_
  simp [BitVec.getLsbD_reverse, BitVec.getMsbD_shiftLeft, Nat.add_comm]

/-- The reversed byte at bits 31:24 is the mirror image of the byte at bits 7:0. -/
theorem reverse_topByte (b : Byte) : (b.reverse.setWidth 32 <<< 24).reverse = b.setWidth 32 := by
  rw [reverse_shiftLeft]
  refine BitVec.eq_of_getLsbD_eq fun i hi => ?_
  rw [BitVec.getLsbD_ushiftRight, BitVec.getLsbD_reverse, BitVec.getMsbD_setWidth]
  simp [BitVec.getMsbD_reverse, hi]

/-- The two polynomial constants are mirror images (R131). -/
theorem reverse_unreflectedPoly : (0x04C11DB7#32).reverse = crcPoly := by decide +kernel

/-! ## The unreflected form -/

/-- Bit reversal carries a round of the unreflected form to a round of crc_update. -/
theorem reverse_crcRoundUnreflected (r : Word) :
    (crcRoundUnreflected r).reverse = crcRound r.reverse := by
  have hbit : r.reverse.getLsbD 0 = r.getLsbD 31 := by rw [BitVec.getLsbD_reverse]; rfl
  unfold crcRoundUnreflected crcRound
  rw [hbit]
  split
  · rw [reverse_xor, reverse_shiftLeft, reverse_unreflectedPoly]
  · rw [reverse_shiftLeft]

theorem reverse_crcRoundsUnreflected (n : Nat) (r : Word) :
    (crcRoundsUnreflected n r).reverse = crcRounds n r.reverse := by
  induction n generalizing r with
  | zero => rfl
  | succ n ih => rw [crcRoundsUnreflected, ih, reverse_crcRoundUnreflected, crcRounds]

theorem reverse_crcUpdateUnreflected (r : Word) (b : Byte) :
    (crcUpdateUnreflected r b).reverse = crcUpdate r.reverse b := by
  rw [crcUpdateUnreflected, reverse_crcRoundsUnreflected, reverse_xor, reverse_topByte, crcUpdate]

/-- The simulation: over a byte sequence the two registers stay mirror images. -/
theorem reverse_foldl_crcUpdateUnreflected (s : List Byte) (r : Word) :
    (s.foldl crcUpdateUnreflected r).reverse = crcFold r.reverse s := by
  induction s generalizing r with
  | nil => rfl
  | cons b s ih => rw [List.foldl_cons, ih, reverse_crcUpdateUnreflected, crcFold_cons]

/-- The register's start is its own mirror image. -/
theorem reverse_crcInit : crcInit.reverse = crcInit := by decide +kernel

/-- Settles O26, by induction over the bytes: the unreflected register is the accumulator reversed. -/
theorem unreflectedFormIsTheSameChecksum : Obligations.UnreflectedFormIsTheSameChecksum := fun s =>
  calc crc32Unreflected s
      = (s.foldl crcUpdateUnreflected crcInit).reverse ^^^ 0xFFFFFFFF#32 := rfl
    _ = crcFinal (crcFold crcInit s) := by
        rw [reverse_foldl_crcUpdateUnreflected, reverse_crcInit, crcFinal]
    _ = crc32 s := rfl

end Sys2Proof.Machine

/-! # TCHK

The command of the type validator: it reports the alphabetic test of TVIN in ERR (41_type_validator.md
R148). -/

namespace Sys2Proof.Machine

open Sys2Proof

/-- An error raised while idle writes ERR only: the PHASE it sets is the one that stands. -/
theorem raiseError_of_idle {s : State} (k : ErrorKind) (hp : s.phase = .idle) :
    raiseError k s = { s with err := k.code } := by
  rw [raiseError, ← hp]

theorem exec_tchk_idle {s : State} (hp : s.phase = .idle) :
    exec .tchk s = .next { s with err := if alpha4 s.tvin then 0#4 else 1#4 } := by
  refine (whenIdle_idle hp).trans ?_
  rw [raiseError_of_idle _ hp]
  cases alpha4 s.tvin with
  | true => rfl
  | false => rfl

/-- Settles O9, by the two values of the alphabetic test, which holds exactly of four letters. -/
theorem tchkReportsTheAlphabeticTest : Obligations.TchkReportsTheAlphabeticTest := by
  refine ⟨decode_encode .tchk, fun s => ⟨exec_tchk_idle, ?_, ?_, exec_busy (by decide)⟩⟩
  · intro hp hletters
    rw [exec_tchk_idle hp, if_pos ((alpha4_iff_fourLetters _).2 hletters)]
  · intro hp hletters
    rw [exec_tchk_idle hp, if_neg (mt (alpha4_iff_fourLetters _).1 hletters)]

end Sys2Proof.Machine

/-! # Phases

Which phase may follow which: the graph of the engine's steps, the first phases of the commands, and what
a step of the whole machine can do to PHASE (10_state.md R28). -/

namespace Sys2Proof.Machine

open Sys2Proof

/-- The phases that a step of the engine can move to from a given one, itself left out. -/
def Phase.successors : Phase → List Phase
  | .idle => []
  | .pLen => [.pType, .idle]
  | .pType => [.pData, .pCrc, .idle]
  | .pData => [.pCrc, .idle]
  | .pCrc | .bData | .eEos | .dEos => [.idle]
  | .eLen => [.eType]
  | .eType => [.eData, .eCrc]
  | .eData => [.eCrc]
  | .eCrc => [.eEos]
  | .dData => [.dEos]

/-- The phases that a command or a reset can leave in place of the one before: IDLE and the first phases of
BUILD, PARSE, EMIT and EMITD. -/
def commandPhases : List Phase := [.idle, .bData, .pLen, .eLen, .dData, .dEos]

/-! ## The engine's steps -/

theorem emitFieldByte_phase {v : Word} {p : Phase} {s t : State} (h : emitFieldByte v p s = .next t) :
    t.phase = s.phase ∨ t.phase = p := by
  obtain ⟨_, _, _, ⟨_, rfl⟩ | ⟨_, rfl⟩⟩ := emitFieldByte_cases h
  · exact .inr rfl
  · exact .inl rfl

theorem emitPayloadByte_phase {p : Phase} {s t : State} (h : emitPayloadByte p s = .next t) :
    t.phase = s.phase ∨ t.phase = p := by
  obtain ⟨_, _, _, ⟨_, rfl⟩ | ⟨_, rfl⟩⟩ := emitPayloadByte_cases h
  · exact .inr rfl
  · exact .inl rfl

theorem parseLenStep_phase {s t : State} (h : parseLenStep s = .next t) :
    t.phase = s.phase ∨ t.phase ∈ Phase.pLen.successors := by
  rcases parseLenStep_cases h with ⟨_, rfl⟩ | ⟨_, _, _, ⟨_, rfl⟩ | ⟨_, rfl⟩⟩ | ⟨_, _, rfl⟩ <;>
    simp [Phase.successors]

theorem parseTypeStep_phase {s t : State} (h : parseTypeStep s = .next t) :
    t.phase = s.phase ∨ t.phase ∈ Phase.pType.successors := by
  rcases parseTypeStep_cases h with ⟨_, rfl⟩ | ⟨_, _, _, _, _, _, _, h⟩ | ⟨_, _, rfl⟩
  · simp
  · rcases h with ⟨_, _, rfl⟩ | ⟨_, _, _, rfl⟩ | ⟨_, _, _, rfl⟩ | ⟨_, _, _, _, rfl⟩ | ⟨_, rfl⟩ <;>
      simp [Phase.successors]
  · simp [Phase.successors]

theorem parseDataStep_phase {s t : State} (h : parseDataStep s = .next t) :
    t.phase = s.phase ∨ t.phase ∈ Phase.pData.successors := by
  rcases parseDataStep_cases h with ⟨_, rfl⟩ | ⟨_, _, _, _, _, _, _, _, ⟨_, rfl⟩ | ⟨_, rfl⟩⟩ | ⟨_, _, rfl⟩ <;>
    simp [Phase.successors]

theorem parseCrcStep_phase {s t : State} (h : parseCrcStep s = .next t) :
    t.phase = s.phase ∨ t.phase ∈ Phase.pCrc.successors := by
  rcases parseCrcStep_cases h with ⟨_, rfl⟩ | ⟨_, _, _, _, _, ⟨_, _, rfl⟩ | ⟨_, _, rfl⟩ | ⟨_, rfl⟩⟩ |
    ⟨_, _, rfl⟩ <;> simp [Phase.successors]

theorem buildStep_phase {s t : State} (h : buildStep s = .next t) :
    t.phase = s.phase ∨ t.phase ∈ Phase.bData.successors := by
  rcases buildStep_cases h with ⟨_, rfl⟩ | ⟨_, _, _, _, rfl⟩ | ⟨_, _, _, _, _, rfl⟩ | ⟨_, _, rfl⟩ <;>
    simp [Phase.successors]

/-- A step of the engine stays in its phase or moves along the graph. -/
theorem engineStep_phase {s t : State} (h : engineStep s = .next t) :
    t.phase = s.phase ∨ t.phase ∈ s.phase.successors := by
  cases hp : s.phase with
  | idle => rw [engineStep_idle hp] at h; cases h; exact .inl hp
  | pLen => exact (parseLenStep_phase (engineStep_pLen hp ▸ h)).imp_left (·.trans hp)
  | pType => exact (parseTypeStep_phase (engineStep_pType hp ▸ h)).imp_left (·.trans hp)
  | pData => exact (parseDataStep_phase (engineStep_pData hp ▸ h)).imp_left (·.trans hp)
  | pCrc => exact (parseCrcStep_phase (engineStep_pCrc hp ▸ h)).imp_left (·.trans hp)
  | bData => exact (buildStep_phase (engineStep_bData hp ▸ h)).imp_left (·.trans hp)
  | eLen =>
    rcases emitFieldByte_phase (engineStep_eLen hp ▸ h) with ht | ht <;> simp [ht, hp, Phase.successors]
  | eType =>
    rcases emitFieldByte_phase (engineStep_eType hp ▸ h) with ht | ht
    · exact .inl (ht.trans hp)
    · rw [ht]; split <;> simp [Phase.successors]
  | eData =>
    rcases emitPayloadByte_phase (engineStep_eData hp ▸ h) with ht | ht <;> simp [ht, hp, Phase.successors]
  | eCrc =>
    rcases emitFieldByte_phase (engineStep_eCrc hp ▸ h) with ht | ht <;> simp [ht, hp, Phase.successors]
  | eEos => rw [engineStep_eEos hp] at h; cases h; simp [Phase.successors]
  | dData =>
    rcases emitPayloadByte_phase (engineStep_dData hp ▸ h) with ht | ht <;> simp [ht, hp, Phase.successors]
  | dEos => rw [engineStep_dEos hp] at h; cases h; simp [Phase.successors]

/-! ## The commands and the whole machine -/

theorem acceptBuild_phase (s : State) : (acceptBuild s).phase ∈ commandPhases := by
  rcases acceptBuild_cases s with ⟨_, h⟩ | ⟨_, h⟩ <;> simp [h, commandPhases]

theorem acceptEmit_phase (p : Phase) (s : State) :
    (acceptEmit p s).phase = p ∨ (acceptEmit p s).phase = .idle := by
  rcases acceptEmit_cases p s with ⟨_, h⟩ | ⟨_, h⟩ <;> simp [h]

theorem exec_phase {i : Instr} {s t : State} (h : exec i s = .next t) :
    t.phase = s.phase ∨ t.phase ∈ commandPhases := by
  rcases exec_cases h with ⟨_, rfl⟩ | ⟨_, _, rfl⟩ | ⟨_, h⟩
  · simp [commandPhases]
  · exact .inl rfl
  · rcases h with ⟨_, rfl⟩ | ⟨_, _, rfl⟩ | ⟨_, _, rfl⟩ | ⟨_, rfl⟩ | ⟨_, rfl⟩ | ⟨_, rfl⟩ | ⟨_, rfl⟩
    · exact .inl rfl
    · exact .inl rfl
    · simp [commandPhases]
    · exact .inr (acceptBuild_phase s)
    · simp [commandPhases]
    · rcases acceptEmit_phase .eLen s with ht | ht <;> simp [ht, commandPhases]
    · rcases acceptEmit_phase (if s.len = 0#32 then .dEos else .dData) s with ht | ht
      · rw [ht]; split <;> simp [commandPhases]
      · simp [ht, commandPhases]

theorem writeCmd_phase {w : Word} {s t : State} (h : writeCmd w s = .next t) :
    t.phase = s.phase ∨ t.phase ∈ commandPhases := by
  rcases writeCmd_cases h with ⟨_, _, h⟩ | ⟨_, h⟩
  · exact exec_phase h
  · rcases illegalCommand_cases h with ⟨_, rfl⟩ | ⟨_, rfl⟩
    · simp [commandPhases]
    · exact .inl rfl

/-- The host's action leaves PHASE, is a command or a reset, or gives the engine a step from the same phase. -/
theorem hostStep_phase {a : HostAct} {rest : List HostAct} {s t : State}
    (h : hostStep a rest s = .next t) :
    t.phase = s.phase ∨ t.phase ∈ commandPhases ∨ ∃ u, u.phase = s.phase ∧ engineStep u = .next t := by
  rcases hostStep_cases h with ⟨_, _, rfl⟩ | ⟨_, _, h⟩ | ⟨_, _, rfl⟩ | ⟨_, _, _, _, _, rfl⟩ | ⟨_, _, rfl⟩ |
    ⟨_, _, _, _, _, rfl⟩ | ⟨_, _, rfl⟩ | ⟨_, _, h⟩ | ⟨_, rfl⟩ | ⟨_, h⟩
  · exact .inl rfl
  · exact (writeCmd_phase h).imp_right .inl
  · exact .inl rfl
  · exact .inl rfl
  · exact .inl rfl
  · exact .inl rfl
  · exact .inl rfl
  · exact .inr (.inr ⟨s, rfl, h⟩)
  · simp [commandPhases]
  · exact .inr (.inr ⟨{ s with script := rest }, rfl, h⟩)

/-- One step leaves PHASE, begins or ends a command by the host's action, or is a step of the engine. -/
theorem step_phase {s t : State} (h : step s = .next t) :
    t.phase = s.phase ∨ t.phase ∈ commandPhases ∨ ∃ u, u.phase = s.phase ∧ engineStep u = .next t := by
  rcases step_cases h with ⟨_, h⟩ | ⟨_, _, _, h⟩
  · exact .inr (.inr ⟨s, rfl, h⟩)
  · exact hostStep_phase h

/-- A phase that no command begins with is entered by a step of the engine along the graph. -/
theorem engineStep_of_phase_entered {s t : State} (h : step s = .next t) (hne : t.phase ≠ s.phase)
    (hc : t.phase ∉ commandPhases) :
    ∃ u, t.phase ∈ u.phase.successors ∧ engineStep u = .next t := by
  rcases step_phase h with ht | ht | ⟨u, hu, h⟩
  · exact absurd ht hne
  · exact absurd ht hc
  · exact ⟨u, (engineStep_phase h).resolve_left (hu ▸ hne), h⟩

end Sys2Proof.Machine

/-! # The frame parser

PARSE and its token steps. Each token step is the byte rule of its phase on the state whose head token is
popped, or TruncatedChunk on an EOS (42_frame_parser.md R160 to R165). -/

namespace Sys2Proof.Machine

open Sys2Proof

/-- Settles O11, by the acceptance of a command that tests nothing but BUSY. -/
theorem parseAcceptance : Obligations.ParseAcceptance :=
  ⟨decode_encode .parse, fun _ => ⟨fun hp => whenIdle_idle hp, exec_busy (by decide)⟩⟩

/-! ## One token -/

section
variable {s : State} {b : Byte} {rest : List Token} (hs : s.script = [])
include hs

theorem step_pLen_byte (hp : s.phase = .pLen) (hq : s.inq = .byte b :: rest) :
    step s = parseLenByte b { s with inq := rest } := by
  rw [step_nil hs, engineStep_pLen hp, parseLenStep, consume_byte hq, inPop_cons hq]

theorem step_pType_byte (hp : s.phase = .pType) (hq : s.inq = .byte b :: rest) :
    step s = parseTypeByte b { s with inq := rest } := by
  rw [step_nil hs, engineStep_pType hp, parseTypeStep, consume_byte hq, inPop_cons hq]

theorem step_pData_byte (hp : s.phase = .pData) (hq : s.inq = .byte b :: rest) :
    step s = parseDataByte b { s with inq := rest } := by
  rw [step_nil hs, engineStep_pData hp, parseDataStep, consume_byte hq, inPop_cons hq]

theorem step_pCrc_byte (hp : s.phase = .pCrc) (hq : s.inq = .byte b :: rest) :
    step s = parseCrcByte b { s with inq := rest } := by
  rw [step_nil hs, engineStep_pCrc hp, parseCrcStep, consume_byte hq, inPop_cons hq]

/-- EOS in any of the four phases is TruncatedChunk (R165). -/
theorem step_parse_eos (hp : s.phase ∈ [Phase.pLen, .pType, .pData, .pCrc])
    (hq : s.inq = .eos :: rest) :
    step s = .next { s with inq := rest, err := 2#4, phase := .idle } := by
  have hstep : engineStep s = parseEos (inPop s) := by
    simp only [List.mem_cons, List.not_mem_nil, or_false] at hp
    rcases hp with hp | hp | hp | hp
    · exact (engineStep_pLen hp).trans (consume_eos hq)
    · exact (engineStep_pType hp).trans (consume_eos hq)
    · exact (engineStep_pData hp).trans (consume_eos hq)
    · exact (engineStep_pCrc hp).trans (consume_eos hq)
  rw [step_nil hs, hstep, inPop_cons hq]
  rfl

end

/-! ## P_LEN -/

theorem parseLenByte_last {s : State} (b : Byte) (h : s.idx = 3#32) :
    parseLenByte b s = .next (enterPhase .pType { s with len := shiftIn s.len b, typ := 0#32, acc := crcInit }) :=
  if_pos h

theorem parseLenByte_early {s : State} (b : Byte) (h : s.idx ≠ 3#32) :
    parseLenByte b s = .next (advance { s with len := shiftIn s.len b }) :=
  if_neg h

/-- Settles O29, by the byte rule of P_LEN before and at the fourth byte. -/
theorem lengthFieldStep : Obligations.LengthFieldStep := by
  refine ⟨fun s hs hp => ⟨fun b rest hq => ⟨fun h3 => ?_, fun h3 => ?_⟩, fun rest hq => ?_⟩,
    shiftIn_four 0#32⟩
  · exact (step_pLen_byte hs hp hq).trans (parseLenByte_last b h3)
  · exact (step_pLen_byte hs hp hq).trans (parseLenByte_early b h3)
  · exact step_parse_eos hs (by simp [hp]) hq

/-! ## P_TYPE -/

theorem parseTypeByte_last {s : State} (b : Byte) (h : s.idx = 3#32) :
    parseTypeByte b s =
      .next (parseTypeTests { s with typ := shiftIn s.typ b, acc := crcUpdate s.acc b }) :=
  if_pos h

theorem parseTypeByte_early {s : State} (b : Byte) (h : s.idx ≠ 3#32) :
    parseTypeByte b s = .next (advance { s with typ := shiftIn s.typ b, acc := crcUpdate s.acc b }) :=
  if_neg h

/-! The three tests in their order: the result of each when those before it have passed. -/

theorem parseTypeTests_not_alpha {s : State} (ha : alpha4 s.typ = false) :
    parseTypeTests s = raiseError .invalidChunkType s := by
  simp [parseTypeTests, ha]

theorem parseTypeTests_capacity {s : State} (ha : alpha4 s.typ = true) (hl : s.cap.toNat < s.len.toNat) :
    parseTypeTests s = raiseError .capacity s := by
  simp [parseTypeTests, ha, hl]

/-- With LEN = 0 the capacity test passes whatever the capacity. -/
theorem parseTypeTests_empty {s : State} (ha : alpha4 s.typ = true) (hl : s.len = 0#32) :
    parseTypeTests s = enterPhase .pCrc { s with scrc := 0#32 } := by
  simp [parseTypeTests, ha, hl]

theorem parseTypeTests_payload {s : State} (ha : alpha4 s.typ = true) (hl : s.len.toNat ≤ s.cap.toNat)
    (h0 : s.len ≠ 0#32) : parseTypeTests s = enterPhase .pData s := by
  simp [parseTypeTests, ha, Nat.not_lt.2 hl, h0]

/-- Settles O30, by the outcomes of the three tests on the TYP that the fourth byte completes. -/
theorem typeFieldStep : Obligations.TypeFieldStep := by
  refine fun s hs hp => ⟨?_, fun rest hq => step_parse_eos hs (by simp [hp]) hq⟩
  rintro b rest _ hq rfl
  have hlast (h3 : s.idx = 3#32) := (step_pType_byte hs hp hq).trans (parseTypeByte_last b h3)
  refine ⟨fun h3 => ?_, fun h3 ha => ?_, fun h3 ha hl => ?_, fun h3 ha hl => ?_, fun h3 ha hl h0 => ?_⟩
  · exact (step_pType_byte hs hp hq).trans (parseTypeByte_early b h3)
  · exact (hlast h3).trans (congrArg _ (parseTypeTests_not_alpha ha))
  · exact (hlast h3).trans (congrArg _ (parseTypeTests_capacity ha hl))
  · exact (hlast h3).trans (congrArg _ (parseTypeTests_empty ha hl))
  · exact (hlast h3).trans (congrArg _ (parseTypeTests_payload ha hl h0))

/-! ## P_DATA -/

theorem Phase.eq_pType_of_pData_mem_successors {p : Phase} (h : .pData ∈ p.successors) : p = .pType := by
  cases p with
  | pType => rfl
  | _ => simp [Phase.successors] at h

/-- P_DATA is entered from P_TYPE only, past the capacity test and the test for an empty payload. -/
theorem len_bounds_of_pData_entered {s t : State} (h : step s = .next t) (hs : s.phase ≠ .pData)
    (ht : t.phase = .pData) : 1 ≤ t.len.toNat ∧ t.len.toNat ≤ t.cap.toNat := by
  obtain ⟨u, hmem, h⟩ := engineStep_of_phase_entered h (ht ▸ hs.symm) (by rw [ht]; decide)
  have hu : u.phase = .pType := Phase.eq_pType_of_pData_mem_successors (ht ▸ hmem)
  rw [engineStep_pType hu] at h
  rcases parseTypeStep_cases h with ⟨_, rfl⟩ | ⟨_, _, _, _, _, _, _, h⟩ | ⟨_, _, rfl⟩
  · simp [hu] at ht
  · rcases h with ⟨_, _, rfl⟩ | ⟨_, _, _, rfl⟩ | ⟨_, _, _, rfl⟩ | ⟨_, _, h0, hcap, rfl⟩ | ⟨_, rfl⟩
    · cases ht
    · cases ht
    · cases ht
    · exact ⟨Nat.pos_of_ne_zero fun hz => h0 (BitVec.eq_of_toNat_eq hz), hcap⟩
    · simp [hu] at ht
  · cases ht

/-- A byte at an index of BUF is stored there, and P_CRC begins after the last one. -/
theorem parseDataByte_next {s : State} (b : Byte) (h : s.idx.toNat < s.cap.toNat) :
    parseDataByte b s =
      .next
        (if s.idx = s.len - 1#32 then
          enterPhase .pCrc { s with
            buf := s.buf.write s.idx.toNat b, acc := crcUpdate s.acc b, scrc := 0#32 }
        else
          advance { s with buf := s.buf.write s.idx.toNat b, acc := crcUpdate s.acc b }) := by
  simp only [parseDataByte, bufWrite_of_lt b h]
  split
  · rfl
  · rfl

/-- Settles O31: the entry by the tests of P_TYPE, the step by the rule of a read after a write to BUF. -/
theorem payloadStepStoresOneByte : Obligations.PayloadStepStoresOneByte := by
  refine ⟨fun s t => len_bounds_of_pData_entered, fun s hs hp hwf hidx hlen => ⟨fun b rest hq => ?_,
    fun rest hq => step_parse_eos hs (by simp [hp]) hq⟩⟩
  have hstep := (step_pData_byte hs hp hq).trans
    (parseDataByte_next (s := { s with inq := rest }) b (hidx.trans_le hlen))
  refine ⟨_, hstep, fun a => ?_, fun hlast => ?_, fun hlast => ?_⟩
  · rw [apply_ite State.buf]
    simp [Memory.read_write _ b a hwf]
  · rw [if_pos hlast]; rfl
  · rw [if_neg hlast]; rfl

/-! ## P_CRC -/

theorem parseCrcByte_last {s : State} (b : Byte) (h : s.idx = 3#32) :
    parseCrcByte b s = .next (parseCrcTest { s with scrc := shiftIn s.scrc b }) :=
  if_pos h

theorem parseCrcByte_early {s : State} (b : Byte) (h : s.idx ≠ 3#32) :
    parseCrcByte b s = .next (advance { s with scrc := shiftIn s.scrc b }) :=
  if_neg h

theorem parseCrcTest_match {s : State} (h : s.scrc = crcFinal s.acc) :
    parseCrcTest s = finish { s with crcr := crcFinal s.acc, cv := true } :=
  if_pos h

theorem parseCrcTest_mismatch {s : State} (h : s.scrc ≠ crcFinal s.acc) :
    parseCrcTest s = raiseError .crcMismatch s :=
  if_neg h

/-- Settles O32, by the two outcomes of the checker on the SCRC that the fourth byte completes. -/
theorem storedCrcStep : Obligations.StoredCrcStep := by
  refine fun s hs hp => ⟨?_, fun rest hq => step_parse_eos hs (by simp [hp]) hq⟩
  rintro b rest _ hq rfl
  have hlast (h3 : s.idx = 3#32) := (step_pCrc_byte hs hp hq).trans (parseCrcByte_last b h3)
  refine ⟨fun h3 => ?_, fun h3 heq => ?_, fun h3 hne => ?_⟩
  · exact (step_pCrc_byte hs hp hq).trans (parseCrcByte_early b h3)
  · exact (hlast h3).trans (congrArg _ (parseCrcTest_match heq))
  · exact (hlast h3).trans (congrArg _ (parseCrcTest_mismatch hne))

end Sys2Proof.Machine

/-! # The chunk builder

BUILD and its token steps: the acceptance, what each token gives in B_DATA, and that B_DATA reads nothing
of the host's side but INQ (43_chunk_builder.md R190 to R192). -/

namespace Sys2Proof.Machine

open Sys2Proof

/-! ## One token -/

section
variable {s : State} {b : Byte} {rest : List Token}

theorem buildStep_full (hq : s.inq = .byte b :: rest) (hfull : s.idx = s.cap) :
    buildStep s = .next { s with inq := rest, err := 9#4, phase := .idle } := by
  rw [buildStep, consume_byte hq, inPop_cons hq]
  exact if_pos hfull

theorem buildStep_store (hq : s.inq = .byte b :: rest) (hlt : s.idx.toNat < s.cap.toNat) :
    buildStep s = .next { s with
      inq := rest, buf := s.buf.write s.idx.toNat b, acc := crcUpdate s.acc b, idx := s.idx + 1#32 } := by
  have hne : s.idx ≠ s.cap := fun h => absurd (congrArg BitVec.toNat h) hlt.ne
  rw [buildStep, consume_byte hq, inPop_cons hq, buildByte, if_neg hne,
    bufWrite_of_lt (s := { s with inq := rest }) b hlt]
  rfl

theorem buildStep_eos (hq : s.inq = .eos :: rest) :
    buildStep s = .next { s with
      inq := rest, len := s.idx, crcr := crcFinal s.acc, cv := true, err := 0#4, phase := .idle } := by
  rw [buildStep, consume_eos hq, inPop_cons hq]
  rfl

end

/-- Settles O33, by the outcome of each token; a stored byte by the rule of a read after a write to BUF. -/
theorem buildStepStoresOneByteOrCompletes : Obligations.BuildStepStoresOneByteOrCompletes := by
  intro s hs hp hwf hidx
  have hstep : step s = buildStep s := (step_nil hs).trans (engineStep_bData hp)
  refine ⟨fun b rest hq => ⟨fun hfull => ?_, fun hne => ?_⟩, fun rest hq => ?_⟩
  · exact hstep.trans (buildStep_full hq hfull)
  · have hlt : s.idx.toNat < s.cap.toNat :=
      lt_of_le_of_ne hidx fun h => hne (BitVec.eq_of_toNat_eq h)
    exact ⟨_, hstep.trans (buildStep_store hq hlt), fun a => Memory.read_write _ b a hwf, rfl⟩
  · exact hstep.trans (buildStep_eos hq)

/-! ## B_DATA reads neither TVIN nor the host's own state -/

theorem buildStep_ignores_tvin_and_host {s t : State} (v : Word) (sc : List HostAct) (se : List HostObs)
    (h : buildStep s = .next t) :
    buildStep { s with tvin := v, script := sc, seen := se } =
      .next { t with tvin := v, script := sc, seen := se } := by
  rcases buildStep_cases h with ⟨hq, rfl⟩ | ⟨b, rest, hq, hfull, rfl⟩ | ⟨b, rest, hq, _, hlt, rfl⟩ |
    ⟨rest, hq, rfl⟩
  · exact consume_nil hq
  · exact buildStep_full hq hfull
  · exact buildStep_store hq hlt
  · exact buildStep_eos hq

/-! ## The acceptance -/

theorem exec_build_alpha {s : State} (hp : s.phase = .idle) (ha : alpha4 s.tvin = true) :
    exec .build s =
      .next { s with
        cv := false, err := 0#4, typ := s.tvin, acc := crcFold crcInit (be32 s.tvin), idx := 0#32,
        phase := .bData } :=
  (whenIdle_idle hp).trans (congrArg _ (if_pos ha))

theorem exec_build_not_alpha {s : State} (hp : s.phase = .idle) (ha : alpha4 s.tvin = false) :
    exec .build s = .next { s with cv := false, err := 1#4 } := by
  have hraise : acceptBuild s = raiseError .invalidChunkType { s with cv := false } :=
    if_neg (by simp [ha])
  refine (whenIdle_idle hp).trans ?_
  rw [hraise, raiseError_of_idle _ (s := { s with cv := false }) hp]
  rfl

/-- Settles O10, by the two outcomes of the alphabetic test, and by the frame of B_DATA for the reading of
TVIN. -/
theorem buildAcceptance : Obligations.BuildAcceptance := by
  refine ⟨decode_encode .build, fun s hp => ⟨exec_build_alpha hp, exec_build_not_alpha hp⟩,
    fun s => exec_busy (by decide), fun s t v hp h => ?_⟩
  obtain ⟨_, _, _, hscript, hseen⟩ := engineStep_frame h
  have hbuild : buildStep s = .next t := (engineStep_bData hp).symm.trans h
  calc engineStep { s with tvin := v }
      = buildStep { s with tvin := v } := engineStep_bData hp
    _ = .next { t with tvin := v, script := s.script, seen := s.seen } :=
        buildStep_ignores_tvin_and_host v s.script s.seen hbuild
    _ = .next { t with tvin := v } := by rw [← hscript, ← hseen]

end Sys2Proof.Machine

/-! # The serializer

EMIT, EMITD and their token steps. The five phases that send bytes follow one rule, `SendsBytes`: byte IDX of
the sequence is pushed, and the last one begins the next phase (44_serializer.md R210 to R218). -/

namespace Sys2Proof.Machine

open Sys2Proof

/-! ## The acceptance -/

theorem acceptEmit_held {s : State} (p : Phase) (hcv : s.cv = true) :
    acceptEmit p s = { s with err := 0#4, phase := p, idx := 0#32 } :=
  if_pos hcv

theorem acceptEmit_noChunk {s : State} (p : Phase) (hp : s.phase = .idle) (hcv : s.cv = false) :
    acceptEmit p s = { s with err := 8#4 } :=
  (if_neg (by simp [hcv])).trans (raiseError_of_idle .noChunk hp)

/-- Settles O12, by the two outcomes of the test for a chunk held. -/
theorem emitAcceptance : Obligations.EmitAcceptance := by
  refine ⟨decode_encode .emit, fun s => ⟨fun hp hcv => ?_, fun hp hcv => ?_, exec_busy (by decide)⟩⟩
  · exact (whenIdle_idle hp).trans (congrArg _ (acceptEmit_held _ hcv))
  · exact (whenIdle_idle hp).trans (congrArg _ (acceptEmit_noChunk _ hp hcv))

/-- Settles O13, by the test for a chunk held, then the test for an empty payload. -/
theorem emitdAcceptance : Obligations.EmitdAcceptance := by
  refine ⟨decode_encode .emitd, fun s => ⟨fun hp hcv hlen => ?_, fun hp hcv hlen => ?_, fun hp hcv => ?_,
    exec_busy (by decide)⟩⟩
  · refine (whenIdle_idle hp).trans (congrArg _ ?_)
    rw [if_neg hlen, acceptEmit_held _ hcv]
  · refine (whenIdle_idle hp).trans (congrArg _ ?_)
    rw [if_pos hlen, acceptEmit_held _ hcv]
  · exact (whenIdle_idle hp).trans (congrArg _ (acceptEmit_noChunk _ hp hcv))

/-! ## The phases that send bytes -/

/-- In the phase of s, whatever OUTQ and IDX hold, a step pushes byte IDX of f and advances, and the step of
the n-th byte begins phase p instead. -/
def SendsBytes (f : Nat → Byte) (n : Word) (p : Phase) (s : State) : Prop :=
  ∀ (o : List Token) (i : Word), i.toNat < n.toNat →
    step { s with outq := o, idx := i } =
      .next (if i = n - 1#32 then { s with outq := o ++ [.byte (f i.toNat)], phase := p, idx := 0#32 }
        else { s with outq := o ++ [.byte (f i.toNat)], idx := i + 1#32 })

theorem sendsBytes_of_emitFieldByte {v : Word} {p : Phase} {s : State} (hs : s.script = [])
    (h : ∀ o i, engineStep { s with outq := o, idx := i } = emitFieldByte v p { s with outq := o, idx := i }) :
    SendsBytes (byteK · v) 4#32 p s :=
  fun o i hi => (step_nil (s := { s with outq := o, idx := i }) hs).trans
    ((h o i).trans (emitFieldByte_next hi))

theorem sendsBytes_of_emitPayloadByte {p : Phase} {s : State} (hlen : s.len.toNat ≤ s.cap.toNat)
    (hs : s.script = [])
    (h : ∀ o i, engineStep { s with outq := o, idx := i } = emitPayloadByte p { s with outq := o, idx := i }) :
    SendsBytes s.buf.read s.len p s :=
  fun o i hi => (step_nil (s := { s with outq := o, idx := i }) hs).trans
    ((h o i).trans (emitPayloadByte_next (hi.trans_le hlen)))

section
variable {s : State} (hs : s.script = [])
include hs

theorem sendsBytes_eLen (hp : s.phase = .eLen) : SendsBytes (byteK · s.len) 4#32 .eType s :=
  sendsBytes_of_emitFieldByte hs fun _ _ => engineStep_eLen hp

theorem sendsBytes_eType (hp : s.phase = .eType) :
    SendsBytes (byteK · s.typ) 4#32 (if s.len = 0#32 then .eCrc else .eData) s :=
  sendsBytes_of_emitFieldByte hs fun _ _ => engineStep_eType hp

theorem sendsBytes_eCrc (hp : s.phase = .eCrc) : SendsBytes (byteK · s.crcr) 4#32 .eEos s :=
  sendsBytes_of_emitFieldByte hs fun _ _ => engineStep_eCrc hp

theorem sendsBytes_eData (hp : s.phase = .eData) (hlen : s.len.toNat ≤ s.cap.toNat) :
    SendsBytes s.buf.read s.len .eCrc s :=
  sendsBytes_of_emitPayloadByte hlen hs fun _ _ => engineStep_eData hp

theorem sendsBytes_dData (hp : s.phase = .dData) (hlen : s.len.toNat ≤ s.cap.toNat) :
    SendsBytes s.buf.read s.len .dEos s :=
  sendsBytes_of_emitPayloadByte hlen hs fun _ _ => engineStep_dData hp

end

/-! ## What such a phase does, byte by byte and as a whole -/

section
variable {f : Nat → Byte} {n : Word} {p : Phase} {s : State}

theorem SendsBytes.step_last (h : SendsBytes f n p s) (hlt : s.idx.toNat < n.toNat)
    (hlast : s.idx = n - 1#32) :
    step s = .next { s with outq := s.outq ++ [.byte (f s.idx.toNat)], phase := p, idx := 0#32 } :=
  (h s.outq s.idx hlt).trans (congrArg _ (if_pos hlast))

theorem SendsBytes.step_early (h : SendsBytes f n p s) (hlt : s.idx.toNat < n.toNat)
    (hearly : s.idx ≠ n - 1#32) :
    step s = .next { s with outq := s.outq ++ [.byte (f s.idx.toNat)], idx := s.idx + 1#32 } :=
  (h s.outq s.idx hlt).trans (congrArg _ (if_neg hearly))

/-- What a phase sends does not depend on OUTQ and IDX, so it is the same all through the phase. -/
theorem SendsBytes.update (h : SendsBytes f n p s) (o : List Token) (i : Word) :
    SendsBytes f n p { s with outq := o, idx := i } :=
  h

/-- The k + 1 bytes that are left take k + 1 steps, by induction on k. -/
theorem SendsBytes.stepMany_rest {k : Nat} (h : SendsBytes f n p s) (hk : s.idx.toNat + (k + 1) = n.toNat) :
    stepMany (k + 1) s = .next { s with
      outq := s.outq ++ ((List.range' s.idx.toNat (k + 1)).map f).map .byte, phase := p, idx := 0#32 } := by
  induction k generalizing s with
  | zero =>
    have hlast : s.idx = n - 1#32 := by bv_omega
    exact stepMany_succ (h.step_last (by omega) hlast)
  | succ k ih =>
    have hearly : s.idx ≠ n - 1#32 := by bv_omega
    have hidx : (s.idx + 1#32).toNat = s.idx.toNat + 1 := by bv_omega
    have hrest := ih (h.update (s.outq ++ [.byte (f s.idx.toNat)]) (s.idx + 1#32))
      (by simp only [hidx]; omega)
    rw [stepMany_succ (h.step_early (by omega) hearly), hrest]
    simp [hidx, List.range'_succ]

/-- From IDX = 0 the n bytes take n steps. -/
theorem SendsBytes.stepMany_all (h : SendsBytes f n p s) (hn : 0 < n.toNat) (h0 : s.idx = 0#32) :
    stepMany n.toNat s = .next { s with
      outq := s.outq ++ ((List.range n.toNat).map f).map .byte, phase := p, idx := 0#32 } := by
  obtain ⟨k, hk⟩ : ∃ k, n.toNat = k + 1 := ⟨n.toNat - 1, by omega⟩
  have hrest := h.stepMany_rest (k := k) (by simp [h0, hk])
  rwa [← hk, show s.idx.toNat = 0 by simp [h0], ← List.range_eq_range'] at hrest

/-- A 4-byte field is sent whole, most significant byte first (R16). -/
theorem SendsBytes.stepMany_field {v : Word} (h : SendsBytes (byteK · v) 4#32 p s) (h0 : s.idx = 0#32) :
    stepMany 4 s = .next { s with outq := s.outq ++ (be32 v).map .byte, phase := p, idx := 0#32 } :=
  h.stepMany_all (by decide) h0

end

/-- Settles O34, by the rule of a sending phase for each of the three fields. -/
theorem emitFieldSteps : Obligations.EmitFieldSteps := by
  refine fun s hs hlt => ⟨fun hp => ?_, fun hp => ?_, fun hp => ?_⟩
  · have h := sendsBytes_eLen hs hp
    exact ⟨h.step_last hlt, h.step_early hlt, h.stepMany_field⟩
  · have h := sendsBytes_eType hs hp
    refine ⟨fun h3 hl => ?_, fun h3 hl => ?_, h.step_early hlt, h.stepMany_field⟩
    · rw [if_pos hl] at h; exact h.step_last hlt h3
    · rw [if_neg hl] at h; exact h.step_last hlt h3
  · have h := sendsBytes_eCrc hs hp
    exact ⟨h.step_last hlt, h.step_early hlt, h.stepMany_field⟩

/-! ## The payload phases are entered with a payload -/

theorem one_le_toNat_of_ne_zero {v : Word} (h : v ≠ 0#32) : 1 ≤ v.toNat := by bv_omega

theorem Phase.eq_eType_of_eData_mem_successors {p : Phase} (h : .eData ∈ p.successors) : p = .eType := by
  cases p with
  | eType => rfl
  | _ => simp [Phase.successors] at h

theorem Phase.dData_not_mem_successors (p : Phase) : .dData ∉ p.successors := by
  cases p <;> simp [Phase.successors]

/-- E_DATA is entered from E_TYPE only, past the test for an empty payload. -/
theorem len_pos_of_eData_entered {s t : State} (h : step s = .next t) (hs : s.phase ≠ .eData)
    (ht : t.phase = .eData) : 1 ≤ t.len.toNat := by
  obtain ⟨u, hmem, h⟩ := engineStep_of_phase_entered h (ht ▸ hs.symm) (by rw [ht]; decide)
  have hu : u.phase = .eType := Phase.eq_eType_of_eData_mem_successors (ht ▸ hmem)
  rw [engineStep_eType hu] at h
  obtain ⟨_, _, _, ⟨_, rfl⟩ | ⟨_, rfl⟩⟩ := emitFieldByte_cases h
  · refine one_le_toNat_of_ne_zero fun hl : u.len = 0#32 => ?_
    simp [hl] at ht
  · simp [hu] at ht

/-- A phase that no step of the engine leads to, IDLE left out, is entered by a write of CMD only. -/
theorem writeCmd_of_phase_entered {s t : State} (h : step s = .next t) (hne : t.phase ≠ s.phase)
    (hidle : t.phase ≠ .idle) (hsucc : ∀ p : Phase, t.phase ∉ p.successors) :
    ∃ w rest, writeCmd w { s with script := rest } = .next t := by
  have hengine {u : State} (hu : u.phase = s.phase) (h : engineStep u = .next t) : False :=
    (engineStep_phase h).elim (fun hp => hne (hp.trans hu)) (hsucc _)
  rcases step_cases h with ⟨_, h⟩ | ⟨a, rest, _, h⟩
  · exact (hengine rfl h).elim
  · rcases hostStep_cases h with ⟨_, _, rfl⟩ | ⟨w, _, h⟩ | ⟨_, _, rfl⟩ | ⟨_, _, _, _, _, rfl⟩ | ⟨_, _, rfl⟩ |
      ⟨_, _, _, _, _, rfl⟩ | ⟨_, _, rfl⟩ | ⟨_, _, h⟩ | ⟨_, rfl⟩ | ⟨_, h⟩
    · exact absurd rfl hne
    · exact ⟨w, rest, h⟩
    · exact absurd rfl hne
    · exact absurd rfl hne
    · exact absurd rfl hne
    · exact absurd rfl hne
    · exact absurd rfl hne
    · exact (hengine rfl h).elim
    · exact absurd rfl hidle
    · exact (hengine (u := { s with script := rest }) rfl h).elim

/-- The only command that begins D_DATA is EMITD, past the test for an empty payload. -/
theorem len_pos_of_exec_dData {i : Instr} {s t : State} (h : exec i s = .next t) (hs : s.phase ≠ .dData)
    (ht : t.phase = .dData) : 1 ≤ t.len.toNat := by
  rcases exec_cases h with ⟨_, rfl⟩ | ⟨_, _, rfl⟩ | ⟨_, h⟩
  · cases ht
  · exact absurd ht hs
  · rcases h with ⟨_, rfl⟩ | ⟨_, _, rfl⟩ | ⟨_, _, rfl⟩ | ⟨_, rfl⟩ | ⟨_, rfl⟩ | ⟨_, rfl⟩ | ⟨_, rfl⟩
    · exact absurd ht hs
    · exact absurd ht hs
    · cases ht
    · rcases acceptBuild_cases s with ⟨_, h⟩ | ⟨_, h⟩ <;> simp [h] at ht
    · cases ht
    · rcases acceptEmit_cases .eLen s with ⟨_, h⟩ | ⟨_, h⟩ <;> simp [h] at ht
    · rcases acceptEmit_cases (if s.len = 0#32 then .dEos else .dData) s with ⟨_, h⟩ | ⟨_, h⟩
      · rw [h] at ht ⊢
        refine one_le_toNat_of_ne_zero fun hl : s.len = 0#32 => ?_
        simp [hl] at ht
      · simp [h] at ht

/-- D_DATA is entered by EMITD only. -/
theorem len_pos_of_dData_entered {s t : State} (h : step s = .next t) (hs : s.phase ≠ .dData)
    (ht : t.phase = .dData) : 1 ≤ t.len.toNat := by
  obtain ⟨w, rest, h⟩ := writeCmd_of_phase_entered h (ht ▸ hs.symm) (by simp [ht])
    (ht ▸ Phase.dData_not_mem_successors)
  rcases writeCmd_cases h with ⟨i, _, h⟩ | ⟨_, h⟩
  · exact len_pos_of_exec_dData h hs ht
  · rcases illegalCommand_cases h with ⟨_, rfl⟩ | ⟨_, rfl⟩
    · cases ht
    · exact absurd ht hs

/-- Settles O35: the entries by what can begin each phase, the steps by the rule of a sending phase. -/
theorem emitPayloadSteps : Obligations.EmitPayloadSteps := by
  refine ⟨fun s t h => ⟨len_pos_of_eData_entered h, len_pos_of_dData_entered h⟩,
    fun s p hs hphase hlt hlen => ?_⟩
  have h : SendsBytes s.buf.read s.len p s := by
    rcases hphase with ⟨hp, rfl⟩ | ⟨hp, rfl⟩
    · exact sendsBytes_eData hs hp hlen
    · exact sendsBytes_dData hs hp hlen
  exact ⟨h.step_last hlt, h.step_early hlt, h.stepMany_all (by omega)⟩

/-! ## The closing EOS -/

/-- Settles O36, by the one step that both phases share. -/
theorem emitClosesWithEos : Obligations.EmitClosesWithEos := by
  rintro s hs (hp | hp)
  · exact (step_nil hs).trans ((engineStep_eEos hp).trans (emitClose_next s))
  · exact (step_nil hs).trans ((engineStep_dEos hp).trans (emitClose_next s))

end Sys2Proof.Machine

/-! # Control and register access

The write of CMD in the order of its tests, NOP, SRST, the illegal command, a command written while busy, and
the register port (45_control_and_register_access.md R230 to R236). -/

namespace Sys2Proof.Machine

open Sys2Proof

/-! ## NOP and SRST -/

theorem exec_nop_idle {s : State} (hp : s.phase = .idle) : exec .nop s = .next { s with err := 0#4 } :=
  whenIdle_idle hp

theorem exec_srst (s : State) : exec .srst s = .next (softReset s) := rfl

/-- Settles O8, by the acceptance of a command that tests nothing but BUSY. -/
theorem nopClearsErrAlone : Obligations.NopClearsErrAlone :=
  ⟨decode_encode .nop, fun _ => ⟨exec_nop_idle, exec_busy (by decide)⟩⟩

/-- Settles O14: SRST is the soft reset, whose items are read off, and every other command is discarded while
busy. -/
theorem srstGivesEveryItemItsResetValue : Obligations.SrstGivesEveryItemItsResetValue := by
  refine ⟨decode_encode .srst, fun s => ⟨softReset s, exec_srst s, ?_⟩, fun s i hp hi => exec_busy hi hp⟩
  simp [crcInit]

/-! ## The illegal command -/

theorem illegalCommand_idle {s : State} (hp : s.phase = .idle) :
    illegalCommand s = .next { s with err := 10#4 } :=
  (whenIdle_idle hp).trans (congrArg _ (raiseError_of_idle .illegalCommand hp))

/-- Settles O6: a word above 6 is the illegal command, which is accepted as every command but SRST is. -/
theorem illegalCommandWord : Obligations.IllegalCommandWord := by
  intro s w rest hs hw
  have hstep : step s = illegalCommand { s with script := rest } :=
    (step_wr_cmd hs).trans (writeCmd_of_gt_six hw _)
  exact ⟨fun hp => hstep.trans (illegalCommand_idle hp), fun hp => hstep.trans (whenIdle_busy hp)⟩

/-! ## The order of the tests -/

/-- Every accepted command sets ERR itself: what a command does while idle does not depend on the ERR before. -/
theorem exec_idle_ignores_err (i : Instr) {s : State} (e : BitVec 4) (hp : s.phase = .idle) :
    exec i { s with err := e } = exec i s := by
  have haccept {t u : State} (h : t = u) : whenIdle { s with err := e } t = whenIdle s u := by
    rw [whenIdle_idle hp, whenIdle_idle (s := { s with err := e }) hp, h]
  cases i with
  | nop => exact haccept rfl
  | tchk => exact haccept rfl
  | build => exact haccept rfl
  | parse => exact haccept rfl
  | emit => exact haccept rfl
  | emitd => exact haccept rfl
  | srst => rfl

/-- The new ERR of an accepted CMD write does not depend on the old one (R232). -/
theorem writeCmd_ignores_err {w : Word} {s : State} (e : BitVec 4)
    (hacc : s.phase = .idle ∨ w = 0x00000006#32) : writeCmd w { s with err := e } = writeCmd w s := by
  rcases hacc with hp | rfl
  · rcases eq_encode_or_gt_six w with ⟨i, rfl⟩ | hw
    · rw [writeCmd_encode, writeCmd_encode, exec_idle_ignores_err i e hp]
    · rw [writeCmd_of_gt_six hw, writeCmd_of_gt_six hw, illegalCommand_idle hp,
        illegalCommand_idle (s := { s with err := e }) hp]
  · rfl

/-- Settles O5: each word against the table, and each test on what the write of that word is. -/
theorem cmdWriteTestsInOrder : Obligations.CmdWriteTestsInOrder := by
  intro s w rest hs
  have hexec (i : Instr) (hw : w = encode i) : step s = exec i { s with script := rest } := by
    rw [step_wr_cmd hs, hw, writeCmd_encode]
  refine ⟨hexec .srst, fun hw hp => (step_wr_cmd hs).trans (writeCmd_busy hp hw), fun hp => ?_, fun hacc e => ?_⟩
  · exact ⟨hexec .nop, hexec .tchk, hexec .build, hexec .parse, hexec .emit, hexec .emitd,
      fun hw => (illegalCommandWord s w rest hs hw).1 hp⟩
  · rw [step_wr_cmd hs, step_wr_cmd (s := { s with err := e }) hs]
    exact writeCmd_ignores_err (s := { s with script := rest }) e hacc

/-! ## The register port -/

@[simp] theorem Reg.index_ofIndex (n : BitVec 3) : (Reg.ofIndex n).index = n := by
  revert n; decide

theorem Reg.ofIndex_eq_iff {n : BitVec 3} {r : Reg} : Reg.ofIndex n = r ↔ n = r.index :=
  ⟨fun h => by rw [← h, index_ofIndex], fun h => by rw [h, ofIndex_index]⟩

theorem step_wr_tvin {s : State} {v : Word} {rest : List HostAct} (h : s.script = .wr .tvin v :: rest) :
    step s = .next { s with script := rest, tvin := v } :=
  step_cons h

/-- STATUS as the sum of R35: no term overflows into another. -/
theorem toNat_statusWord (s : State) :
    (statusWord s).toNat =
      (if s.ovr then 4 else 0) + (if s.cv then 2 else 0) + (if s.phase = .idle then 0 else 1) +
        s.err.toNat * 16 := by
  have herr := s.err.isLt
  have hsum : (statusWord s).toNat =
      s.ovr.toNat * 4 + s.cv.toNat * 2 + (busy s).toNat + s.err.toNat * 16 := by
    have ho := s.ovr.toNat_le
    have hc := s.cv.toNat_le
    have hb := (busy s).toNat_le
    rw [statusWord_eq_append, BitVec.toNat_setWidth]
    simp only [toNat_append_ofBool, Bool.toNat_false]
    omega
  rw [hsum]
  simp [Bool.toNat, Bool.cond_eq_ite, busy]

/-- Settles O18, by the register that each index names. -/
theorem registerReads : Obligations.RegisterReads := by
  refine ⟨Reg.ofIndex_index, fun n => ⟨Reg.index_ofIndex n, by simp [Reg.offset]⟩, fun s n rest hs =>
    ⟨readReg s (Reg.ofIndex n), step_rd hs, ?_, ?_, ?_, ?_, ?_, ?_, ?_, ?_⟩⟩
  all_goals rintro rfl
  · rfl
  · exact toNat_statusWord s
  all_goals rfl

/-- Settles O19: only the indices 0 and 2 name CMD and TVIN, so a write of any other is ignored. -/
theorem registerWrites : Obligations.RegisterWrites := by
  refine ⟨fun s n v rest hs => ⟨?_, ?_, fun h0 h2 => ?_⟩, rfl, rfl, rfl, rfl, rfl, rfl, rfl, rfl⟩
  · rintro rfl; exact step_wr_cmd hs
  · rintro rfl; exact step_wr_tvin hs
  · exact step_wr_readOnly (mt Reg.ofIndex_eq_iff.1 h0) (mt Reg.ofIndex_eq_iff.1 h2) hs

end Sys2Proof.Machine

/-! # OVR

OVR stays until reset or SRST, and a command under way does not read it (45_control_and_register_access.md
R236). The second is one case of a wider fact: a step of the engine reads nothing that its surroundings
write while it is busy. -/

namespace Sys2Proof.Machine

open Sys2Proof

/-! ## OVR stays -/

@[simp] theorem acceptBuild_ovr (s : State) : (acceptBuild s).ovr = s.ovr := by
  rcases acceptBuild_cases s with ⟨_, h⟩ | ⟨_, h⟩ <;> rw [h]

@[simp] theorem acceptEmit_ovr (p : Phase) (s : State) : (acceptEmit p s).ovr = s.ovr := by
  rcases acceptEmit_cases p s with ⟨_, h⟩ | ⟨_, h⟩ <;> rw [h]

theorem engineStep_ovr {s t : State} (h : engineStep s = .next t) : t.ovr = s.ovr := by
  obtain ⟨_, _, hovr, _, _⟩ := engineStep_frame h
  exact hovr

/-- A command other than SRST leaves OVR or sets it. -/
theorem exec_ovr {i : Instr} {s t : State} (h : exec i s = .next t) (ho : s.ovr = true) :
    t.ovr = true ∨ i = .srst := by
  rcases exec_cases h with ⟨hi, _⟩ | ⟨_, _, rfl⟩ | ⟨_, h⟩
  · exact .inr hi
  · exact .inl rfl
  · left
    rcases h with ⟨_, rfl⟩ | ⟨_, _, rfl⟩ | ⟨_, _, rfl⟩ | ⟨_, rfl⟩ | ⟨_, rfl⟩ | ⟨_, rfl⟩ | ⟨_, rfl⟩ <;> simp [ho]

theorem writeCmd_ovr {w : Word} {s t : State} (h : writeCmd w s = .next t) (ho : s.ovr = true) :
    t.ovr = true ∨ w = encode .srst := by
  rcases writeCmd_cases h with ⟨i, rfl, he⟩ | ⟨_, h⟩
  · exact (exec_ovr he ho).imp_right (congrArg encode)
  · rcases illegalCommand_cases h with ⟨_, rfl⟩ | ⟨_, rfl⟩
    · exact .inl ho
    · exact .inl rfl

theorem hostStep_ovr {a : HostAct} {rest : List HostAct} {s t : State}
    (h : hostStep a rest s = .next t) (ho : s.ovr = true) :
    t.ovr = true ∨ a = .reset ∨ a = .wr .cmd (encode .srst) := by
  rcases hostStep_cases h with ⟨_, _, rfl⟩ | ⟨w, rfl, h⟩ | ⟨_, _, rfl⟩ | ⟨_, _, _, _, _, rfl⟩ | ⟨_, _, rfl⟩ |
    ⟨_, _, _, _, _, rfl⟩ | ⟨_, _, rfl⟩ | ⟨_, _, h⟩ | ⟨ha, _⟩ | ⟨_, h⟩
  · exact .inl ho
  · exact (writeCmd_ovr h ho).imp_right fun hw => .inr (congrArg _ hw)
  · exact .inl ho
  · exact .inl ho
  · exact .inl ho
  · exact .inl ho
  · exact .inl ho
  · exact .inl ((engineStep_ovr h).trans ho)
  · exact .inr (.inl ha)
  · exact .inl ((engineStep_ovr h).trans ho)

/-- OVR is sticky: only a reset or SRST clears it. -/
theorem step_ovr {s t : State} (h : step s = .next t) (ho : s.ovr = true) :
    t.ovr = true ∨ s.script.head? = some .reset ∨ s.script.head? = some (.wr .cmd (encode .srst)) := by
  rcases step_cases h with ⟨_, h⟩ | ⟨a, rest, hs, h⟩
  · exact .inl ((engineStep_ovr h).trans ho)
  · simpa [hs] using hostStep_ovr h ho

/-! ## What a command under way does not read -/

/-- What the surroundings of a busy engine write: TVIN and OVR through the register port (R231, R236), tokens
pushed behind those that INQ holds (20_memory.md R61), and the host's own fields. -/
structure Surroundings where
  tvin : Word
  ovr : Bool
  script : List HostAct
  seen : List HostObs
  pushed : List Token

/-- The state s in these surroundings. -/
def Surroundings.put (x : Surroundings) (s : State) : State :=
  { s with tvin := x.tvin, ovr := x.ovr, script := x.script, seen := x.seen, inq := s.inq ++ x.pushed }

/-- What the operation does from a state it does from that state in the surroundings x, and leaves them. -/
def Surroundings.Ignored (x : Surroundings) (f : State → Result) : Prop :=
  ∀ ⦃s t : State⦄, f s = .next t → f (x.put s) = .next (x.put t)

/-! A byte is stored at an index of BUF: a step that stores one at any other faults. -/

theorem idx_lt_cap_of_parseDataByte {b : Byte} {s t : State} (h : parseDataByte b s = .next t) :
    s.idx.toNat < s.cap.toNat := by
  simp only [parseDataByte] at h
  split at h
  · cases h
  · exact (bufWrite_eq_some.1 ‹_›).1

theorem buildByte_full {s : State} (b : Byte) (h : s.idx = s.cap) :
    buildByte b s = .next (raiseError .capacity s) :=
  if_pos h

theorem buildByte_store {s : State} (b : Byte) (h : s.idx.toNat < s.cap.toNat) :
    buildByte b s =
      .next (advance { s with buf := s.buf.write s.idx.toNat b, acc := crcUpdate s.acc b }) := by
  have hne : s.idx ≠ s.cap := fun hfull => absurd (congrArg BitVec.toNat hfull) h.ne
  rw [buildByte, if_neg hne, bufWrite_of_lt b h]

theorem idx_lt_cap_of_buildByte {b : Byte} {s t : State} (hne : s.idx ≠ s.cap)
    (h : buildByte b s = .next t) : s.idx.toNat < s.cap.toNat := by
  rw [buildByte, if_neg hne] at h
  split at h
  · cases h
  · exact (bufWrite_eq_some.1 ‹_›).1

section
variable (x : Surroundings)

theorem ignored_parseEos : x.Ignored parseEos := by
  intro s t h; cases h; rfl

theorem ignored_parseLenByte (b : Byte) : x.Ignored (parseLenByte b) := by
  intro s t h
  by_cases h3 : s.idx = 3#32
  · rw [parseLenByte_last b h3] at h; cases h
    exact parseLenByte_last (s := x.put s) b h3
  · rw [parseLenByte_early b h3] at h; cases h
    exact parseLenByte_early (s := x.put s) b h3

theorem parseTypeTests_put (s : State) : parseTypeTests (x.put s) = x.put (parseTypeTests s) := by
  simp only [parseTypeTests, apply_ite x.put]
  rfl

theorem ignored_parseTypeByte (b : Byte) : x.Ignored (parseTypeByte b) := by
  intro s t h
  by_cases h3 : s.idx = 3#32
  · rw [parseTypeByte_last b h3] at h; cases h
    exact (parseTypeByte_last (s := x.put s) b h3).trans (congrArg _ 
      (parseTypeTests_put x { s with typ := shiftIn s.typ b, acc := crcUpdate s.acc b }))
  · rw [parseTypeByte_early b h3] at h; cases h
    exact parseTypeByte_early (s := x.put s) b h3

theorem ignored_parseDataByte (b : Byte) : x.Ignored (parseDataByte b) := by
  intro s t h
  have hlt := idx_lt_cap_of_parseDataByte h
  rw [parseDataByte_next b hlt] at h; cases h
  rw [parseDataByte_next (s := x.put s) b hlt, apply_ite x.put]
  rfl

theorem parseCrcTest_put (s : State) : parseCrcTest (x.put s) = x.put (parseCrcTest s) := by
  simp only [parseCrcTest, apply_ite x.put]
  rfl

theorem ignored_parseCrcByte (b : Byte) : x.Ignored (parseCrcByte b) := by
  intro s t h
  by_cases h3 : s.idx = 3#32
  · rw [parseCrcByte_last b h3] at h; cases h
    exact (parseCrcByte_last (s := x.put s) b h3).trans (congrArg _ 
      (parseCrcTest_put x { s with scrc := shiftIn s.scrc b }))
  · rw [parseCrcByte_early b h3] at h; cases h
    exact parseCrcByte_early (s := x.put s) b h3

theorem ignored_buildByte (b : Byte) : x.Ignored (buildByte b) := by
  intro s t h
  by_cases hfull : s.idx = s.cap
  · rw [buildByte_full b hfull] at h; cases h
    exact buildByte_full (s := x.put s) b hfull
  · have hlt := idx_lt_cap_of_buildByte hfull h
    rw [buildByte_store b hlt] at h; cases h
    exact buildByte_store (s := x.put s) b hlt

theorem ignored_buildEos : x.Ignored buildEos := by
  intro s t h; cases h; rfl

theorem ignored_emitFieldByte {v : Word} {p : Phase} : x.Ignored (emitFieldByte v p) := by
  intro s t h
  obtain ⟨hlt, _⟩ := emitFieldByte_cases h
  rw [emitFieldByte_next hlt] at h; cases h
  rw [emitFieldByte_next (s := x.put s) hlt, apply_ite x.put]
  rfl

theorem ignored_emitPayloadByte {p : Phase} : x.Ignored (emitPayloadByte p) := by
  intro s t h
  obtain ⟨hlt, _⟩ := emitPayloadByte_cases h
  rw [emitPayloadByte_next hlt] at h; cases h
  rw [emitPayloadByte_next (s := x.put s) hlt, apply_ite x.put]
  rfl

theorem ignored_emitClose : x.Ignored emitClose := by
  intro s t h; cases h; rfl

/-- A consuming step takes the head of INQ, and a token pushed behind it changes nothing. -/
theorem consume_put {s t : State} {onByte : Byte → State → Result} {onEos : State → Result}
    (hbyte : ∀ b, x.Ignored (onByte b)) (heos : x.Ignored onEos) (hwait : s.inq = [] → x.pushed = [])
    (h : consume s onByte onEos = .next t) : consume (x.put s) onByte onEos = .next (x.put t) := by
  have hinq : (x.put s).inq = s.inq ++ x.pushed := rfl
  have hpop {tok : Token} {rest : List Token} (hq : s.inq = tok :: rest) :
      inPop (x.put s) = x.put (inPop s) := by
    simp [inPop, Surroundings.put, hq]
  rcases consume_cases h with ⟨hq, h⟩ | ⟨b, rest, hq, h⟩ | ⟨rest, hq, h⟩
  · cases h
    exact consume_nil (by rw [hinq, hq, hwait hq]; rfl)
  · rw [consume_byte (hinq.trans (congrArg (· ++ x.pushed) hq)), hpop hq]
    exact hbyte b h
  · rw [consume_eos (hinq.trans (congrArg (· ++ x.pushed) hq)), hpop hq]
    exact heos h

/-- A step of the engine reads nothing of its surroundings, but for a token pushed while it waits for one. -/
theorem engineStep_put {s t : State} (hwait : waitsForToken s = true → x.pushed = [])
    (h : engineStep s = .next t) : engineStep (x.put s) = .next (x.put t) := by
  have hnil (hc : s.phase.consumes = true) (hq : s.inq = []) : x.pushed = [] :=
    hwait (by simp [waitsForToken, hc, hq])
  have hstep {f : State → Result} (hs : engineStep s = f s) (hx : engineStep (x.put s) = f (x.put s))
      (hf : f s = .next t → f (x.put s) = .next (x.put t)) : engineStep (x.put s) = .next (x.put t) :=
    hx.trans (hf (hs.symm.trans h))
  cases hp : s.phase with
  | idle => rw [engineStep_idle hp] at h; cases h; exact engineStep_idle hp
  | pLen =>
    exact hstep (engineStep_pLen hp) (engineStep_pLen hp)
      (consume_put x (ignored_parseLenByte x) (ignored_parseEos x) (hnil (congrArg Phase.consumes hp)))
  | pType =>
    exact hstep (engineStep_pType hp) (engineStep_pType hp)
      (consume_put x (ignored_parseTypeByte x) (ignored_parseEos x) (hnil (congrArg Phase.consumes hp)))
  | pData =>
    exact hstep (engineStep_pData hp) (engineStep_pData hp)
      (consume_put x (ignored_parseDataByte x) (ignored_parseEos x) (hnil (congrArg Phase.consumes hp)))
  | pCrc =>
    exact hstep (engineStep_pCrc hp) (engineStep_pCrc hp)
      (consume_put x (ignored_parseCrcByte x) (ignored_parseEos x) (hnil (congrArg Phase.consumes hp)))
  | bData =>
    exact hstep (engineStep_bData hp) (engineStep_bData hp)
      (consume_put x (ignored_buildByte x) (ignored_buildEos x) (hnil (congrArg Phase.consumes hp)))
  | eLen => exact hstep (engineStep_eLen hp) (engineStep_eLen hp) (ignored_emitFieldByte x ·)
  | eType => exact hstep (engineStep_eType hp) (engineStep_eType hp) (ignored_emitFieldByte x ·)
  | eData => exact hstep (engineStep_eData hp) (engineStep_eData hp) (ignored_emitPayloadByte x ·)
  | eCrc => exact hstep (engineStep_eCrc hp) (engineStep_eCrc hp) (ignored_emitFieldByte x ·)
  | eEos => exact hstep (engineStep_eEos hp) (engineStep_eEos hp) (ignored_emitClose x ·)
  | dData => exact hstep (engineStep_dData hp) (engineStep_dData hp) (ignored_emitPayloadByte x ·)
  | dEos => exact hstep (engineStep_dEos hp) (engineStep_dEos hp) (ignored_emitClose x ·)

end

/-- The engine does not read OVR: its step is the same after a discarded command. -/
theorem engineStep_ignores_ovr {s t : State} (o : Bool) (h : engineStep s = .next t) :
    engineStep { s with ovr := o } = .next { t with ovr := o } := by
  obtain ⟨_, htvin, _, hscript, hseen⟩ := engineStep_frame h
  have hput := engineStep_put ⟨s.tvin, o, s.script, s.seen, []⟩ (fun _ => rfl) h
  simpa [Surroundings.put, ← htvin, ← hscript, ← hseen] using hput

/-- Settles O7: what a write while busy does, that OVR is sticky, and that the engine does not read it. -/
theorem commandWhileBusyIsDiscarded : Obligations.CommandWhileBusyIsDiscarded :=
  ⟨fun _ _ => exec_busy, fun _ _ _ hs hw hp => (step_wr_cmd hs).trans (writeCmd_busy hp hw),
    fun _ _ => step_ovr, fun _ _ => engineStep_ignores_ovr true⟩

end Sys2Proof.Machine

/-! # The host container

An accepted file is the signature and then the wire forms of its chunks, since an accepted slice begins with
the wire form of its chunk (42_frame_parser.md R175, R176; 46_host_container.md R253 to R257). A removal by
type splits the list at the first match, and its repetition takes one chunk of the type each time (46 R259 to
R261). -/

namespace Sys2Proof.Machine

open Sys2Proof

/-! ## The bytes of a slice -/

theorem take_append_bytesAt (s : List Byte) (m n : Nat) : s.take m ++ bytesAt s m n = s.take (m + n) :=
  List.take_add.symm

theorem bytesAt_succ {s : List Byte} {off : Nat} (h : off < s.length) (n : Nat) :
    bytesAt s off (n + 1) = s.getD off 0 :: bytesAt s (off + 1) n := by
  rw [bytesAt, List.drop_eq_getElem_cons h, List.take_succ_cons, List.getD_eq_getElem _ _ h, bytesAt]

/-- A field read from four bytes of a slice is written back as those four bytes. -/
theorem be32_wordAt {s : List Byte} {off : Nat} (h : off + 4 ≤ s.length) :
    be32 (wordAt s off) = bytesAt s off 4 := by
  rw [wordAt, be32_fromBe32, bytesAt_succ (by omega), bytesAt_succ (by omega), bytesAt_succ (by omega),
    bytesAt_succ (by omega), bytesAt, List.take_zero]

/-! ## Tests in order -/

/-- A test that raises an error is passed by every success. -/
theorem ite_error_eq_ok_iff {ε α : Type} {p : Prop} [Decidable p] {k : ε} {e : Except ε α} {a : α} :
    (if p then .error k else e) = .ok a ↔ ¬p ∧ e = .ok a := by
  by_cases hp : p <;> simp [hp]

/-! ## The chunk that a slice begins with -/

/-- PARSE's function accepts a slice exactly when it passes every test of R175. -/
theorem parseSlice_eq_ok_iff {cap : Word} {s : List Byte} {c : Chunk} {n : Nat} :
    parseSlice cap s = .ok (c, n) ↔
      alpha4 (wordAt s 4) = true ∧ (wordAt s 0).toNat ≤ cap.toNat ∧ n ≤ s.length ∧
      wordAt s (8 + (wordAt s 0).toNat) = crc32 (bytesAt s 4 (4 + (wordAt s 0).toNat)) ∧
      c = ⟨wordAt s 0, wordAt s 4, bytesAt s 8 (wordAt s 0).toNat,
        crc32 (bytesAt s 4 (4 + (wordAt s 0).toNat))⟩ ∧
      n = 12 + (wordAt s 0).toNat := by
  simp only [parseSlice, ite_error_eq_ok_iff, Except.ok.injEq, Prod.mk.injEq, not_not]
  constructor
  · rintro ⟨_, _, halpha, hcap, _, hlen, hcrc, rfl, rfl⟩
    exact ⟨by simpa using halpha, by omega, by omega, hcrc, rfl, rfl⟩
  · rintro ⟨halpha, hcap, hlen, hcrc, rfl, rfl⟩
    exact ⟨by omega, by omega, by simpa using halpha, by omega, by omega, by omega, hcrc, rfl, rfl⟩

/-- An accepted slice begins with the wire form of the chunk it gives. -/
theorem serializeChunk_of_parseSlice {cap : Word} {s : List Byte} {c : Chunk} {n : Nat}
    (h : parseSlice cap s = .ok (c, n)) : n = 12 + c.length.toNat ∧ serializeChunk c = s.take n := by
  obtain ⟨_, _, hlen, hcrc, rfl, rfl⟩ := parseSlice_eq_ok_iff.1 h
  refine ⟨rfl, ?_⟩
  rw [serializeChunk, ← hcrc, be32_wordAt (by omega), be32_wordAt (by omega), be32_wordAt (by omega)]
  calc s.take 4 ++ bytesAt s 4 4 ++ bytesAt s 8 (wordAt s 0).toNat ++ bytesAt s (8 + (wordAt s 0).toNat) 4
      = s.take (8 + (wordAt s 0).toNat + 4) := by simp only [take_append_bytesAt]
    _ = s.take (12 + (wordAt s 0).toNat) := by congr 1; omega

/-! ## The file -/

/-- One round of the container parse: it ends at the end of the bytes, or PARSE takes a chunk off them. -/
theorem containerLoop_succ_ok {cap : Word} {trailingHdr fuel : Nat} {r : List Byte} {cs : List Chunk}
    (h : containerLoop cap trailingHdr (fuel + 1) r = .ok cs) :
    (r = [] ∧ cs = []) ∨
    (r ≠ [] ∧ trailingHdr ≤ r.length ∧ ∃ c n ds, parseSlice cap r = .ok (c, n) ∧
      containerLoop cap trailingHdr fuel (r.drop n) = .ok ds ∧ cs = c :: ds) := by
  by_cases hr : r = []
  · subst hr; cases h; exact .inl ⟨rfl, rfl⟩
  · rw [containerLoop, if_neg hr, ite_error_eq_ok_iff] at h
    obtain ⟨hlen, h⟩ := h
    refine .inr ⟨hr, not_lt.1 hlen, ?_⟩
    cases hparse : parseSlice cap r with
    | error k => rw [hparse] at h; cases h
    | ok cn =>
      obtain ⟨c, n⟩ := cn
      cases hrest : containerLoop cap trailingHdr fuel (r.drop n) with
      | error k => simp [hparse, hrest] at h
      | ok ds =>
        simp only [hparse, hrest] at h; cases h
        exact ⟨c, n, ds, rfl, hrest, rfl⟩

/-- The wire forms of the chunks that the loop finds are the bytes it was given. -/
theorem flatMap_serializeChunk_of_containerLoop {cap : Word} {trailingHdr fuel : Nat} {r : List Byte}
    {cs : List Chunk} (hfuel : r.length ≤ fuel) (h : containerLoop cap trailingHdr fuel r = .ok cs) :
    cs.flatMap serializeChunk = r := by
  induction fuel generalizing r cs with
  | zero =>
    cases h
    exact (List.length_eq_zero_iff.1 (by omega)).symm
  | succ fuel ih =>
    obtain ⟨rfl, rfl⟩ | ⟨_, _, c, n, ds, hparse, hrest, rfl⟩ := containerLoop_succ_ok h
    · rfl
    · obtain ⟨hn, hwire⟩ := serializeChunk_of_parseSlice hparse
      have hdrop : (r.drop n).length ≤ fuel := by rw [List.length_drop]; omega
      rw [List.flatMap_cons, hwire, ih hdrop hrest, List.take_append_drop]

/-- Settles O58: after the signature, the wire forms of the chunks found are the rest of the file. -/
theorem fileRoundTrip : Obligations.FileRoundTrip := by
  intro cap trailingHdr file cs h
  rw [containerParse, ite_error_eq_ok_iff, not_not] at h
  obtain ⟨hsig, hloop⟩ := h
  rw [containerSerialize, flatMap_serializeChunk_of_containerLoop le_rfl hloop, ← hsig,
    List.take_append_drop]

/-! ## Search and removal by type -/

@[simp] theorem chunksByType_nil (t : Word) : chunksByType t [] = [] := rfl

@[simp] theorem chunksByType_append (t : Word) (cs ds : List Chunk) :
    chunksByType t (cs ++ ds) = chunksByType t cs ++ chunksByType t ds :=
  List.filter_append ..

theorem chunksByType_cons_of_eq {t : Word} {c : Chunk} (h : c.typ = t) (cs : List Chunk) :
    chunksByType t (c :: cs) = c :: chunksByType t cs :=
  List.filter_cons_of_pos (by simpa using h)

theorem chunksByType_cons_of_ne {t : Word} {c : Chunk} (h : c.typ ≠ t) (cs : List Chunk) :
    chunksByType t (c :: cs) = chunksByType t cs :=
  List.filter_cons_of_neg (by simpa using h)

/-- The chunks that are not of a type, in order. -/
def chunksNotOfType (t : Word) (cs : List Chunk) : List Chunk := cs.filter (fun c => decide (c.typ ≠ t))

@[simp] theorem chunksNotOfType_nil (t : Word) : chunksNotOfType t [] = [] := rfl

@[simp] theorem chunksNotOfType_append (t : Word) (cs ds : List Chunk) :
    chunksNotOfType t (cs ++ ds) = chunksNotOfType t cs ++ chunksNotOfType t ds :=
  List.filter_append ..

theorem chunksNotOfType_cons_of_eq {t : Word} {c : Chunk} (h : c.typ = t) (cs : List Chunk) :
    chunksNotOfType t (c :: cs) = chunksNotOfType t cs :=
  List.filter_cons_of_neg (by simpa using h)

/-- A list without the type is what is left of it. -/
theorem chunksNotOfType_eq_self {t : Word} {cs : List Chunk} (h : chunksByType t cs = []) :
    chunksNotOfType t cs = cs := by
  rw [chunksByType, List.filter_eq_nil_iff] at h
  exact List.filter_eq_self.2 (by simpa using h)

theorem removeChunk_cons_of_eq {t : Word} {c : Chunk} (h : c.typ = t) (cs : List Chunk) :
    removeChunk t (c :: cs) = .ok (c, cs) :=
  if_pos h

theorem removeChunk_cons_of_ne {t : Word} {c : Chunk} (h : c.typ ≠ t) (cs : List Chunk) :
    removeChunk t (c :: cs) = (removeChunk t cs).map fun r => (r.1, c :: r.2) := by
  rw [removeChunk, if_neg h]
  cases removeChunk t cs <;> rfl

/-- Without a chunk of the type there is none to remove (R260). -/
theorem removeChunk_of_not_found {t : Word} {cs : List Chunk} (h : chunksByType t cs = []) :
    removeChunk t cs = .error .chunkNotFound := by
  induction cs with
  | nil => rfl
  | cons c cs ih =>
    by_cases hc : c.typ = t
    · rw [chunksByType_cons_of_eq hc] at h; cases h
    · rw [chunksByType_cons_of_ne hc] at h
      rw [removeChunk_cons_of_ne hc, ih h]; rfl

/-- A chunk of the type with none of the type before it is the one removed (R260). -/
theorem removeChunk_append_cons {t : Word} {cs : List Chunk} {c : Chunk} (h : chunksByType t cs = [])
    (hc : c.typ = t) (ds : List Chunk) : removeChunk t (cs ++ c :: ds) = .ok (c, cs ++ ds) := by
  induction cs with
  | nil => exact removeChunk_cons_of_eq hc ds
  | cons b cs ih =>
    by_cases hb : b.typ = t
    · rw [chunksByType_cons_of_eq hb] at h; cases h
    · rw [chunksByType_cons_of_ne hb] at h
      rw [List.cons_append, removeChunk_cons_of_ne hb, ih h]; rfl

/-- A list has no chunk of the type, or it splits at the first one. -/
theorem first_of_type (t : Word) (cs : List Chunk) :
    chunksByType t cs = [] ∨
    ∃ pre c post, cs = pre ++ c :: post ∧ chunksByType t pre = [] ∧ c.typ = t := by
  induction cs with
  | nil => exact .inl rfl
  | cons c cs ih =>
    by_cases hc : c.typ = t
    · exact .inr ⟨[], c, cs, rfl, rfl, hc⟩
    · obtain h | ⟨pre, d, post, rfl, hpre, hd⟩ := ih
      · exact .inl ((chunksByType_cons_of_ne hc cs).trans h)
      · exact .inr ⟨c :: pre, d, post, rfl, (chunksByType_cons_of_ne hc pre).trans hpre, hd⟩

/-- The loop with enough fuel counts the chunks of the type and leaves the others (R261). -/
theorem removeAllLoop_eq {t : Word} {fuel : Nat} {cs : List Chunk} (hfuel : cs.length ≤ fuel) :
    removeAllLoop t fuel cs = ((chunksByType t cs).length, chunksNotOfType t cs) := by
  induction fuel generalizing cs with
  | zero =>
    obtain rfl := List.length_eq_zero_iff.1 (Nat.le_zero.1 hfuel)
    rfl
  | succ fuel ih =>
    obtain h | ⟨pre, c, post, rfl, hpre, hc⟩ := first_of_type t cs
    · rw [removeAllLoop, removeChunk_of_not_found h, h, chunksNotOfType_eq_self h]; rfl
    · have hlen : (pre ++ post).length ≤ fuel := by
        simp only [List.length_append, List.length_cons] at hfuel ⊢; omega
      rw [removeAllLoop, removeChunk_append_cons hpre hc]
      simp [ih hlen, chunksByType_cons_of_eq hc, chunksNotOfType_cons_of_eq hc, hpre]

theorem removeAllChunks_eq (t : Word) (cs : List Chunk) :
    removeAllChunks t cs = ((chunksByType t cs).length, chunksNotOfType t cs) :=
  removeAllLoop_eq le_rfl

/-- Where the first-match removal fails, the removal of all leaves the list (R261). -/
theorem removeAllChunks_of_not_found {t : Word} {cs : List Chunk} {k : ErrorKind}
    (h : removeChunk t cs = .error k) : removeAllChunks t cs = (0, cs) := by
  obtain hnone | ⟨pre, c, post, rfl, hpre, hc⟩ := first_of_type t cs
  · simp [removeAllChunks_eq, hnone, chunksNotOfType_eq_self]
  · rw [removeChunk_append_cons hpre hc] at h; cases h

/-- A first-match removal is one round of the removal of all (R261). -/
theorem removeAllChunks_of_removeChunk {t : Word} {c : Chunk} {cs ds : List Chunk}
    (h : removeChunk t cs = .ok (c, ds)) :
    removeAllChunks t cs = ((removeAllChunks t ds).1 + 1, (removeAllChunks t ds).2) := by
  obtain hnone | ⟨pre, d, post, rfl, hpre, hd⟩ := first_of_type t cs
  · rw [removeChunk_of_not_found hnone] at h; cases h
  · rw [removeChunk_append_cons hpre hd] at h; cases h
    simp [removeAllChunks_eq, chunksByType_cons_of_eq hd, chunksNotOfType_cons_of_eq hd, hpre]

/-- Settles O59: the search and the removals see an appended chunk behind a list that has none of its type,
and the removal of all is the count of the type and the list of the others. -/
theorem searchAndRemoveByType : Obligations.SearchAndRemoveByType := by
  constructor
  · intro t cs c d hnone hc hd
    have hsearch : chunksByType t (cs ++ [c] ++ [d]) = [c, d] := by
      simp [hnone, chunksByType_cons_of_eq hc, chunksByType_cons_of_eq hd]
    have hothers : chunksNotOfType t (cs ++ [c] ++ [d]) = cs := by
      simp [chunksNotOfType_eq_self hnone, chunksNotOfType_cons_of_eq hc, chunksNotOfType_cons_of_eq hd]
    refine ⟨hsearch, ?_, ?_, removeChunk_of_not_found hnone, ?_⟩
    · simpa [appendChunk] using removeChunk_append_cons hnone hc [d]
    · simpa [appendChunk] using removeChunk_append_cons hnone hd []
    · rw [appendChunk, appendChunk, removeAllChunks_eq, hsearch, hothers]; rfl
  · exact fun t cs => ⟨removeAllChunks_eq t cs, removeAllChunks_of_not_found,
      fun _ _ => removeAllChunks_of_removeChunk⟩

end Sys2Proof.Machine

/-! # The hardware reset against SRST

The reset action of the host and the command SRST are compared through the one state both lead to, the soft
reset of the engine (70_reset_and_hazards.md R323). -/

namespace Sys2Proof.Machine

open Sys2Proof

/-- Settles O16: the host's reset and SRST are each the soft reset of the state behind the action. -/
theorem hardwareResetEqualsSrst : Obligations.HardwareResetEqualsSrst := fun s rest h =>
  calc step s = .next (softReset { s with script := rest }) := step_reset h
    _ = exec .srst { s with script := rest } := (exec_srst _).symm

end Sys2Proof.Machine

/-! # Commands, words and the host's script

The decoder as an equivalence, the frame of every command's own step, what writes TVIN, what the host's
actions do to the two streams, and runs that have gone well (30_encoding.md R100 to R104;
45_control_and_register_access.md R237; 20_memory.md R61, R62; 70_reset_and_hazards.md R342). -/

namespace Sys2Proof.Machine

open Sys2Proof

/-! ## The decoder -/

theorem toNat_encode_le_six (i : Instr) : (encode i).toNat ≤ 6 := by cases i <;> decide

theorem decode_eq_ok_iff {w : Word} {i : Instr} : decode w = .ok i ↔ w = encode i := by
  refine ⟨fun h => ?_, fun h => h ▸ decode_encode i⟩
  rcases eq_encode_or_gt_six w with ⟨j, rfl⟩ | hgt
  · rw [decode_encode] at h; cases h; rfl
  · rw [decode_of_gt_six hgt] at h; cases h

theorem decode_eq_error_iff {w : Word} : decode w = .error (.illegalCommand w) ↔ 6 < w.toNat := by
  refine ⟨fun h => ?_, decode_of_gt_six⟩
  rcases eq_encode_or_gt_six w with ⟨j, rfl⟩ | hgt
  · rw [decode_encode] at h; cases h
  · exact hgt

theorem wellFormedWord_iff_decode {w : Word} : wellFormedWord w = true ↔ ∃ i, decode w = .ok i := by
  simp only [wellFormedWord, decide_eq_true_eq, decode_eq_ok_iff]
  refine ⟨fun h => (eq_encode_or_gt_six w).resolve_right (not_lt.2 h), ?_⟩
  rintro ⟨i, rfl⟩
  exact toNat_encode_le_six i

theorem wellFormed_eq_true (i : Instr) : i.wellFormed = true := by cases i <;> rfl

/-- Settles O1, by the seven commands. -/
theorem decodeOfEncodeIsTheCommand : Obligations.DecodeOfEncodeIsTheCommand :=
  fun i => ⟨wellFormed_eq_true i, decode_encode i⟩

/-- Settles O2: every word is the word of a command or above 6, and the decoder tells the two apart. -/
theorem everyWordAboveSixIsRejected : Obligations.EveryWordAboveSixIsRejected :=
  ⟨fun _ _ => decode_eq_ok_iff, fun _ => decode_eq_error_iff, fun _ => wellFormedWord_iff_decode⟩

/-- Settles O3: the seven words are those of the commands, the four near misses are above 6. -/
theorem tableWordsDecode : Obligations.TableWordsDecode :=
  ⟨decode_encode .nop, decode_encode .tchk, decode_encode .build, decode_encode .parse, decode_encode .emit,
    decode_encode .emitd, decode_encode .srst, decode_of_gt_six (by decide), decode_of_gt_six (by decide),
    decode_of_gt_six (by decide), decode_of_gt_six (by decide)⟩

theorem writeCmd_of_decode {w : Word} {i : Instr} (h : decode w = .ok i) (s : State) :
    writeCmd w s = exec i s := by
  rw [decode_eq_ok_iff.1 h, writeCmd_encode]

theorem decode_tableWord_of_decodeTableWord {nbits w : Nat} {i : Instr}
    (h : decodeTableWord nbits w = some i) : decode (tableWord nbits w) = .ok i := by
  simp only [decodeTableWord] at h
  split at h
  · split at h
    · cases h; assumption
    · cases h
  · cases h

/-- Settles O4, by what a write of CMD does with a word that decodes. -/
theorem stepRunsTheDecodedCommand : Obligations.StepRunsTheDecodedCommand := by
  refine ⟨fun s w rest i hs hw => ?_, fun s nbits w i hw => ?_, fun s => step_nil⟩
  · exact (step_wr_cmd hs).trans (writeCmd_of_decode hw _)
  · exact (step_wr_cmd (s := s.withFetchWord nbits w) rfl).trans
      (writeCmd_of_decode (decode_tableWord_of_decodeTableWord hw) s)

/-! ## The frame of a command -/

/-- What a step of the command i from s to t leaves unchanged. -/
structure ExecFrame (i : Instr) (s t : State) : Prop where
  /-- No command writes BUF, a stream, CAP or the host's fields. -/
  always : t.buf = s.buf ∧ t.inq = s.inq ∧ t.outq = s.outq ∧ t.cap = s.cap ∧ t.script = s.script ∧
    t.seen = s.seen
  /-- Only SRST writes TVIN, CRCR and SCRC. -/
  unlessSrst : i ≠ .srst → t.tvin = s.tvin ∧ t.crcr = s.crcr ∧ t.scrc = s.scrc
  /-- Only PARSE and SRST write LEN. -/
  len : i ≠ .srst → i ≠ .parse → t.len = s.len
  /-- Only BUILD and SRST write TYP and ACC. -/
  typAcc : i ≠ .srst → i ≠ .build → t.typ = s.typ ∧ t.acc = s.acc

theorem execFrame_acceptBuild (s : State) : ExecFrame .build s (acceptBuild s) := by
  rcases acceptBuild_cases s with ⟨_, h⟩ | ⟨_, h⟩ <;> rw [h] <;> constructor <;> simp

theorem execFrame_acceptEmit (i : Instr) (p : Phase) (s : State) : ExecFrame i s (acceptEmit p s) := by
  rcases acceptEmit_cases p s with ⟨_, h⟩ | ⟨_, h⟩ <;> rw [h] <;> constructor <;> simp

theorem exec_frame {i : Instr} {s t : State} (h : exec i s = .next t) : ExecFrame i s t := by
  rcases exec_cases h with ⟨rfl, rfl⟩ | ⟨_, _, rfl⟩ | ⟨_, h⟩
  · constructor <;> simp
  · constructor <;> simp
  · rcases h with ⟨rfl, rfl⟩ | ⟨rfl, _, rfl⟩ | ⟨rfl, _, rfl⟩ | ⟨rfl, rfl⟩ | ⟨rfl, rfl⟩ | ⟨rfl, rfl⟩ | ⟨rfl, rfl⟩
    · constructor <;> simp
    · constructor <;> simp
    · constructor <;> simp
    · exact execFrame_acceptBuild s
    · constructor <;> simp
    · exact execFrame_acceptEmit .emit .eLen s
    · exact execFrame_acceptEmit .emitd _ s

/-- NOP and TCHK leave IDX and PHASE, whether accepted or discarded. -/
theorem exec_idx_phase {i : Instr} {s t : State} (hi : i = .nop ∨ i = .tchk) (h : exec i s = .next t) :
    t.idx = s.idx ∧ t.phase = s.phase := by
  by_cases hp : s.phase = .idle
  · rcases hi with rfl | rfl
    · rw [exec_nop_idle hp] at h; cases h; simp
    · rw [exec_tchk_idle hp] at h; cases h; simp
  · rw [exec_busy (by rintro rfl; simp at hi) hp] at h; cases h; simp

/-- Settles O15, by the frame of a command. -/
theorem srstLeavesBufAsItWas : Obligations.SrstLeavesBufAsItWas := by
  intro s t h a
  obtain ⟨hbuf, _⟩ := (exec_frame h).always
  rw [hbuf]

/-- Settles O17, by the frame of a command, item by item. -/
theorem commandFrame : Obligations.CommandFrame := by
  intro i s t h
  have hframe := exec_frame h
  obtain ⟨hbuf, hinq, houtq, hcap, hscript, hseen⟩ := hframe.always
  refine ⟨fun a => by rw [hbuf], hinq, houtq, hcap, hscript, hseen, fun hi => ?_, hframe.len, hframe.typAcc,
    fun hi => exec_idx_phase hi h⟩
  obtain ⟨htvin, hcrcr, hscrc⟩ := hframe.unlessSrst hi
  exact ⟨htvin, hcrcr, hscrc, fun ho => (exec_ovr h ho).resolve_right hi⟩

/-! ## TVIN -/

theorem engineStep_tvin {s t : State} (h : engineStep s = .next t) : t.tvin = s.tvin := by
  obtain ⟨_, htvin, _⟩ := engineStep_frame h
  exact htvin

/-- A write of CMD leaves TVIN, or it is SRST and clears it. -/
theorem writeCmd_tvin {w : Word} {s t : State} (h : writeCmd w s = .next t) :
    t.tvin = s.tvin ∨ (t.tvin = 0#32 ∧ w = encode .srst) := by
  rcases writeCmd_cases h with ⟨i, rfl, he⟩ | ⟨_, h⟩
  · by_cases hi : i = .srst
    · subst hi; cases he; exact .inr ⟨rfl, rfl⟩
    · obtain ⟨htvin, _⟩ := (exec_frame he).unlessSrst hi
      exact .inl htvin
  · rcases illegalCommand_cases h with ⟨_, rfl⟩ | ⟨_, rfl⟩ <;> exact .inl rfl

/-- A host action leaves TVIN, writes it, or is a reset. -/
theorem hostStep_tvin {a : HostAct} {rest : List HostAct} {s t : State}
    (h : hostStep a rest s = .next t) :
    t.tvin = s.tvin ∨ a = .wr .tvin t.tvin ∨
      (t.tvin = 0#32 ∧ (a = .reset ∨ a = .wr .cmd (encode .srst))) := by
  rcases hostStep_cases h with ⟨_, _, rfl⟩ | ⟨w, rfl, h⟩ | ⟨_, rfl, rfl⟩ | ⟨_, _, _, _, _, rfl⟩ | ⟨_, _, rfl⟩ |
    ⟨_, _, _, _, _, rfl⟩ | ⟨_, _, rfl⟩ | ⟨_, _, h⟩ | ⟨ha, rfl⟩ | ⟨_, h⟩
  · exact .inl rfl
  · exact (writeCmd_tvin h).imp_right fun ⟨hz, hw⟩ => .inr ⟨hz, .inr (congrArg _ hw)⟩
  · exact .inr (.inl rfl)
  · exact .inl rfl
  · exact .inl rfl
  · exact .inl rfl
  · exact .inl rfl
  · exact .inl (engineStep_tvin h)
  · exact .inr (.inr ⟨rfl, .inl ha⟩)
  · exact .inl (engineStep_tvin h :)

/-- Settles O42: the engine never writes TVIN, and of the host's actions only those named do. -/
theorem tvinIsWrittenByHostAndResetOnly : Obligations.TvinIsWrittenByHostAndResetOnly := by
  intro s t h
  rcases step_cases h with ⟨_, h⟩ | ⟨a, rest, hs, h⟩
  · exact .inl (engineStep_tvin h)
  · rw [hs, List.head?_cons, Option.some_inj, Option.some_inj, Option.some_inj]
    exact hostStep_tvin h

/-! ## The host's side of the streams -/

theorem step_push {s : State} {t : Token} {rest : List HostAct} (h : s.script = .push t :: rest) :
    step s = .next { s with script := rest, inq := s.inq ++ [t] } :=
  step_cons h

theorem step_pop_cons {s : State} {t : Token} {ts : List Token} {rest : List HostAct}
    (h : s.script = .pop :: rest) (hq : s.outq = t :: ts) :
    step s = .next { s with script := rest, outq := ts, seen := s.seen ++ [.token t] } := by
  rw [step_cons h]; simp [hostStep, popOut, hq]

theorem step_pop_nil {s : State} {rest : List HostAct} (h : s.script = .pop :: rest) (hq : s.outq = []) :
    step s = .next { s with script := rest } := by
  rw [step_cons h]; simp [hostStep, popOut, hq]

theorem step_drain_cons {s : State} {t : Token} {ts : List Token} {rest : List HostAct}
    (h : s.script = .drain :: rest) (hq : s.outq = t :: ts) :
    step s = .next { s with outq := ts, seen := s.seen ++ [.token t] } := by
  rw [step_cons h]; simp [hostStep, popOut, hq]

theorem step_drain_nil {s : State} {rest : List HostAct} (h : s.script = .drain :: rest)
    (hq : s.outq = []) : step s = .next { s with script := rest } := by
  rw [step_cons h]; simp [hostStep, hq]

theorem step_feed_cons {s : State} {t : Token} {ts : List Token} {rest : List HostAct}
    (h : s.script = .feed :: rest) (hq : s.outq = t :: ts) :
    step s = .next { s with
      script := rest, outq := ts, inq := s.inq ++ [t], seen := s.seen ++ [.token t] } := by
  rw [step_cons h]; simp [hostStep, feedBack, hq]

theorem step_feed_nil {s : State} {rest : List HostAct} (h : s.script = .feed :: rest)
    (hq : s.outq = []) : step s = .next { s with script := rest } := by
  rw [step_cons h]; simp [hostStep, feedBack, hq]

theorem step_discard {s : State} {rest : List HostAct} (h : s.script = .discard :: rest) :
    step s = .next { s with script := rest, inq := s.inq.tail } :=
  step_cons h

theorem step_flush {s : State} {rest : List HostAct} (h : s.script = .flush :: rest) :
    step s = .next { s with script := rest, inq := dropSlice s.inq } :=
  step_cons h

theorem step_wait_idle {s : State} {rest : List HostAct} (h : s.script = .wait :: rest)
    (hp : s.phase = .idle) : step s = .next { s with script := rest } :=
  (step_cons h).trans (if_pos hp)

theorem step_wait_busy {s : State} {rest : List HostAct} (h : s.script = .wait :: rest)
    (hp : s.phase ≠ .idle) : step s = engineStep s :=
  (step_cons h).trans (if_neg hp)

theorem step_engine {s : State} {rest : List HostAct} (h : s.script = .engine :: rest) :
    step s = engineStep { s with script := rest } :=
  step_cons h

/-- A slice is dropped whole, with its EOS (70_reset_and_hazards.md R331). -/
theorem dropSlice_sliceTokens (bytes : List Byte) (ts : List Token) :
    dropSlice (sliceTokens bytes ++ ts) = ts := by
  induction bytes with
  | nil => rfl
  | cons b bytes ih => exact ih

/-- With no EOS everything is dropped. -/
theorem dropSlice_of_no_eos {q : List Token} (h : Token.eos ∉ q) : dropSlice q = [] := by
  induction q with
  | nil => rfl
  | cons t q ih =>
    cases t with
    | byte b => exact ih fun hq => h (List.mem_cons_of_mem _ hq)
    | eos => exact absurd List.mem_cons_self h

/-- An empty OUTQ gives pop, OUT and feed nothing to take. -/
theorem step_take_nil {s : State} {a : HostAct} {rest : List HostAct} (h : s.script = a :: rest)
    (hq : s.outq = []) (ha : a = .pop ∨ a = .drain ∨ a = .feed) : step s = .next { s with script := rest } := by
  rcases ha with rfl | rfl | rfl
  · exact step_pop_nil h hq
  · exact step_drain_nil h hq
  · exact step_feed_nil h hq

/-- An empty INQ gives discard and flush nothing to remove. -/
theorem step_remove_nil {s : State} {a : HostAct} {rest : List HostAct} (h : s.script = a :: rest)
    (hq : s.inq = []) (ha : a = .discard ∨ a = .flush) : step s = .next { s with script := rest } := by
  rcases ha with rfl | rfl
  · rw [step_discard h, hq, List.tail_nil, ← hq]
  · rw [step_flush h, hq, dropSlice, ← hq]

/-- IN and EOS push the tokens in their order, one a step (30_encoding.md R104). -/
theorem stepMany_inActs {bytes : List Byte} {s : State} {rest : List HostAct}
    (h : s.script = inActs bytes ++ eosAct :: rest) :
    stepMany (bytes.length + 1) s = .next { s with script := rest, inq := s.inq ++ sliceTokens bytes } := by
  induction bytes generalizing s with
  | nil => exact stepMany_succ (step_push h)
  | cons b bytes ih =>
    have hstep := step_push (t := .byte b) (rest := inActs bytes ++ eosAct :: rest) h
    rw [List.length_cons, stepMany_succ hstep, ih rfl]
    simp [sliceTokens]

/-- OUT takes the tokens in their order, one a step, and one more step ends it (30_encoding.md R104). -/
theorem stepMany_drain {s : State} {rest : List HostAct} {q : List Token} (h : s.script = .drain :: rest)
    (hq : s.outq = q) :
    stepMany (q.length + 1) s =
      .next { s with script := rest, outq := [], seen := s.seen ++ q.map .token } := by
  induction q generalizing s with
  | nil => rw [List.length_nil, stepMany_succ (step_drain_nil h hq)]; simp [hq]
  | cons t q ih =>
    have hrest := ih (s := { s with outq := q, seen := s.seen ++ [.token t] }) h rfl
    rw [List.length_cons, stepMany_succ (step_drain_cons h hq), hrest]
    simp

/-- Settles O39, by the step of each host action, and by induction over the tokens for IN and OUT. -/
theorem hostActsOnItsSideOfTheStreams : Obligations.HostActsOnItsSideOfTheStreams := by
  refine ⟨fun s a rest hs => ⟨?_, fun t ts hq => ⟨?_, ?_, ?_⟩, step_take_nil hs, ?_, ?_, ?_,
    step_remove_nil hs, ?_, ?_⟩, fun s bytes rest => stepMany_inActs, fun s rest hs => stepMany_drain hs rfl⟩
  · rintro t rfl; exact step_push hs
  · rintro rfl; exact step_pop_cons hs hq
  · rintro rfl; exact step_drain_cons hs hq
  · rintro rfl; exact step_feed_cons hs hq
  · rintro t ts hq rfl; rw [step_discard hs, hq, List.tail_cons]
  · rintro bytes ts hq rfl; rw [step_flush hs, hq, dropSlice_sliceTokens]
  · rintro hq rfl; rw [step_flush hs, dropSlice_of_no_eos hq]
  · rintro rfl; exact ⟨step_wait_idle hs, step_wait_busy hs⟩
  · rintro rfl; exact step_engine hs

/-! ## Runs that go well -/

/-- The state after a command written while busy has OVR = 1, and is a state of every longer run (60 R309(c),
log 26). -/
theorem exists_ovr_of_command_lost {s t : State} {j k : Nat} {w : Word} {rest : List HostAct} (hj : j < k)
    (ht : stepMany j s = .next t) (hscript : t.script = .wr .cmd w :: rest) (hw : w ≠ 0x00000006#32)
    (hp : t.phase ≠ .idle) : ∃ u ∈ runStates k s, u.ovr = true := by
  have hstep : step t = .next (overrun { t with script := rest }) :=
    (step_wr_cmd hscript).trans (writeCmd_busy (s := { t with script := rest }) hp hw)
  have hrun : stepMany (j + 1) s = .next (overrun { t with script := rest }) := by
    rw [stepMany_add ht, stepMany_succ hstep, stepMany_zero]
  exact ⟨_, mem_runStates hj hrun, rfl⟩

/-- What the read at a place of `seen` showed. -/
theorem sawNoError_iff {s : State} {i : Nat} :
    sawNoError s i = true ↔ ∃ v, s.seen[i]? = some (.read .status v) ∧ v.extractLsb' 4 4 = 0#4 := by
  unfold sawNoError
  split
  · rename_i v hv; simp [hv]
  · rename_i hne
    simp only [Bool.false_eq_true, false_iff]
    rintro ⟨v, hv, _⟩
    exact hne v hv

theorem runOver_iff {s : State} : runOver s = true ↔ s.script = [] ∧ s.phase = .idle := by
  simp [runOver]

/-- The last state of a run is one of its states. -/
theorem mem_runStates_last {k : Nat} {s t : State} (h : stepMany k s = .next t) : t ∈ runStates k s :=
  mem_runStates le_rfl h

/-- Settles O40: the lost command leaves a state of the run with OVR = 1, and a run that has gone well has
none. -/
theorem aRunThatLosesACommandHasNotGoneWell : Obligations.ARunThatLosesACommandHasNotGoneWell := by
  constructor
  · intro s t expected j k w rest hj ht hscript hw hp
    by_contra hwell
    obtain ⟨_, _, _, hovr, _⟩ := wentWell_cases (by simpa using hwell)
    obtain ⟨u, hu, huovr⟩ := exists_ovr_of_command_lost hj ht hscript hw hp
    simp [hovr u hu] at huovr
  · intro s expected k h
    obtain ⟨t, ht, hover, hovr, hsaw⟩ := wentWell_cases h
    obtain ⟨hscript, hphase⟩ := runOver_iff.1 hover
    exact ⟨t, ht, hphase, hscript, hovr t (mem_runStates_last ht),
      fun i hi => sawNoError_iff.1 (List.all_eq_true.1 hsaw i hi)⟩

end Sys2Proof.Machine

/-! # The engine's steps and their frames

A consuming phase takes the head of INQ and pushes nothing; an emitting phase pushes one token and writes
nothing else but PHASE, IDX and ERR; BUF changes by one store at an index that exists (20_memory.md R61,
R62, R71; 44_serializer.md section 3). -/

namespace Sys2Proof.Machine

open Sys2Proof

/-! ## Waiting -/

/-- With INQ empty a consuming phase has no step (42_frame_parser.md R170, 43_chunk_builder.md R197). -/
theorem engineStep_waiting {s : State} (h : waitsForToken s = true) : engineStep s = .next s := by
  simp only [waitsForToken, Bool.and_eq_true, List.isEmpty_iff] at h
  obtain ⟨hc, hq⟩ := h
  cases hp : s.phase with
  | pLen => exact (engineStep_pLen hp).trans (consume_nil hq)
  | pType => exact (engineStep_pType hp).trans (consume_nil hq)
  | pData => exact (engineStep_pData hp).trans (consume_nil hq)
  | pCrc => exact (engineStep_pCrc hp).trans (consume_nil hq)
  | bData => exact (engineStep_bData hp).trans (consume_nil hq)
  | _ => simp [hp, Phase.consumes] at hc

/-- Settles O37, by the waiting phases and IDLE. -/
theorem waitingChangesNothing : Obligations.WaitingChangesNothing := by
  rintro s hs (hwait | hidle)
  · exact (step_nil hs).trans (engineStep_waiting hwait)
  · exact (step_nil hs).trans (engineStep_idle hidle)

/-! ## Consuming phases -/

/-- What a step of a consuming phase from s to t does to the streams, to BUF and to ERR. -/
structure ConsumedToken (s t : State) : Prop where
  /-- The head of INQ is taken, if there is one. -/
  inq : t.inq = s.inq.tail
  /-- No token is pushed. -/
  outq : t.outq = s.outq
  /-- At most one byte is stored, at an index that exists. -/
  buf : t.buf = s.buf ∨ ∃ a b, a < s.cap.toNat ∧ t.buf = s.buf.write a b
  /-- ERR is written by the end of the command only, with a code that the engine raises. -/
  err : t.err = s.err ∨ (t.phase = .idle ∧ t.err ∈ raisedCodes)

theorem engineStep_consuming {s t : State} (hc : s.phase.consumes = true) (h : engineStep s = .next t) :
    ConsumedToken s t := by
  cases hp : s.phase with
  | pLen =>
    rw [engineStep_pLen hp] at h
    rcases parseLenStep_cases h with ⟨hq, rfl⟩ | ⟨_, _, hq, ⟨_, rfl⟩ | ⟨_, rfl⟩⟩ | ⟨_, hq, rfl⟩ <;>
      constructor <;> simp [hq, raisedCodes]
  | pType =>
    rw [engineStep_pType hp] at h
    rcases parseTypeStep_cases h with ⟨hq, rfl⟩ | ⟨_, _, _, _, hq, _, _, h⟩ | ⟨_, hq, rfl⟩
    · constructor <;> simp [hq]
    · rcases h with ⟨_, _, rfl⟩ | ⟨_, _, _, rfl⟩ | ⟨_, _, _, rfl⟩ | ⟨_, _, _, _, rfl⟩ | ⟨_, rfl⟩ <;>
        constructor <;> simp [hq, raisedCodes]
    · constructor <;> simp [hq, raisedCodes]
  | pData =>
    rw [engineStep_pData hp] at h
    rcases parseDataStep_cases h with ⟨hq, rfl⟩ | ⟨_, _, _, _, hq, hlt, rfl, _, ⟨_, rfl⟩ | ⟨_, rfl⟩⟩ |
      ⟨_, hq, rfl⟩
    · constructor <;> simp [hq]
    · exact ⟨by simp [hq], rfl, .inr ⟨_, _, hlt, rfl⟩, .inl rfl⟩
    · exact ⟨by simp [hq], rfl, .inr ⟨_, _, hlt, rfl⟩, .inl rfl⟩
    · constructor <;> simp [hq, raisedCodes]
  | pCrc =>
    rw [engineStep_pCrc hp] at h
    rcases parseCrcStep_cases h with ⟨hq, rfl⟩ | ⟨_, _, _, hq, _, ⟨_, _, rfl⟩ | ⟨_, _, rfl⟩ | ⟨_, rfl⟩⟩ |
      ⟨_, hq, rfl⟩ <;> constructor <;> simp [hq, raisedCodes]
  | bData =>
    rw [engineStep_bData hp] at h
    rcases buildStep_cases h with ⟨hq, rfl⟩ | ⟨_, _, hq, _, rfl⟩ | ⟨_, _, hq, _, hlt, rfl⟩ | ⟨_, hq, rfl⟩
    · constructor <;> simp [hq]
    · constructor <;> simp [hq, raisedCodes]
    · exact ⟨by simp [hq], rfl, .inr ⟨_, _, hlt, rfl⟩, .inl rfl⟩
    · constructor <;> simp [hq, raisedCodes]
  | _ => simp [hp, Phase.consumes] at hc

/-! ## Emitting phases -/

theorem emitFieldByte_emits {v : Word} {p : Phase} {s t : State} (h : emitFieldByte v p s = .next t) :
    ∃ tok q i, t = { s with outq := s.outq ++ [tok], phase := q, idx := i } := by
  obtain ⟨_, _, rfl, ⟨_, rfl⟩ | ⟨_, rfl⟩⟩ := emitFieldByte_cases h
  · exact ⟨_, _, _, rfl⟩
  · exact ⟨_, s.phase, _, rfl⟩

theorem emitPayloadByte_emits {p : Phase} {s t : State} (h : emitPayloadByte p s = .next t) :
    ∃ tok q i, t = { s with outq := s.outq ++ [tok], phase := q, idx := i } := by
  obtain ⟨_, _, rfl, ⟨_, rfl⟩ | ⟨_, rfl⟩⟩ := emitPayloadByte_cases h
  · exact ⟨_, _, _, rfl⟩
  · exact ⟨_, s.phase, _, rfl⟩

/-- In an emitting phase a step pushes one token, and writes nothing else but PHASE and IDX or, with the
closing EOS, PHASE and ERR. -/
theorem engineStep_emitting {s t : State} (he : s.phase.emits = true) (h : engineStep s = .next t) :
    (∃ tok q i, t = { s with outq := s.outq ++ [tok], phase := q, idx := i }) ∨
    t = { s with outq := s.outq ++ [.eos], err := 0#4, phase := .idle } := by
  cases hp : s.phase with
  | eLen => exact .inl (emitFieldByte_emits ((engineStep_eLen hp).symm.trans h))
  | eType => exact .inl (emitFieldByte_emits ((engineStep_eType hp).symm.trans h))
  | eData => exact .inl (emitPayloadByte_emits ((engineStep_eData hp).symm.trans h))
  | eCrc => exact .inl (emitFieldByte_emits ((engineStep_eCrc hp).symm.trans h))
  | dData => exact .inl (emitPayloadByte_emits ((engineStep_dData hp).symm.trans h))
  | eEos => rw [engineStep_eEos hp] at h; cases h; exact .inr rfl
  | dEos => rw [engineStep_dEos hp] at h; cases h; exact .inr rfl
  | _ => simp [hp, Phase.emits] at he

/-- Settles O41, by what a step of an emitting phase writes. -/
theorem serializerFrame : Obligations.SerializerFrame := by
  intro s t hs hp h
  have he : s.phase.emits = true := by
    revert hp; cases s.phase <;> decide
  rw [step_nil hs] at h
  rcases engineStep_emitting he h with ⟨_, _, _, rfl⟩ | rfl <;> simp

/-- A phase consumes, emits or is IDLE. -/
theorem Phase.consumes_or_emits_or_idle (p : Phase) : p.consumes = true ∨ p.emits = true ∨ p = .idle := by
  cases p <;> decide

/-- Outside the consuming phases a step leaves INQ. -/
theorem engineStep_inq {s t : State} (hc : s.phase.consumes = false) (h : engineStep s = .next t) :
    t.inq = s.inq := by
  rcases s.phase.consumes_or_emits_or_idle with hc' | he | hp
  · simp [hc] at hc'
  · rcases engineStep_emitting he h with ⟨_, _, _, rfl⟩ | rfl <;> rfl
  · rw [engineStep_idle hp] at h; cases h; rfl

/-- Outside the emitting phases a step leaves OUTQ. -/
theorem engineStep_outq {s t : State} (he : s.phase.emits = false) (h : engineStep s = .next t) :
    t.outq = s.outq := by
  rcases s.phase.consumes_or_emits_or_idle with hc | he' | hp
  · exact (engineStep_consuming hc h).outq
  · simp [he] at he'
  · rw [engineStep_idle hp] at h; cases h; rfl

theorem Phase.mem_consuming_iff (p : Phase) :
    p ∈ [Phase.pLen, .pType, .pData, .pCrc, .bData] ↔ p.consumes = true := by
  cases p <;> decide

theorem Phase.mem_emitting_iff (p : Phase) :
    p ∈ [Phase.eLen, .eType, .eData, .eCrc, .eEos, .dData, .dEos] ↔ p.emits = true := by
  cases p <;> decide

/-- Settles O38: the consuming phases move INQ alone, the emitting phases OUTQ alone. -/
theorem streamsMoveOneTokenInTheirPhases : Obligations.StreamsMoveOneTokenInTheirPhases := by
  intro s t hs h
  rw [step_nil hs] at h
  simp only [Phase.mem_consuming_iff, Phase.mem_emitting_iff, Bool.not_eq_true]
  refine ⟨fun hc => (engineStep_consuming hc h).inq, fun hc => engineStep_inq hc h, fun he => ?_,
    fun he => engineStep_outq he h⟩
  rcases engineStep_emitting he h with ⟨tok, _, _, rfl⟩ | rfl
  · exact ⟨tok, rfl⟩
  · exact ⟨.eos, rfl⟩

/-! ## What a step does not read -/

/-- Settles O45: a pushed token is part of the surroundings, which a step that does not wait does not read. -/
theorem pushCommutesWithEngineStep : Obligations.PushCommutesWithEngineStep := by
  intro s t tok hwait h
  obtain ⟨_, htvin, hovr, hscript, hseen⟩ := engineStep_frame h
  have hput := engineStep_put ⟨s.tvin, s.ovr, s.script, s.seen, [tok]⟩ (by simp [hwait]) h
  simpa [Surroundings.put, ← htvin, ← hovr, ← hscript, ← hseen] using hput

/-- Settles O46: TVIN, the script and what was seen are part of the surroundings, which no step reads. -/
theorem engineStepIgnoresTvinAndHost : Obligations.EngineStepIgnoresTvinAndHost := by
  intro s t v sc se h
  obtain ⟨_, _, hovr, _, _⟩ := engineStep_frame h
  have hput := engineStep_put ⟨v, s.ovr, sc, se, []⟩ (fun _ => rfl) h
  simpa [Surroundings.put, ← hovr] using hput

/-! ## BUF and ERR -/

/-- A step leaves BUF, or stores one byte at an index that exists. -/
theorem engineStep_buf {s t : State} (h : engineStep s = .next t) :
    t.buf = s.buf ∨ ∃ a b, a < s.cap.toNat ∧ t.buf = s.buf.write a b := by
  rcases s.phase.consumes_or_emits_or_idle with hc | he | hp
  · exact (engineStep_consuming hc h).buf
  · rcases engineStep_emitting he h with ⟨_, _, _, rfl⟩ | rfl <;> exact .inl rfl
  · rw [engineStep_idle hp] at h; cases h; exact .inl rfl

/-- A step leaves ERR, or ends the command with a code that the engine raises. -/
theorem engineStep_err {s t : State} (h : engineStep s = .next t) :
    t.err = s.err ∨ (t.phase = .idle ∧ t.err ∈ raisedCodes) := by
  rcases s.phase.consumes_or_emits_or_idle with hc | he | hp
  · exact (engineStep_consuming hc h).err
  · rcases engineStep_emitting he h with ⟨_, _, _, rfl⟩ | rfl <;> simp [raisedCodes]
  · rw [engineStep_idle hp] at h; cases h; exact .inl rfl

end Sys2Proof.Machine

/-! # The invariant of the engine

What the phases establish, phase by phase; that a step of the engine keeps it, given BUF in form; and from it
that every step of the machine keeps the invariant and none stops (10_state.md section 5, R29, R44;
20_memory.md R71). -/

namespace Sys2Proof.Machine

open Sys2Proof

/-! ## What a phase establishes -/

section
variable {s : State}

theorem phaseOk_idle (hp : s.phase = .idle) : phaseOk s ↔ (s.cv = true → recordOk s) := by
  simp only [phaseOk, hp]

theorem phaseOk_pLen (hp : s.phase = .pLen) : phaseOk s ↔ s.cv = false ∧ s.idx.toNat < 4 := by
  simp only [phaseOk, hp]

theorem phaseOk_pType (hp : s.phase = .pType) :
    phaseOk s ↔ s.cv = false ∧ s.idx.toNat < 4 ∧
      s.acc = crcFold crcInit ((be32 s.typ).drop (4 - s.idx.toNat)) := by
  simp only [phaseOk, hp]

theorem phaseOk_pData (hp : s.phase = .pData) :
    phaseOk s ↔ s.cv = false ∧ s.idx.toNat < s.len.toNat ∧ s.len.toNat ≤ s.cap.toNat ∧
      alpha4 s.typ = true ∧ s.acc = crcFold crcInit (be32 s.typ ++ s.buf.prefixBytes s.idx.toNat) := by
  simp only [phaseOk, hp]

theorem phaseOk_pCrc (hp : s.phase = .pCrc) :
    phaseOk s ↔ s.cv = false ∧ s.idx.toNat < 4 ∧ s.len.toNat ≤ s.cap.toNat ∧ alpha4 s.typ = true ∧
      s.acc = crcFold crcInit (be32 s.typ ++ s.buf.prefixBytes s.len.toNat) := by
  simp only [phaseOk, hp]

theorem phaseOk_bData (hp : s.phase = .bData) :
    phaseOk s ↔ s.cv = false ∧ s.idx.toNat ≤ s.cap.toNat ∧ alpha4 s.typ = true ∧
      s.acc = crcFold crcInit (be32 s.typ ++ s.buf.prefixBytes s.idx.toNat) := by
  simp only [phaseOk, hp]

/-- The three phases that send a 4-byte field. -/
theorem phaseOk_field (hp : s.phase = .eLen ∨ s.phase = .eType ∨ s.phase = .eCrc) :
    phaseOk s ↔ s.cv = true ∧ recordOk s ∧ s.idx.toNat < 4 := by
  rcases hp with hp | hp | hp <;> simp only [phaseOk, hp]

/-- The two phases that send the payload. -/
theorem phaseOk_payload (hp : s.phase = .eData ∨ s.phase = .dData) :
    phaseOk s ↔ s.cv = true ∧ recordOk s ∧ s.idx.toNat < s.len.toNat := by
  rcases hp with hp | hp <;> simp only [phaseOk, hp]

/-- The two phases that send the closing EOS. -/
theorem phaseOk_closing (hp : s.phase = .eEos ∨ s.phase = .dEos) :
    phaseOk s ↔ s.cv = true ∧ recordOk s := by
  rcases hp with hp | hp <;> simp only [phaseOk, hp]

/-- While a command consumes tokens no chunk is held (R44(a)). -/
theorem cv_of_consumes (hok : phaseOk s) (hc : s.phase.consumes = true) : s.cv = false := by
  cases hp : s.phase with
  | pLen => exact ((phaseOk_pLen hp).1 hok).1
  | pType => exact ((phaseOk_pType hp).1 hok).1
  | pData => exact ((phaseOk_pData hp).1 hok).1
  | pCrc => exact ((phaseOk_pCrc hp).1 hok).1
  | bData => exact ((phaseOk_bData hp).1 hok).1
  | _ => simp [hp, Phase.consumes] at hc

/-- While a command emits tokens the record is held and sound (R44). -/
theorem record_of_emits (hok : phaseOk s) (he : s.phase.emits = true) : s.cv = true ∧ recordOk s := by
  cases hp : s.phase with
  | eLen => exact ((phaseOk_field (.inl hp)).1 hok).imp_right And.left
  | eType => exact ((phaseOk_field (.inr (.inl hp))).1 hok).imp_right And.left
  | eCrc => exact ((phaseOk_field (.inr (.inr hp))).1 hok).imp_right And.left
  | eData => exact ((phaseOk_payload (.inl hp)).1 hok).imp_right And.left
  | dData => exact ((phaseOk_payload (.inr hp)).1 hok).imp_right And.left
  | eEos => exact (phaseOk_closing (.inl hp)).1 hok
  | dEos => exact (phaseOk_closing (.inr hp)).1 hok
  | _ => simp [hp, Phase.emits] at he

/-- Where CV = 1 no token is consumed, and the record is sound. -/
theorem recordOk_of_cv (hok : phaseOk s) (hcv : s.cv = true) : s.phase.consumes = false ∧ recordOk s := by
  rcases s.phase.consumes_or_emits_or_idle with hc | he | hp
  · simp [cv_of_consumes hok hc] at hcv
  · refine ⟨?_, (record_of_emits hok he).2⟩
    revert he; cases s.phase <;> decide
  · exact ⟨by rw [hp]; rfl, (phaseOk_idle hp).1 hok hcv⟩

/-- With no chunk held IDLE asks for nothing. -/
theorem phaseOk_idle_of_cv_false (hp : s.phase = .idle) (hcv : s.cv = false) : phaseOk s :=
  (phaseOk_idle hp).2 fun h => by simp [hcv] at h

end

/-! ## The checksum so far -/

/-- One more byte of a field in ACC: the last k + 1 bytes of the shifted field are the k before and the new
one. -/
theorem drop_be32_shiftIn {v : Word} {k : Nat} (hk : k < 4) (b : Byte) :
    (be32 (shiftIn v b)).drop (4 - (k + 1)) = (be32 v).drop (4 - k) ++ [b] := by
  rw [be32_shiftIn, List.drop_append_of_le_length (by simp), List.drop_drop]
  congr 2; omega

/-- One more payload byte in ACC and in BUF. -/
theorem crcUpdate_store {m : Memory} {acc t : Word} {n : Nat} (b : Byte) (hwf : m.wf = true)
    (hacc : acc = crcFold crcInit (be32 t ++ m.prefixBytes n)) :
    crcUpdate acc b = crcFold crcInit (be32 t ++ (m.write n b).prefixBytes (n + 1)) := by
  rw [Memory.prefixBytes_write_succ n b hwf, ← List.append_assoc, crcFold_concat, hacc]

/-! ## The steps of PARSE and BUILD keep what the phases establish -/

section
variable {s t : State}

theorem parseLenStep_phaseOk (hp : s.phase = .pLen) (hok : phaseOk s) (h : parseLenStep s = .next t) :
    phaseOk t := by
  obtain ⟨hcv, hidx⟩ := (phaseOk_pLen hp).1 hok
  rcases parseLenStep_cases h with ⟨_, rfl⟩ | ⟨_, _, _, ⟨_, rfl⟩ | ⟨h3, rfl⟩⟩ | ⟨_, _, rfl⟩
  · exact hok
  · exact (phaseOk_pType rfl).2 ⟨hcv, by simp, rfl⟩
  · exact (phaseOk_pLen (by exact hp)).2 ⟨hcv, by bv_omega⟩
  · exact phaseOk_idle_of_cv_false rfl hcv

theorem parseTypeStep_phaseOk (hp : s.phase = .pType) (hok : phaseOk s) (h : parseTypeStep s = .next t) :
    phaseOk t := by
  obtain ⟨hcv, hidx, hacc⟩ := (phaseOk_pType hp).1 hok
  rcases parseTypeStep_cases h with ⟨_, rfl⟩ | ⟨b, _, _, _, _, rfl, rfl, h⟩ | ⟨_, _, rfl⟩
  · exact hok
  · have hnew : crcUpdate s.acc b =
        crcFold crcInit ((be32 (shiftIn s.typ b)).drop (4 - (s.idx.toNat + 1))) := by
      rw [drop_be32_shiftIn hidx, crcFold_concat, hacc]
    have hlast (h3 : s.idx = 3#32) : crcUpdate s.acc b = crcFold crcInit (be32 (shiftIn s.typ b) ++ []) := by
      rw [hnew, h3, List.append_nil]; rfl
    rcases h with ⟨_, _, rfl⟩ | ⟨_, _, _, rfl⟩ | ⟨h3, ha, h0, rfl⟩ | ⟨h3, ha, h0, hl, rfl⟩ | ⟨h3, rfl⟩
    · exact phaseOk_idle_of_cv_false rfl hcv
    · exact phaseOk_idle_of_cv_false rfl hcv
    · refine (phaseOk_pCrc rfl).2 ⟨hcv, by simp, by simp [h0], ha, ?_⟩
      simpa [h0, Memory.prefixBytes_zero] using hlast h3
    · refine (phaseOk_pData rfl).2 ⟨hcv, one_le_toNat_of_ne_zero h0, hl, ha, hlast h3⟩
    · have hi : (s.idx + 1#32).toNat = s.idx.toNat + 1 := by bv_omega
      exact (phaseOk_pType (by exact hp)).2 ⟨hcv, by bv_omega, by simpa only [hi] using hnew⟩
  · exact phaseOk_idle_of_cv_false rfl hcv

theorem parseDataStep_phaseOk (hp : s.phase = .pData) (hwf : s.buf.wf = true) (hok : phaseOk s)
    (h : parseDataStep s = .next t) : phaseOk t := by
  obtain ⟨hcv, hidx, hlen, ha, hacc⟩ := (phaseOk_pData hp).1 hok
  rcases parseDataStep_cases h with ⟨_, rfl⟩ | ⟨b, _, _, _, _, _, rfl, rfl, ⟨hl, rfl⟩ | ⟨hl, rfl⟩⟩ | ⟨_, _, rfl⟩
  · exact hok
  · have hn : s.len.toNat = s.idx.toNat + 1 := by bv_omega
    exact (phaseOk_pCrc rfl).2 ⟨hcv, by simp, hlen, ha, by simpa only [hn] using crcUpdate_store b hwf hacc⟩
  · have hn : (s.idx + 1#32).toNat = s.idx.toNat + 1 := by bv_omega
    exact (phaseOk_pData (by exact hp)).2
      ⟨hcv, by bv_omega, hlen, ha, by simpa only [hn] using crcUpdate_store b hwf hacc⟩
  · exact phaseOk_idle_of_cv_false rfl hcv

theorem parseCrcStep_phaseOk (hp : s.phase = .pCrc) (hok : phaseOk s) (h : parseCrcStep s = .next t) :
    phaseOk t := by
  obtain ⟨hcv, hidx, hlen, ha, hacc⟩ := (phaseOk_pCrc hp).1 hok
  rcases parseCrcStep_cases h with ⟨_, rfl⟩ | ⟨_, _, _, _, _, ⟨_, _, rfl⟩ | ⟨_, _, rfl⟩ | ⟨h3, rfl⟩⟩ |
    ⟨_, _, rfl⟩
  · exact hok
  · exact (phaseOk_idle rfl).2 fun _ => ⟨ha, hlen, congrArg crcFinal hacc⟩
  · exact phaseOk_idle_of_cv_false rfl hcv
  · exact (phaseOk_pCrc (by exact hp)).2 ⟨hcv, by bv_omega, hlen, ha, hacc⟩
  · exact phaseOk_idle_of_cv_false rfl hcv

theorem buildStep_phaseOk (hp : s.phase = .bData) (hwf : s.buf.wf = true) (hok : phaseOk s)
    (h : buildStep s = .next t) : phaseOk t := by
  obtain ⟨hcv, hidx, ha, hacc⟩ := (phaseOk_bData hp).1 hok
  rcases buildStep_cases h with ⟨_, rfl⟩ | ⟨_, _, _, _, rfl⟩ | ⟨b, _, _, _, hlt, rfl⟩ | ⟨_, _, rfl⟩
  · exact hok
  · exact phaseOk_idle_of_cv_false rfl hcv
  · have hn : (s.idx + 1#32).toNat = s.idx.toNat + 1 := by bv_omega
    exact (phaseOk_bData (by exact hp)).2 ⟨hcv, by bv_omega, ha, by simpa only [hn] using crcUpdate_store b hwf hacc⟩
  · exact (phaseOk_idle rfl).2 fun _ => ⟨ha, hidx, congrArg crcFinal hacc⟩

/-! ## The steps of EMIT and EMITD keep what the phases establish -/

theorem emitFieldByte_phaseOk {v : Word} {p : Phase}
    (hp : s.phase = .eLen ∨ s.phase = .eType ∨ s.phase = .eCrc) (hok : phaseOk s)
    (hnext : phaseOk { s with phase := p, idx := 0#32 }) (h : emitFieldByte v p s = .next t) :
    phaseOk t := by
  obtain ⟨hcv, hrec, hidx⟩ := (phaseOk_field hp).1 hok
  obtain ⟨_, _, _, ⟨_, rfl⟩ | ⟨h3, rfl⟩⟩ := emitFieldByte_cases h
  · exact hnext
  · exact (phaseOk_field (by exact hp)).2 ⟨hcv, hrec, by bv_omega⟩

theorem emitPayloadByte_phaseOk {p : Phase} (hp : s.phase = .eData ∨ s.phase = .dData) (hok : phaseOk s)
    (hnext : phaseOk { s with phase := p, idx := 0#32 }) (h : emitPayloadByte p s = .next t) :
    phaseOk t := by
  obtain ⟨hcv, hrec, hidx⟩ := (phaseOk_payload hp).1 hok
  obtain ⟨_, _, _, ⟨_, rfl⟩ | ⟨h3, rfl⟩⟩ := emitPayloadByte_cases h
  · exact hnext
  · exact (phaseOk_payload (by exact hp)).2 ⟨hcv, hrec, by bv_omega⟩

theorem emitStep_phaseOk (he : s.phase.emits = true) (hok : phaseOk s) (h : engineStep s = .next t) :
    phaseOk t := by
  obtain ⟨hcv, hrec⟩ := record_of_emits hok he
  cases hp : s.phase with
  | eLen =>
    rw [engineStep_eLen hp] at h
    exact emitFieldByte_phaseOk (.inl hp) hok ((phaseOk_field (.inr (.inl rfl))).2 ⟨hcv, hrec, by simp⟩) h
  | eType =>
    rw [engineStep_eType hp] at h
    refine emitFieldByte_phaseOk (.inr (.inl hp)) hok ?_ h
    by_cases h0 : s.len = 0#32
    · rw [if_pos h0]; exact (phaseOk_field (.inr (.inr rfl))).2 ⟨hcv, hrec, by simp⟩
    · rw [if_neg h0]; exact (phaseOk_payload (.inl rfl)).2 ⟨hcv, hrec, one_le_toNat_of_ne_zero h0⟩
  | eData =>
    rw [engineStep_eData hp] at h
    exact emitPayloadByte_phaseOk (.inl hp) hok ((phaseOk_field (.inr (.inr rfl))).2 ⟨hcv, hrec, by simp⟩) h
  | eCrc =>
    rw [engineStep_eCrc hp] at h
    exact emitFieldByte_phaseOk (.inr (.inr hp)) hok ((phaseOk_closing (.inl rfl)).2 ⟨hcv, hrec⟩) h
  | dData =>
    rw [engineStep_dData hp] at h
    exact emitPayloadByte_phaseOk (.inr hp) hok ((phaseOk_closing (.inr rfl)).2 ⟨hcv, hrec⟩) h
  | eEos => rw [engineStep_eEos hp] at h; cases h; exact (phaseOk_idle rfl).2 fun _ => hrec
  | dEos => rw [engineStep_dEos hp] at h; cases h; exact (phaseOk_idle rfl).2 fun _ => hrec
  | _ => simp [hp, Phase.emits] at he

/-- A step of the engine keeps what the phases establish, given BUF in form. -/
theorem engineStep_phaseOk (hwf : s.buf.wf = true) (hok : phaseOk s) (h : engineStep s = .next t) :
    phaseOk t := by
  cases hp : s.phase with
  | idle => rw [engineStep_idle hp] at h; cases h; exact hok
  | pLen => exact parseLenStep_phaseOk hp hok ((engineStep_pLen hp).symm.trans h)
  | pType => exact parseTypeStep_phaseOk hp hok ((engineStep_pType hp).symm.trans h)
  | pData => exact parseDataStep_phaseOk hp hwf hok ((engineStep_pData hp).symm.trans h)
  | pCrc => exact parseCrcStep_phaseOk hp hok ((engineStep_pCrc hp).symm.trans h)
  | bData => exact buildStep_phaseOk hp hwf hok ((engineStep_bData hp).symm.trans h)
  | _ => exact emitStep_phaseOk (by rw [hp]; rfl) hok h

/-- A step of the engine keeps BUF in form. -/
theorem engineStep_wf (hwf : s.buf.wf = true) (h : engineStep s = .next t) : t.buf.wf = true := by
  rcases engineStep_buf h with hb | ⟨a, b, _, hb⟩
  · rwa [hb]
  · rw [hb]; exact Memory.write_wf a b hwf

/-! ## Every step keeps the invariant -/

/-- A step of the engine keeps every listed index of BUF below CAP. -/
theorem engineStep_below (hbelow : s.buf.below s.cap.toNat = true) (h : engineStep s = .next t) :
    t.buf.below t.cap.toNat = true := by
  rw [engineStep_cap h]
  rcases engineStep_buf h with hb | ⟨a, b, ha, hb⟩
  · rwa [hb]
  · rw [hb]; exact Memory.write_below b ha hbelow

theorem engineStep_inv (hinv : Inv s) (h : engineStep s = .next t) : Inv t where
  bufForm := engineStep_wf hinv.bufForm h
  bufRange := engineStep_below hinv.bufRange h
  errCode := by
    rcases engineStep_err h with he | ⟨_, he⟩
    · rw [he]; exact hinv.errCode
    · exact he
  errBusy hbusy := by
    have hs : s.phase ≠ .idle := fun hp => by
      rw [engineStep_idle hp] at h; cases h; exact hbusy hp
    rcases engineStep_err h with he | ⟨hidle, _⟩
    · rw [he]; exact hinv.errBusy hs
    · exact absurd hidle hbusy
  phase := engineStep_phaseOk hinv.bufForm hinv.phase h

/-- The invariant does not speak of TVIN, OVR, the streams and the host's fields. -/
theorem Inv.update (hinv : Inv s) (v : Word) (ov : Bool) (i o : List Token) (sc : List HostAct)
    (se : List HostObs) :
    Inv { s with tvin := v, ovr := ov, inq := i, outq := o, script := sc, seen := se } :=
  ⟨hinv.bufForm, hinv.bufRange, hinv.errCode, hinv.errBusy, hinv.phase⟩

/-- An error or a success reported while idle keeps the invariant. -/
theorem Inv.report (hinv : Inv s) (hp : s.phase = .idle) {e : BitVec 4} (he : e ∈ raisedCodes) :
    Inv { s with err := e } :=
  ⟨hinv.bufForm, hinv.bufRange, he, fun h => absurd hp h, hinv.phase⟩

theorem Inv.softReset (hinv : Inv s) : Inv (softReset s) :=
  ⟨hinv.bufForm, hinv.bufRange, by simp [raisedCodes], fun _ => rfl, phaseOk_idle_of_cv_false rfl rfl⟩

theorem Inv.acceptBuild (hinv : Inv s) : Inv (acceptBuild s) := by
  rcases acceptBuild_cases s with ⟨ha, h⟩ | ⟨_, h⟩ <;> rw [h]
  · refine ⟨hinv.bufForm, hinv.bufRange, by simp [raisedCodes], fun _ => rfl, (phaseOk_bData rfl).2 ⟨rfl, ?_, ha, ?_⟩⟩
    · exact Nat.zero_le _
    · simp [Memory.prefixBytes_zero]
  · exact ⟨hinv.bufForm, hinv.bufRange, by simp [raisedCodes], fun h => absurd rfl h, phaseOk_idle_of_cv_false rfl rfl⟩

theorem Inv.acceptParse (hinv : Inv s) :
    Inv { s with cv := false, err := 0#4, len := 0#32, idx := 0#32, phase := .pLen } :=
  ⟨hinv.bufForm, hinv.bufRange, by simp [raisedCodes], fun _ => rfl, (phaseOk_pLen rfl).2 ⟨rfl, by simp⟩⟩

/-- A phase that may begin with the record held, at IDX = 0. -/
theorem Inv.acceptEmit {p : Phase} (hinv : Inv s) (hp : s.phase = .idle)
    (hfirst : s.cv = true → recordOk s → phaseOk { s with phase := p, idx := 0#32 }) :
    Inv (acceptEmit p s) := by
  rcases acceptEmit_cases p s with ⟨hcv, h⟩ | ⟨_, h⟩ <;> rw [h]
  · exact ⟨hinv.bufForm, hinv.bufRange, by simp [raisedCodes], fun _ => rfl,
      hfirst hcv ((phaseOk_idle hp).1 hinv.phase hcv)⟩
  · rw [← hp]; exact hinv.report hp (by decide)

/-- EMITD begins with the payload, or with the EOS when there is none. -/
theorem phaseOk_emitd_first (hcv : s.cv = true) (hrec : recordOk s) :
    phaseOk { s with phase := if s.len = 0#32 then .dEos else .dData, idx := 0#32 } := by
  by_cases h0 : s.len = 0#32
  · rw [if_pos h0]; exact (phaseOk_closing (.inr rfl)).2 ⟨hcv, hrec⟩
  · rw [if_neg h0]; exact (phaseOk_payload (.inr rfl)).2 ⟨hcv, hrec, one_le_toNat_of_ne_zero h0⟩

theorem Inv.overrun (hinv : Inv s) : Inv (overrun s) :=
  hinv.update s.tvin true s.inq s.outq s.script s.seen

theorem exec_inv {i : Instr} (hinv : Inv s) (h : exec i s = .next t) : Inv t := by
  rcases exec_cases h with ⟨_, rfl⟩ | ⟨_, _, rfl⟩ | ⟨hp, h⟩
  · exact hinv.softReset
  · exact hinv.overrun
  · rcases h with ⟨_, rfl⟩ | ⟨_, _, rfl⟩ | ⟨_, _, rfl⟩ | ⟨_, rfl⟩ | ⟨_, rfl⟩ | ⟨_, rfl⟩ | ⟨_, rfl⟩
    · exact hinv.report hp (by decide)
    · exact hinv.report hp (by decide)
    · rw [raiseError_of_idle _ hp]; exact hinv.report hp (by decide)
    · exact hinv.acceptBuild
    · exact hinv.acceptParse
    · exact hinv.acceptEmit hp fun hcv hrec => (phaseOk_field (.inl rfl)).2 ⟨hcv, hrec, by simp⟩
    · exact hinv.acceptEmit hp phaseOk_emitd_first

theorem writeCmd_inv {w : Word} (hinv : Inv s) (h : writeCmd w s = .next t) : Inv t := by
  rcases writeCmd_cases h with ⟨_, _, h⟩ | ⟨_, h⟩
  · exact exec_inv hinv h
  · rcases illegalCommand_cases h with ⟨hp, rfl⟩ | ⟨_, rfl⟩
    · rw [raiseError_of_idle _ hp]; exact hinv.report hp (by decide)
    · exact hinv.overrun

theorem hostStep_inv {a : HostAct} {rest : List HostAct} (hinv : Inv s) (h : hostStep a rest s = .next t) :
    Inv t := by
  have hrest : Inv { s with script := rest } := hinv.update s.tvin s.ovr s.inq s.outq rest s.seen
  rcases hostStep_cases h with ⟨_, _, rfl⟩ | ⟨_, _, h⟩ | ⟨_, _, rfl⟩ | ⟨_, _, _, _, _, rfl⟩ | ⟨_, _, rfl⟩ |
    ⟨_, _, _, _, _, rfl⟩ | ⟨_, _, rfl⟩ | ⟨_, _, h⟩ | ⟨_, rfl⟩ | ⟨_, h⟩
  · exact hrest.update ..
  · exact writeCmd_inv hrest h
  · exact hrest.update ..
  · exact hrest
  · exact hrest.update ..
  · exact hinv.update ..
  · exact hrest
  · exact engineStep_inv hinv h
  · exact hrest.softReset
  · exact engineStep_inv hrest h

end

/-- Settles O48: IDLE with no chunk held, and BUF empty. -/
theorem resetMeetsTheInvariant : Obligations.ResetMeetsTheInvariant :=
  ⟨rfl, rfl, by decide, fun _ => rfl, phaseOk_idle_of_cv_false rfl rfl⟩

/-- Settles O49: the engine's step keeps each part of the invariant, and so does every action of the host. -/
theorem everyStepKeepsTheInvariant : Obligations.EveryStepKeepsTheInvariant := by
  intro s t hinv h
  rcases step_cases h with ⟨_, h⟩ | ⟨_, _, _, h⟩
  · exact engineStep_inv hinv h
  · exact hostStep_inv hinv h

/-- Settles O50, by the phases in which CV may be 1. -/
theorem chunkRecordInvariant : Obligations.ChunkRecordInvariant := by
  intro s hinv hcv
  obtain ⟨hc, hrec⟩ := recordOk_of_cv hinv.phase hcv
  refine ⟨?_, hrec⟩
  revert hc; cases s.phase <;> decide

/-! ## No step stops -/

section
variable {s : State}

theorem consume_next {f : Byte → State → Result} {g : State → Result}
    (hbyte : ∀ b, ∃ t, f b (inPop s) = .next t) (heos : ∃ t, g (inPop s) = .next t) :
    ∃ t, consume s f g = .next t := by
  match hq : s.inq with
  | [] => exact ⟨s, consume_nil hq⟩
  | .byte b :: _ => rw [consume_byte hq]; exact hbyte b
  | .eos :: _ => rw [consume_eos hq]; exact heos

theorem parseLenByte_next (b : Byte) (s : State) : ∃ t, parseLenByte b s = .next t := by
  by_cases h3 : s.idx = 3#32
  · exact ⟨_, parseLenByte_last b h3⟩
  · exact ⟨_, parseLenByte_early b h3⟩

theorem parseTypeByte_next (b : Byte) (s : State) : ∃ t, parseTypeByte b s = .next t := by
  by_cases h3 : s.idx = 3#32
  · exact ⟨_, parseTypeByte_last b h3⟩
  · exact ⟨_, parseTypeByte_early b h3⟩

theorem parseCrcByte_next (b : Byte) (s : State) : ∃ t, parseCrcByte b s = .next t := by
  by_cases h3 : s.idx = 3#32
  · exact ⟨_, parseCrcByte_last b h3⟩
  · exact ⟨_, parseCrcByte_early b h3⟩

/-- With IDX at most CAP a byte of BUILD is stored or finds the buffer full. -/
theorem buildByte_next (b : Byte) (hidx : s.idx.toNat ≤ s.cap.toNat) : ∃ t, buildByte b s = .next t := by
  by_cases hfull : s.idx = s.cap
  · exact ⟨_, buildByte_full b hfull⟩
  · exact ⟨_, buildByte_store b (lt_of_le_of_ne hidx fun h => hfull (BitVec.eq_of_toNat_eq h))⟩

/-- Where the phase is as established every access is in range, so the engine has a step. -/
theorem engineStep_next (hok : phaseOk s) : ∃ t, engineStep s = .next t := by
  cases hp : s.phase with
  | idle => exact ⟨s, engineStep_idle hp⟩
  | pLen => rw [engineStep_pLen hp]; exact consume_next (parseLenByte_next · _) ⟨_, rfl⟩
  | pType => rw [engineStep_pType hp]; exact consume_next (parseTypeByte_next · _) ⟨_, rfl⟩
  | pData =>
    obtain ⟨_, hidx, hlen, _⟩ := (phaseOk_pData hp).1 hok
    rw [engineStep_pData hp]
    exact consume_next (fun b => ⟨_, parseDataByte_next (s := inPop s) b (hidx.trans_le hlen)⟩) ⟨_, rfl⟩
  | pCrc => rw [engineStep_pCrc hp]; exact consume_next (parseCrcByte_next · _) ⟨_, rfl⟩
  | bData =>
    obtain ⟨_, hidx, _⟩ := (phaseOk_bData hp).1 hok
    rw [engineStep_bData hp]
    exact consume_next (buildByte_next (s := inPop s) · hidx) ⟨_, rfl⟩
  | eLen =>
    obtain ⟨_, _, hidx⟩ := (phaseOk_field (.inl hp)).1 hok
    exact ⟨_, (engineStep_eLen hp).trans (emitFieldByte_next hidx)⟩
  | eType =>
    obtain ⟨_, _, hidx⟩ := (phaseOk_field (.inr (.inl hp))).1 hok
    exact ⟨_, (engineStep_eType hp).trans (emitFieldByte_next hidx)⟩
  | eCrc =>
    obtain ⟨_, _, hidx⟩ := (phaseOk_field (.inr (.inr hp))).1 hok
    exact ⟨_, (engineStep_eCrc hp).trans (emitFieldByte_next hidx)⟩
  | eData =>
    obtain ⟨_, ⟨_, hlen, _⟩, hidx⟩ := (phaseOk_payload (.inl hp)).1 hok
    exact ⟨_, (engineStep_eData hp).trans (emitPayloadByte_next (hidx.trans_le hlen))⟩
  | dData =>
    obtain ⟨_, ⟨_, hlen, _⟩, hidx⟩ := (phaseOk_payload (.inr hp)).1 hok
    exact ⟨_, (engineStep_dData hp).trans (emitPayloadByte_next (hidx.trans_le hlen))⟩
  | eEos => exact ⟨_, (engineStep_eEos hp).trans (emitClose_next s)⟩
  | dEos => exact ⟨_, (engineStep_dEos hp).trans (emitClose_next s)⟩

theorem whenIdle_next (s t : State) : ∃ u, whenIdle s t = .next u := by
  by_cases hp : s.phase = .idle
  · exact ⟨_, whenIdle_idle hp⟩
  · exact ⟨_, whenIdle_busy hp⟩

/-- Every command has a meaning. -/
theorem exec_next (i : Instr) (s : State) : ∃ t, exec i s = .next t := by
  cases i with
  | srst => exact ⟨_, exec_srst s⟩
  | nop => exact whenIdle_next ..
  | tchk => exact whenIdle_next ..
  | build => exact whenIdle_next ..
  | parse => exact whenIdle_next ..
  | emit => exact whenIdle_next ..
  | emitd => exact whenIdle_next ..

theorem writeCmd_next (w : Word) (s : State) : ∃ t, writeCmd w s = .next t := by
  rcases eq_encode_or_gt_six w with ⟨i, rfl⟩ | hw
  · rw [writeCmd_encode]; exact exec_next i s
  · rw [writeCmd_of_gt_six hw]; exact whenIdle_next ..

/-- A host action has a step wherever the engine has one. -/
theorem hostStep_next (hok : phaseOk s) (a : HostAct) (rest : List HostAct) :
    ∃ t, hostStep a rest s = .next t := by
  cases a with
  | wr r v =>
    by_cases hc : r = .cmd
    · subst hc; exact writeCmd_next v _
    · cases r with
      | cmd => exact absurd rfl hc
      | _ => exact ⟨_, rfl⟩
  | drain => simp only [hostStep]; split <;> exact ⟨_, rfl⟩
  | wait =>
    simp only [hostStep]
    split
    · exact ⟨_, rfl⟩
    · exact engineStep_next hok
  | engine => exact engineStep_next (s := { s with script := rest }) hok
  | _ => exact ⟨_, rfl⟩

end

/-- Settles O51: every access is in range where the phase is as established, and every command has a
meaning. -/
theorem noStepStops : Obligations.NoStepStops := by
  intro s hinv
  match hs : s.script with
  | [] => rw [step_nil hs]; exact engineStep_next hinv.phase
  | a :: rest => rw [step_cons hs]; exact hostStep_next hinv.phase a rest

/-! ## The record held -/

/-- The record and BUF are the same in both states. -/
def SameRecord (s t : State) : Prop := t.len = s.len ∧ t.typ = s.typ ∧ t.crcr = s.crcr ∧ t.buf = s.buf

theorem heldChunk_eq_of_sameRecord {s t : State} (h : SameRecord s t) (hcv : t.cv = s.cv) :
    heldChunk t = heldChunk s := by
  obtain ⟨hlen, htyp, hcrcr, hbuf⟩ := h
  rw [heldChunk, heldChunk, hlen, htyp, hcrcr, hbuf, hcv]

/-- The engine does not touch the record while it is held. -/
theorem engineStep_sameRecord {s t : State} (hok : phaseOk s) (hcv : s.cv = true)
    (h : engineStep s = .next t) : SameRecord s t := by
  rcases s.phase.consumes_or_emits_or_idle with hc | he | hp
  · simp [cv_of_consumes hok hc] at hcv
  · rcases engineStep_emitting he h with ⟨_, _, _, rfl⟩ | rfl <;> exact ⟨rfl, rfl, rfl, rfl⟩
  · rw [engineStep_idle hp] at h; cases h; exact ⟨rfl, rfl, rfl, rfl⟩

/-- A command that leaves CV = 1 leaves the record. -/
theorem exec_sameRecord {i : Instr} {s t : State} (ht : t.cv = true)
    (h : exec i s = .next t) : SameRecord s t := by
  by_cases hp : s.phase = .idle
  · rcases exec_cv h with ⟨hf, _⟩ | ⟨_, hi, hne⟩
    · simp [ht] at hf
    · have hframe := exec_frame h
      obtain ⟨hbuf, _⟩ := hframe.always
      obtain ⟨_, hcrcr, _⟩ := hframe.unlessSrst hi
      obtain ⟨htyp, _⟩ := hframe.typAcc hi (hne hp).1
      exact ⟨hframe.len hi (hne hp).2, htyp, hcrcr, hbuf⟩
  · rcases exec_cases h with ⟨_, rfl⟩ | ⟨_, _, rfl⟩ | ⟨hidle, _⟩
    · cases ht
    · exact ⟨rfl, rfl, rfl, rfl⟩
    · exact absurd hidle hp

theorem writeCmd_sameRecord {w : Word} {s t : State} (ht : t.cv = true)
    (h : writeCmd w s = .next t) : SameRecord s t := by
  rcases writeCmd_cases h with ⟨_, _, h⟩ | ⟨_, h⟩
  · exact exec_sameRecord ht h
  · rcases illegalCommand_cases h with ⟨_, rfl⟩ | ⟨_, rfl⟩ <;> exact ⟨rfl, rfl, rfl, rfl⟩

theorem hostStep_sameRecord {a : HostAct} {rest : List HostAct} {s t : State} (hok : phaseOk s)
    (hcv : s.cv = true) (ht : t.cv = true) (h : hostStep a rest s = .next t) : SameRecord s t := by
  rcases hostStep_cases h with ⟨_, _, rfl⟩ | ⟨_, _, h⟩ | ⟨_, _, rfl⟩ | ⟨_, _, _, _, _, rfl⟩ | ⟨_, _, rfl⟩ |
    ⟨_, _, _, _, _, rfl⟩ | ⟨_, _, rfl⟩ | ⟨_, _, h⟩ | ⟨_, rfl⟩ | ⟨_, h⟩
  · exact ⟨rfl, rfl, rfl, rfl⟩
  · exact writeCmd_sameRecord (s := { s with script := rest }) ht h
  · exact ⟨rfl, rfl, rfl, rfl⟩
  · exact ⟨rfl, rfl, rfl, rfl⟩
  · exact ⟨rfl, rfl, rfl, rfl⟩
  · exact ⟨rfl, rfl, rfl, rfl⟩
  · exact ⟨rfl, rfl, rfl, rfl⟩
  · exact engineStep_sameRecord hok hcv h
  · cases ht
  · exact engineStep_sameRecord (s := { s with script := rest }) hok hcv h

/-- Settles O44: the engine and every host action that leaves CV = 1 leave the record. -/
theorem heldRecordIsImmutable : Obligations.HeldRecordIsImmutable := by
  intro s t hinv h hcv ht
  refine heldChunk_eq_of_sameRecord ?_ (ht.trans hcv.symm)
  rcases step_cases h with ⟨_, h⟩ | ⟨_, _, _, h⟩
  · exact engineStep_sameRecord hinv.phase hcv h
  · exact hostStep_sameRecord hinv.phase hcv ht h

end Sys2Proof.Machine

/-! # The function parse

The outcomes of the function parse, each under its own conditions; that it reads a wire form back; that it
detects every byte changed behind the length field; and the file that encode makes (42_frame_parser.md R175,
R176; 40_crc_unit.md section 4; 46_host_container.md R262, R263). -/

namespace Sys2Proof.Machine

open Sys2Proof

/-! ## The outcomes of the tests of R175 -/

section
variable {cap : Word} {s : List Byte}

theorem parseSlice_of_short_header (h : s.length < 8) : parseSlice cap s = .error .truncatedChunk := by
  rw [parseSlice, if_pos h]
  split <;> rfl

theorem parseSlice_of_not_alpha (hlen : 8 ≤ s.length) (ha : alpha4 (wordAt s 4) = false) :
    parseSlice cap s = .error .invalidChunkType := by
  rw [parseSlice, if_neg (by omega), if_neg (by omega), if_pos (by simp [ha])]

theorem parseSlice_of_capacity (hlen : 8 ≤ s.length) (ha : alpha4 (wordAt s 4) = true)
    (hcap : cap.toNat < (wordAt s 0).toNat) : parseSlice cap s = .error .capacity := by
  rw [parseSlice, if_neg (by omega), if_neg (by omega), if_neg (by simp [ha]), if_pos hcap]

theorem parseSlice_of_short_body (hlen : 8 ≤ s.length) (ha : alpha4 (wordAt s 4) = true)
    (hcap : (wordAt s 0).toNat ≤ cap.toNat) (hshort : s.length < 12 + (wordAt s 0).toNat) :
    parseSlice cap s = .error .truncatedChunk := by
  rw [parseSlice, if_neg (by omega), if_neg (by omega), if_neg (by simp [ha]), if_neg (by omega)]
  rw [if_pos hshort]
  split <;> rfl

theorem parseSlice_of_crc_ne (ha : alpha4 (wordAt s 4) = true) (hcap : (wordAt s 0).toNat ≤ cap.toNat)
    (hlen : 12 + (wordAt s 0).toNat ≤ s.length)
    (hcrc : wordAt s (8 + (wordAt s 0).toNat) ≠ crc32 (bytesAt s 4 (4 + (wordAt s 0).toNat))) :
    parseSlice cap s = .error .crcMismatch := by
  rw [parseSlice, if_neg (by omega), if_neg (by omega), if_neg (by simp [ha]), if_neg (by omega),
    if_neg (by omega), if_neg (by omega), if_pos hcrc]

end

/-! ## Fields of joined sequences -/

theorem bytesAt_append (pre d post : List Byte) : bytesAt (pre ++ d ++ post) pre.length d.length = d := by
  simp [bytesAt]

theorem wordAt_append (pre post : List Byte) (v : Word) : wordAt (pre ++ be32 v ++ post) pre.length = v := by
  apply be32_injective
  rw [be32_wordAt (by simp)]
  exact bytesAt_append pre (be32 v) post

/-- A slice that begins with two fields has them at 0 and 4 (30_encoding.md R91, R92). -/
theorem wordAt_header (l t : Word) (post : List Byte) :
    wordAt (be32 l ++ be32 t ++ post) 0 = l ∧ wordAt (be32 l ++ be32 t ++ post) 4 = t :=
  ⟨by simpa using wordAt_append [] (be32 t ++ post) l, wordAt_append (be32 l) post t⟩

theorem parseSlice_header_not_alpha {cap l t : Word} (ha : alpha4 t = false) (post : List Byte) :
    parseSlice cap (be32 l ++ be32 t ++ post) = .error .invalidChunkType := by
  obtain ⟨_, htyp⟩ := wordAt_header l t post
  exact parseSlice_of_not_alpha (by simp; omega) (by rw [htyp, ha])

theorem parseSlice_header_capacity {cap l t : Word} (ha : alpha4 t = true) (hcap : cap.toNat < l.toNat)
    (post : List Byte) : parseSlice cap (be32 l ++ be32 t ++ post) = .error .capacity := by
  obtain ⟨hlen, htyp⟩ := wordAt_header l t post
  exact parseSlice_of_capacity (by simp; omega) (by rw [htyp, ha]) (by rwa [hlen])

/-- A header that passes its tests, and fewer bytes behind it than the payload and the checksum take. -/
theorem parseSlice_header_short {cap l t : Word} {post : List Byte} (ha : alpha4 t = true)
    (hcap : l.toNat ≤ cap.toNat) (hshort : post.length < l.toNat + 4) :
    parseSlice cap (be32 l ++ be32 t ++ post) = .error .truncatedChunk := by
  obtain ⟨hlen, htyp⟩ := wordAt_header l t post
  exact parseSlice_of_short_body (by simp; omega) (by rw [htyp, ha]) (by rwa [hlen])
    (by rw [hlen]; simp; omega)

@[simp] theorem length_serializeChunk (c : Chunk) : (serializeChunk c).length = 12 + c.data.length := by
  simp [serializeChunk]; omega

/-- The fields of a wire form, whatever bytes follow (30_encoding.md R90 to R94). -/
theorem fields_of_serializeChunk {c : Chunk} (hlen : c.data.length = c.length.toNat) (post : List Byte) :
    wordAt (serializeChunk c ++ post) 0 = c.length ∧ wordAt (serializeChunk c ++ post) 4 = c.typ ∧
    bytesAt (serializeChunk c ++ post) 8 c.length.toNat = c.data ∧
    bytesAt (serializeChunk c ++ post) 4 (4 + c.length.toNat) = be32 c.typ ++ c.data ∧
    wordAt (serializeChunk c ++ post) (8 + c.length.toNat) = c.crc := by
  have hdata := bytesAt_append (be32 c.length ++ be32 c.typ) c.data (be32 c.crc ++ post)
  have hbody := bytesAt_append (be32 c.length) (be32 c.typ ++ c.data) (be32 c.crc ++ post)
  have hcrc := wordAt_append (be32 c.length ++ be32 c.typ ++ c.data) post c.crc
  obtain ⟨hfirst, hsecond⟩ := wordAt_header c.length c.typ (c.data ++ be32 c.crc ++ post)
  simp only [serializeChunk, List.append_assoc, List.length_append, length_be32, ← Nat.add_assoc, Nat.reduceAdd,
    ← hlen] at *
  exact ⟨hfirst, hsecond, hdata, hbody, hcrc⟩

/-! ## A wire form parsed -/

theorem Chunk.sound_iff {cap : Word} {c : Chunk} :
    c.sound cap = true ↔
      alpha4 c.typ = true ∧ c.data.length = c.length.toNat ∧ c.length.toNat ≤ cap.toNat ∧
        c.crc = chunkCrc c.typ c.data := by
  simp [Chunk.sound, and_assoc]

theorem parseSlice_serializeChunk {cap : Word} {c : Chunk} (hc : c.sound cap = true) (post : List Byte) :
    parseSlice cap (serializeChunk c ++ post) = .ok (c, 12 + c.length.toNat) := by
  obtain ⟨ha, hlen, hcap, hcrc⟩ := Chunk.sound_iff.1 hc
  obtain ⟨h0, h4, hdata, hbody, hstored⟩ := fields_of_serializeChunk hlen post
  rw [parseSlice_eq_ok_iff, h0, h4, hdata, hbody, hstored]
  exact ⟨ha, hcap, by simp [hlen], hcrc, by rw [← chunkCrc, ← hcrc], rfl⟩

/-- A wire form whose stored checksum is another is refused, whatever bytes follow. -/
theorem parseSlice_serializeChunk_mismatch {cap : Word} {c : Chunk} (ha : alpha4 c.typ = true)
    (hlen : c.data.length = c.length.toNat) (hcap : c.length.toNat ≤ cap.toNat)
    (hcrc : c.crc ≠ chunkCrc c.typ c.data) (post : List Byte) :
    parseSlice cap (serializeChunk c ++ post) = .error .crcMismatch := by
  obtain ⟨h0, h4, _, hbody, hstored⟩ := fields_of_serializeChunk hlen post
  apply parseSlice_of_crc_ne
  · rwa [h4]
  · rwa [h0]
  · simp [h0, hlen]
  · rwa [h0, hbody, hstored]

theorem sound_of_parseSlice {cap : Word} {s : List Byte} {c : Chunk} {n : Nat}
    (h : parseSlice cap s = .ok (c, n)) : c.sound cap = true := by
  obtain ⟨ha, hcap, hlen, _, rfl, rfl⟩ := parseSlice_eq_ok_iff.1 h
  refine Chunk.sound_iff.2 ⟨ha, by simp [bytesAt]; omega, hcap, ?_⟩
  rw [chunkCrc, be32_wordAt (by omega), bytesAt, bytesAt, bytesAt, show 8 = 4 + 4 from rfl, ← List.drop_drop,
    List.take_add]

/-- Settles O55: the fields of a wire form are those of the chunk, and an accepted slice passed every test. -/
theorem wireFormRoundTrip : Obligations.WireFormRoundTrip := by
  refine ⟨fun cap c rest hc => parseSlice_serializeChunk hc rest, fun cap s c n h => ?_⟩
  exact ⟨sound_of_parseSlice h, serializeChunk_of_parseSlice h⟩

/-! ## A changed byte -/

/-- Settles O27: from the changed byte on the accumulators differ. -/
theorem oneChangedByteChangesTheChecksum : Obligations.OneChangedByteChangesTheChecksum := by
  intro pre post b b' hne h
  have hacc := crcFinal_injective h
  simp only [crcFold_append, crcFold_cons] at hacc
  exact hne (crcUpdate_byte_injective (crcFold_injective hacc))

theorem crc32_set_ne {s : List Byte} {i : Nat} {x : Byte} (hi : i < s.length) (hx : x ≠ s[i]) :
    crc32 (s.set i x) ≠ crc32 s := by
  have hs : s = s.take i ++ s[i] :: s.drop (i + 1) := by simp
  rw [List.set_eq_take_append_cons_drop, if_pos hi]
  conv_rhs => rw [hs]
  exact oneChangedByteChangesTheChecksum _ _ _ _ hx

theorem bytesAt_set_inside {s : List Byte} {i off : Nat} (x : Byte) (n : Nat) (h : off ≤ i) :
    bytesAt (s.set i x) off n = (bytesAt s off n).set (i - off) x := by
  rw [bytesAt, bytesAt, List.drop_set, if_neg (by omega), List.take_set]

theorem bytesAt_set_outside {s : List Byte} {i off n : Nat} (x : Byte) (h : i < off ∨ off + n ≤ i) :
    bytesAt (s.set i x) off n = bytesAt s off n := by
  rcases h with h | h
  · rw [bytesAt, List.drop_set, if_pos h, bytesAt]
  · rw [bytesAt_set_inside x n (by omega), List.set_eq_of_length_le]
    simp [bytesAt]; omega

theorem getElem_bytesAt {s : List Byte} {off n j : Nat} (h : j < (bytesAt s off n).length) :
    (bytesAt s off n)[j] = s.getD (off + j) 0 := by
  have hj : off + j < s.length := by simp [bytesAt] at h; omega
  rw [List.getD_eq_getElem _ _ hj]
  simp [bytesAt]

theorem length_bytesAt {s : List Byte} {off n : Nat} (h : off + n ≤ s.length) : (bytesAt s off n).length = n := by
  simp [bytesAt]; omega

section
variable {s : List Byte} {i off : Nat} {x : Byte}

theorem wordAt_set_outside (x : Byte) (hlen : off + 4 ≤ s.length) (h : i < off ∨ off + 4 ≤ i) :
    wordAt (s.set i x) off = wordAt s off := by
  apply be32_injective
  rw [be32_wordAt (by simpa using hlen), be32_wordAt hlen, bytesAt_set_outside x h]

theorem wordAt_set_ne (hlen : off + 4 ≤ s.length) (hoff : off ≤ i) (hi : i < off + 4) (hx : x ≠ s.getD i 0) :
    wordAt (s.set i x) off ≠ wordAt s off := by
  intro h
  have hbytes := congrArg be32 h
  rw [be32_wordAt (by simpa using hlen), be32_wordAt hlen, bytesAt_set_inside x 4 hoff] at hbytes
  have hlt : i - off < (bytesAt s off 4).length := by rw [length_bytesAt hlen]; omega
  have hget := congrArg (·[i - off]?) hbytes
  simp only [List.getElem?_set_self hlt, List.getElem?_eq_getElem hlt, getElem_bytesAt, Option.some_inj] at hget
  exact hx (by rw [hget]; congr 1; omega)

theorem crc32_bytesAt_set_ne {n : Nat} (hlen : off + n ≤ s.length) (hoff : off ≤ i) (hi : i < off + n)
    (hx : x ≠ s.getD i 0) : crc32 (bytesAt (s.set i x) off n) ≠ crc32 (bytesAt s off n) := by
  have hlt : i - off < (bytesAt s off n).length := by rw [length_bytesAt hlen]; omega
  rw [bytesAt_set_inside x n hoff]
  refine crc32_set_ne hlt ?_
  rw [getElem_bytesAt hlt]
  rwa [show off + (i - off) = i by omega]

/-- A byte of an accepted slice changed behind the length field, with four letters left in the type: either
the checksum or what it is compared with differs, and never both. -/
theorem parseSlice_set_mismatch {cap : Word} {c : Chunk} {n : Nat} (h : parseSlice cap s = .ok (c, n))
    (hi4 : 4 ≤ i) (hin : i < n) (hx : x ≠ s.getD i 0) (ha : alpha4 (wordAt (s.set i x) 4) = true) :
    parseSlice cap (s.set i x) = .error .crcMismatch := by
  obtain ⟨_, hcap, hlen, hcrc, _, rfl⟩ := parseSlice_eq_ok_iff.1 h
  have h0 : wordAt (s.set i x) 0 = wordAt s 0 := wordAt_set_outside x (by omega) (by omega)
  apply parseSlice_of_crc_ne ha
  · rwa [h0]
  · rw [h0, List.length_set]; exact hlen
  · rw [h0]
    by_cases hbody : i < 8 + (wordAt s 0).toNat
    · rw [wordAt_set_outside x (by omega) (by omega), hcrc]
      exact (crc32_bytesAt_set_ne (by omega) hi4 (by omega) hx).symm
    · rw [bytesAt_set_outside x (by omega), ← hcrc]
      exact wordAt_set_ne (by omega) (by omega) (by omega) hx

end

/-- A flipped bit changes its byte. -/
theorem xor_bit_ne (b : Byte) {k : Nat} (hk : k < 8) : b ^^^ (1#8 <<< k) ≠ b := by
  intro h
  have hbit : (b ^^^ (1#8 <<< k)).getLsbD k = b.getLsbD k := by rw [h]
  simp [hk] at hbit

/-- Settles O28, by the changed byte: its place decides which of the two compared values differs, and in the
type also whether the letters are left. -/
theorem singleBitCorruptionIsDetected : Obligations.SingleBitCorruptionIsDetected := by
  intro cap s c n i k h hk
  have hx : s.getD i 0 ^^^ (1#8 <<< k) ≠ s.getD i 0 := xor_bit_ne _ hk
  obtain ⟨halpha, _, hlen, _, _, hn⟩ := parseSlice_eq_ok_iff.1 h
  refine ⟨fun hi hin => ?_, fun hi hi8 => ?_⟩
  · refine parseSlice_set_mismatch h (by omega) hin hx ?_
    rwa [wordAt_set_outside _ (by omega) (by omega)]
  · by_cases ha : alpha4 (wordAt (flipBit s i k) 4) = true
    · rw [if_pos ha]; exact parseSlice_set_mismatch h hi (by omega) hx ha
    · rw [if_neg ha]
      exact parseSlice_of_not_alpha (by rw [flipBit, List.length_set]; omega) (by simpa using ha)

/-! ## The file that encode makes -/

theorem buildChunk_eq_ok_iff {cap t : Word} {d : List Byte} {c : Chunk} :
    buildChunk cap t d = .ok c ↔
      alpha4 t = true ∧ d.length ≤ cap.toNat ∧ c = ⟨BitVec.ofNat 32 d.length, t, d, chunkCrc t d⟩ := by
  simp only [buildChunk, ite_error_eq_ok_iff, Except.ok.injEq, not_lt, eq_comm (a := c)]
  simp

theorem sound_of_buildChunk {cap t : Word} {d : List Byte} {c : Chunk} (h : buildChunk cap t d = .ok c) :
    c.sound cap = true := by
  obtain ⟨ha, hlen, rfl⟩ := buildChunk_eq_ok_iff.1 h
  have hd : (BitVec.ofNat 32 d.length).toNat = d.length := by
    have := cap.isLt
    rw [BitVec.toNat_ofNat]; omega
  exact Chunk.sound_iff.2 ⟨ha, hd.symm, hd.trans_le hlen, rfl⟩

theorem containerSerialize_appendChunk (c : Chunk) (cs : List Chunk) :
    containerSerialize (appendChunk c cs) = containerSerialize cs ++ serializeChunk c := by
  simp [containerSerialize, appendChunk]

theorem encodeFile_eq_ok_iff {cap : Word} {trailingHdr : Nat} {file out : List Byte}
    {message name : List Char} :
    encodeFile cap trailingHdr file message name = .ok out ↔
      ∃ (cs : List Chunk) (t : Word) (c : Chunk), containerParse cap trailingHdr file = .ok cs ∧
        parseStr name = .ok t ∧ buildChunk cap t (utf8Encode message) = .ok c ∧
        out = file ++ serializeChunk c := by
  rw [encodeFile]
  cases hfile : containerParse cap trailingHdr file with
  | error k => simp
  | ok cs =>
    cases hname : parseStr name with
    | error k => simp
    | ok t =>
      cases hbuild : buildChunk cap t (utf8Encode message) with
      | error k => simp [hbuild]
      | ok c =>
        simp [hbuild, containerSerialize_appendChunk, fileRoundTrip cap trailingHdr file cs hfile, eq_comm]

/-- One round of the container parse on a slice that begins with a wire form. -/
theorem containerLoop_serializeChunk {cap : Word} {trailingHdr fuel : Nat} {c : Chunk} {post : List Byte}
    {cs : List Chunk} (hc : c.sound cap = true) (hlen : trailingHdr ≤ 12 + c.data.length + post.length)
    (h : containerLoop cap trailingHdr fuel post = .ok cs) :
    containerLoop cap trailingHdr (fuel + 1) (serializeChunk c ++ post) = .ok (c :: cs) := by
  obtain ⟨_, hdata, _, _⟩ := Chunk.sound_iff.1 hc
  have hne : serializeChunk c ++ post ≠ [] := fun h0 => by
    have := congrArg List.length h0
    simp at this
  have hdrop : (serializeChunk c ++ post).drop (12 + c.length.toNat) = post := by
    rw [List.drop_append_of_le_length (by simp [hdata]), List.drop_eq_nil_of_le (by simp [hdata])]; rfl
  rw [containerLoop, if_neg hne, if_neg (by simp; omega), parseSlice_serializeChunk hc]
  simp only [hdrop, h]

/-- A sound chunk behind accepted bytes is found behind their chunks. -/
theorem containerLoop_append {cap : Word} {trailingHdr : Nat} {c : Chunk} (hc : c.sound cap = true)
    (hhdr : trailingHdr ≤ 12) {fuel fuel' : Nat} {r : List Byte} {cs : List Chunk} (hfuel : r.length ≤ fuel)
    (hfuel' : r.length < fuel') (h : containerLoop cap trailingHdr fuel r = .ok cs) :
    containerLoop cap trailingHdr fuel' (r ++ serializeChunk c) = .ok (cs ++ [c]) := by
  obtain ⟨fuel', rfl⟩ : ∃ k, fuel' = k + 1 := ⟨fuel' - 1, by omega⟩
  induction fuel generalizing fuel' r cs with
  | zero =>
    obtain rfl := List.length_eq_zero_iff.1 (Nat.le_zero.1 hfuel)
    cases h
    simpa using containerLoop_serializeChunk (fuel := fuel') (post := []) (cs := []) hc (by omega)
      (by cases fuel' <;> rfl)
  | succ fuel ih =>
    obtain ⟨rfl, rfl⟩ | ⟨_, hlen, d, n, ds, hparse, hrest, rfl⟩ := containerLoop_succ_ok h
    · simpa using containerLoop_serializeChunk (fuel := fuel') (post := []) (cs := []) hc (by omega)
        (by cases fuel' <;> rfl)
    · obtain ⟨hn, hwire⟩ := serializeChunk_of_parseSlice hparse
      have hr : r = serializeChunk d ++ r.drop n := by rw [hwire, List.take_append_drop]
      have hrlen : r.length = 12 + d.data.length + (r.drop n).length := by
        conv_lhs => rw [hr]
        simp
      obtain ⟨k, rfl⟩ : ∃ k, fuel' = k + 1 := ⟨fuel' - 1, by omega⟩
      have hih := ih (by omega) hrest k (by omega)
      rw [hr, List.append_assoc, List.cons_append]
      exact containerLoop_serializeChunk (sound_of_parseSlice hparse) (by simp; omega) hih

/-- A sound chunk appended to an accepted file is the last chunk of the new file. -/
theorem containerParse_append {cap : Word} {trailingHdr : Nat} {c : Chunk} {file : List Byte}
    {cs : List Chunk} (hc : c.sound cap = true) (hhdr : trailingHdr ≤ 12)
    (h : containerParse cap trailingHdr file = .ok cs) :
    containerParse cap trailingHdr (file ++ serializeChunk c) = .ok (cs ++ [c]) := by
  rw [containerParse, ite_error_eq_ok_iff, not_not] at h ⊢
  obtain ⟨hsig, hloop⟩ := h
  have hlen : 8 ≤ file.length := by
    have := congrArg List.length hsig
    simp [pngSignature] at this; omega
  rw [List.take_append_of_le_length hlen, List.drop_append_of_le_length hlen]
  exact ⟨hsig, containerLoop_append hc hhdr le_rfl (by simp) hloop⟩

theorem decodeFile_of_containerParse {cap : Word} {trailingHdr : Nat} {r : TextRules} {file : List Byte}
    {t : Word} {cs : List Chunk} (h : containerParse cap trailingHdr file = .ok cs) :
    decodeFile cap trailingHdr r file t = .ok ((chunksByType t cs).map fun c => textLossy r c.data) := by
  rw [decodeFile, h]

/-- decode of what encode made of a file without the type is the message alone. -/
theorem decodeFile_encodeFile {cap : Word} {trailingHdr : Nat} {r : TextRules} {file out : List Byte}
    {message name : List Char} {t : Word} (hhdr : trailingHdr ≤ 12) (hr : r.acceptsText)
    (hnone : decodeFile cap trailingHdr r file t = .ok []) (hname : parseStr name = .ok t)
    (h : encodeFile cap trailingHdr file message name = .ok out) :
    decodeFile cap trailingHdr r out t = .ok [message] := by
  obtain ⟨cs, t', c, hfile, hname', hbuild, rfl⟩ := encodeFile_eq_ok_iff.1 h
  obtain rfl : t' = t := by rw [hname] at hname'; cases hname'; rfl
  have hcs : chunksByType t' cs = [] := by simpa [decodeFile_of_containerParse hfile] using hnone
  rw [decodeFile_of_containerParse (containerParse_append (sound_of_buildChunk hbuild) hhdr hfile)]
  obtain ⟨_, _, rfl⟩ := buildChunk_eq_ok_iff.1 hbuild
  rw [chunksByType_append, hcs, List.nil_append, chunksByType_cons_of_eq (by rfl), chunksByType_nil]
  simp [textLossy_utf8Encode r hr]

/-- Settles O60: the new chunk is the last of the file, whose payload is the message's encoding; the source's
message is computed. -/
theorem encodeThenDecodeGivesTheMessage : Obligations.EncodeThenDecodeGivesTheMessage := by
  refine ⟨fun _ _ _ _ _ _ => encodeFile_eq_ok_iff,
    fun _ _ _ _ _ _ _ _ hhdr hr hnone hname h => decodeFile_encodeFile hhdr hr hnone hname h,
    by decide, fun cap hcap => ⟨_, buildChunk_eq_ok_iff.2 ⟨by decide, hcap, rfl⟩, by decide, ?_⟩⟩
  decide +kernel

end Sys2Proof.Machine

/-! # VALID

Of four letters, with the case of some of them changed, VALID is the case bit of the third alone
(41_type_validator.md R144, R146; 90_conflicts.md C3, C6). -/

namespace Sys2Proof.Machine

open Sys2Proof

theorem byteK_xor (k : Nat) (v m : Word) : byteK k (v ^^^ m) = byteK k v ^^^ byteK k m := by
  simp [byteK, BitVec.ushiftRight_xor_distrib, BitVec.setWidth_xor]

/-- Bit 5 is the case bit of a letter (90_conflicts.md C3). -/
theorem isAlpha_xor_caseBit {b : Byte} (hb : isAlpha b = true) : isAlpha (b ^^^ 0x20#8) = true := by
  revert b; decide

/-- Letters stay letters when the case of some of them is changed. -/
theorem alpha4_xor_caseBits {v m : Word} (ha : alpha4 v = true)
    (hm : ∀ k < 4, byteK k m = 0x00#8 ∨ byteK k m = 0x20#8) : alpha4 (v ^^^ m) = true := by
  have hbyte : ∀ k < 4, isAlpha (byteK k v) = true → isAlpha (byteK k (v ^^^ m)) = true := by
    intro k hk hb
    rw [byteK_xor]
    rcases hm k hk with hz | hc
    · rwa [hz, BitVec.xor_zero]
    · rw [hc]; exact isAlpha_xor_caseBit hb
  simp only [alpha4, Bool.and_eq_true] at ha ⊢
  obtain ⟨⟨⟨h0, h1⟩, h2⟩, h3⟩ := ha
  exact ⟨⟨⟨hbyte 0 (by omega) h0, hbyte 1 (by omega) h1⟩, hbyte 2 (by omega) h2⟩, hbyte 3 (by omega) h3⟩

/-- Of a type of four letters, with some cases changed, VALID is bit 13 alone. -/
theorem isValid_xor_caseBits {v m : Word} (ha : alpha4 v = true)
    (hm : ∀ k < 4, byteK k m = 0x00#8 ∨ byteK k m = 0x20#8) :
    isValid (v ^^^ m) = !(v.getLsbD 13 ^^ m.getLsbD 13) := by
  simp [isValid, reservedOk, alpha4_xor_caseBits ha hm]

/-- Settles O24: letters stay letters, and only the third mask has bit 13. -/
theorem validDependsOnTheThirdLetterAlone : Obligations.ValidDependsOnTheThirdLetterAlone := by
  intro v ha
  have hv : isValid v = !v.getLsbD 13 := by simp [isValid, reservedOk, ha]
  rw [isValid_xor_caseBits ha (by decide), isValid_xor_caseBits ha (by decide),
    isValid_xor_caseBits ha (by decide), isValid_xor_caseBits ha (by decide), hv]
  cases v.getLsbD 13 <;> decide

end Sys2Proof.Machine

/-! # EMIT and EMITD as a whole

What EMIT and EMITD do from their acceptance to IDLE: the phases one after another (44_serializer.md
section 3). -/

namespace Sys2Proof.Machine

open Sys2Proof

/-- A run of one step. -/
theorem stepMany_one {s t : State} (h : step s = .next t) : stepMany 1 s = .next t :=
  stepMany_succ h

/-- A write of the word of a command, as the last action of the script. -/
theorem step_cmdAct {i : Instr} {s : State} (hs : s.script = [cmdAct i]) :
    step s = exec i { s with script := [] } :=
  (step_wr_cmd hs).trans (writeCmd_encode i _)

theorem heldChunk_eq_some_iff {s : State} {c : Chunk} :
    heldChunk s = some c ↔
      s.cv = true ∧ c = ⟨s.len, s.typ, s.buf.prefixBytes s.len.toNat, s.crcr⟩ := by
  rw [heldChunk]
  cases s.cv <;> simp [eq_comm]

theorem heldChunk_of_cv_false {s : State} (h : s.cv = false) : heldChunk s = none := by
  simp [heldChunk, h]

/-! ## The phases one after another -/

/-- The serializer at the beginning of a phase, with OUTQ as given and no host action left. -/
def State.sending (s : State) (p : Phase) (o : List Token) : State :=
  { s with script := [], err := 0#4, phase := p, idx := 0#32, outq := o }

section
variable {s : State} (o : List Token)

theorem step_emit_accepted (hs : s.script = [cmdAct .emit]) (hp : s.phase = .idle) (hcv : s.cv = true) :
    step s = .next (s.sending .eLen s.outq) := by
  obtain ⟨_, hemit⟩ := emitAcceptance
  obtain ⟨haccept, _⟩ := hemit { s with script := [] }
  exact (step_cmdAct hs).trans (haccept hp hcv)

theorem step_emitd_accepted (hs : s.script = [cmdAct .emitd]) (hp : s.phase = .idle) (hcv : s.cv = true) :
    step s = .next (s.sending (if s.len = 0#32 then .dEos else .dData) s.outq) := by
  obtain ⟨_, hemitd⟩ := emitdAcceptance
  obtain ⟨hpayload, hempty, _⟩ := hemitd { s with script := [] }
  by_cases h0 : s.len = 0#32
  · rw [if_pos h0]; exact (step_cmdAct hs).trans (hempty hp hcv h0)
  · rw [if_neg h0]; exact (step_cmdAct hs).trans (hpayload hp hcv h0)

theorem stepMany_sending_eLen :
    stepMany 4 (s.sending .eLen o) = .next (s.sending .eType (o ++ (be32 s.len).map .byte)) :=
  (sendsBytes_eLen (s := s.sending .eLen o) rfl rfl).stepMany_field rfl

theorem stepMany_sending_eType :
    stepMany 4 (s.sending .eType o) =
      .next (s.sending (if s.len = 0#32 then .eCrc else .eData) (o ++ (be32 s.typ).map .byte)) :=
  (sendsBytes_eType (s := s.sending .eType o) rfl rfl).stepMany_field rfl

theorem stepMany_sending_eCrc :
    stepMany 4 (s.sending .eCrc o) = .next (s.sending .eEos (o ++ (be32 s.crcr).map .byte)) :=
  (sendsBytes_eCrc (s := s.sending .eCrc o) rfl rfl).stepMany_field rfl

/-- The payload takes LEN steps in phase p, none when it is empty and p is left out. -/
theorem stepMany_sending_payload {p q : Phase} (h : SendsBytes s.buf.read s.len q (s.sending p o)) :
    stepMany s.len.toNat (s.sending (if s.len = 0#32 then q else p) o) =
      .next (s.sending q (o ++ (s.buf.prefixBytes s.len.toNat).map .byte)) := by
  by_cases h0 : s.len = 0#32
  · rw [if_pos h0, h0]; simp [Memory.prefixBytes_zero]
  · rw [if_neg h0]; exact h.stepMany_all (one_le_toNat_of_ne_zero h0) rfl

/-- The closing EOS ends the command. -/
theorem step_sending_eos {p : Phase} (hp : p = .eEos ∨ p = .dEos) :
    step (s.sending p o) = .next (s.sending .idle (o ++ [.eos])) :=
  emitClosesWithEos (s.sending p o) rfl hp

/-- EMIT after its acceptance sends the four parts of the wire form and the EOS. -/
theorem stepMany_emit (hlen : s.len.toNat ≤ s.cap.toNat) :
    stepMany (13 + s.len.toNat) (s.sending .eLen o) =
      .next (s.sending .idle (o ++ sliceTokens
        (serializeChunk ⟨s.len, s.typ, s.buf.prefixBytes s.len.toNat, s.crcr⟩))) := by
  have hdata := stepMany_sending_payload (s := s) (o ++ (be32 s.len).map .byte ++ (be32 s.typ).map .byte)
    (sendsBytes_eData (s := s.sending .eData _) rfl rfl hlen)
  rw [show 13 + s.len.toNat = 4 + (4 + (s.len.toNat + (4 + 1))) by omega,
    stepMany_add (stepMany_sending_eLen o), stepMany_add (stepMany_sending_eType _), stepMany_add hdata,
    stepMany_add (stepMany_sending_eCrc _), stepMany_one (step_sending_eos _ (.inl rfl))]
  simp [sliceTokens, serializeChunk]

/-- EMITD after its acceptance sends the payload and the EOS. -/
theorem stepMany_emitd (hlen : s.len.toNat ≤ s.cap.toNat) :
    stepMany (s.len.toNat + 1) (s.sending (if s.len = 0#32 then .dEos else .dData) o) =
      .next (s.sending .idle (o ++ sliceTokens (s.buf.prefixBytes s.len.toNat))) := by
  have hdata := stepMany_sending_payload (s := s) o (sendsBytes_dData (s := s.sending .dData o) rfl rfl hlen)
  rw [stepMany_add hdata, stepMany_one (step_sending_eos _ (.inr rfl))]
  simp [sliceTokens]

end

/-- Settles O54: the acceptance, then the phases of each command one after another. -/
theorem emitComputesTheWireForm : Obligations.EmitComputesTheWireForm := by
  intro s c hp hheld hlen
  obtain ⟨hcv, rfl⟩ := heldChunk_eq_some_iff.1 hheld
  refine ⟨fun hs => ?_, fun hs => ?_⟩
  · rw [stepMany_add (stepMany_one (step_emit_accepted hs hp hcv)), stepMany_emit _ hlen, State.sending, ← hp]
  · rw [stepMany_add (stepMany_one (step_emitd_accepted hs hp hcv)), stepMany_emitd _ hlen, State.sending, ← hp]

end Sys2Proof.Machine

/-! # PARSE and BUILD as a whole

What PARSE and BUILD do from their acceptance to IDLE. Both read a slice byte by byte, so one induction over
its bytes serves them; each gives what it has taken so far and what a token leads to (42_frame_parser.md
section 5; 43_chunk_builder.md section 3). -/

namespace Sys2Proof.Machine

open Sys2Proof

/-! ## Reading a slice -/

/-- What k steps of a command that consumes tokens leave, and the tokens they take. -/
structure TookTokens (k : Nat) (s t : State) : Prop where
  script : t.script = s.script
  seen : t.seen = s.seen
  outq : t.outq = s.outq
  tvin : t.tvin = s.tvin
  ovr : t.ovr = s.ovr
  cap : t.cap = s.cap
  inq : t.inq = s.inq.drop k

theorem tookTokens_step {s t : State} (hs : s.script = []) (hc : s.phase.consumes = true)
    (h : step s = .next t) : TookTokens 1 s t := by
  rw [step_nil hs] at h
  obtain ⟨hcap, htvin, hovr, hscript, hseen⟩ := engineStep_frame h
  have htook := engineStep_consuming hc h
  exact ⟨hscript, hseen, htook.outq, htvin, hovr, hcap, by rw [htook.inq, List.drop_one]⟩

theorem TookTokens.trans {j k : Nat} {s t u : State} (h : TookTokens j s t) (h' : TookTokens k t u) :
    TookTokens (j + k) s u :=
  ⟨h'.script.trans h.script, h'.seen.trans h.seen, h'.outq.trans h.outq, h'.tvin.trans h.tvin,
    h'.ovr.trans h.ovr, h'.cap.trans h.cap, by rw [h'.inq, h.inq, List.drop_drop]⟩

/-- The state shows the outcome of a command: the chunk held, or the error's code and no chunk. -/
def ShowsOutcome (t : State) : Except ErrorKind Chunk → Prop
  | .ok c => t.err = 0#4 ∧ heldChunk t = some c
  | .error k => t.err = k.code ∧ heldChunk t = none

/-- A command that reads a slice: in the states P it has taken the bytes soFar; each token leads to a state
of P or ends the command with the outcome of the function, after the tokens it counts. -/
structure ReadsSlice (P : State → Prop) (soFar : State → List Byte) (tokens : List Byte → Nat)
    (outcome : List Byte → Except ErrorKind Chunk) : Prop where
  script : ∀ {s}, P s → s.script = []
  consumes : ∀ {s}, P s → s.phase.consumes = true
  /-- A byte is added to those taken, or ends the command whatever bytes follow. -/
  byte : ∀ {s b rest}, P s → s.inq = .byte b :: rest → ∃ t, step s = .next t ∧
    ((P t ∧ soFar t = soFar s ++ [b]) ∨
      (t.phase = .idle ∧ ∀ post, tokens (soFar s ++ [b] ++ post) = (soFar s).length + 1 ∧
        ShowsOutcome t (outcome (soFar s ++ [b] ++ post))))
  /-- EOS ends the command. -/
  eos : ∀ {s rest}, P s → s.inq = .eos :: rest → ∃ t, step s = .next t ∧ t.phase = .idle ∧
    tokens (soFar s) = (soFar s).length + 1 ∧ ShowsOutcome t (outcome (soFar s))

/-- Run on the bytes that are left and their EOS, such a command ends idle with the outcome of the function,
after the tokens it counts; by induction over those bytes. -/
theorem ReadsSlice.run {P : State → Prop} {soFar : State → List Byte} {tokens : List Byte → Nat}
    {outcome : List Byte → Except ErrorKind Chunk} (h : ReadsSlice P soFar tokens outcome) {s : State}
    {post : List Byte} {rest : List Token} (hP : P s) (hq : s.inq = sliceTokens post ++ rest) :
    ∃ k t, stepMany k s = .next t ∧ TookTokens k s t ∧ t.phase = .idle ∧
      tokens (soFar s ++ post) = (soFar s).length + k ∧ ShowsOutcome t (outcome (soFar s ++ post)) := by
  induction post generalizing s with
  | nil =>
    obtain ⟨t, hstep, hidle, htokens, hshows⟩ := h.eos hP hq
    rw [List.append_nil]
    exact ⟨1, t, stepMany_one hstep, tookTokens_step (h.script hP) (h.consumes hP) hstep, hidle, htokens, hshows⟩
  | cons b post ih =>
    obtain ⟨t, hstep, hcase⟩ := h.byte (rest := sliceTokens post ++ rest) hP hq
    have htook := tookTokens_step (h.script hP) (h.consumes hP) hstep
    have hbytes : soFar s ++ b :: post = soFar s ++ [b] ++ post := by simp
    rw [hbytes]
    rcases hcase with ⟨hPt, hsoFar⟩ | ⟨hidle, hdone⟩
    · obtain ⟨k, u, hrun, htook', hidle, htokens, hshows⟩ := ih hPt (by rw [htook.inq, hq]; rfl)
      rw [hsoFar] at htokens hshows
      refine ⟨1 + k, u, ?_, htook.trans htook', hidle, ?_, hshows⟩
      · rw [stepMany_add (stepMany_one hstep), hrun]
      · rw [htokens, List.length_append, List.length_singleton, Nat.add_assoc]
    · obtain ⟨htokens, hshows⟩ := hdone post
      exact ⟨1, t, stepMany_one hstep, htook, hidle, htokens, hshows⟩

/-! ## PARSE -/

/-- The engine is in a phase of PARSE, with no host action left. -/
structure Parsing (cap : Word) (s : State) : Prop where
  phase : s.phase ∈ [Phase.pLen, .pType, .pData, .pCrc]
  script : s.script = []
  cap : s.cap = cap
  bufForm : s.buf.wf = true
  ok : phaseOk s

/-- The bytes that a PARSE under way has taken, in order. -/
def parsedBytes (s : State) : List Byte :=
  match s.phase with
  | .pLen => (be32 s.len).drop (4 - s.idx.toNat)
  | .pType => be32 s.len ++ (be32 s.typ).drop (4 - s.idx.toNat)
  | .pData => be32 s.len ++ be32 s.typ ++ s.buf.prefixBytes s.idx.toNat
  | .pCrc =>
    be32 s.len ++ be32 s.typ ++ s.buf.prefixBytes s.len.toNat ++ (be32 s.scrc).drop (4 - s.idx.toNat)
  | _ => []

/-- The outcome of the function parse, the count of bytes left out. -/
def parseOutcome (cap : Word) (bytes : List Byte) : Except ErrorKind Chunk :=
  (parseSlice cap bytes).map Prod.fst

section
variable {cap : Word} {s t : State}

theorem showsOutcome_of_error {bytes : List Byte} {k : ErrorKind} (h : parseSlice cap bytes = .error k)
    (herr : t.err = k.code) (hcv : t.cv = false) : ShowsOutcome t (parseOutcome cap bytes) := by
  rw [parseOutcome, h]
  exact ⟨herr, heldChunk_of_cv_false hcv⟩

theorem Parsing.consumes (h : Parsing cap s) : s.phase.consumes = true := by
  have hp := h.phase
  revert hp; cases s.phase <;> decide

/-- A step that stays within PARSE. -/
theorem Parsing.of_step (h : Parsing cap s) (hstep : step s = .next t)
    (hp : t.phase ∈ [Phase.pLen, .pType, .pData, .pCrc]) : Parsing cap t := by
  have htook := tookTokens_step h.script h.consumes hstep
  rw [step_nil h.script] at hstep
  exact ⟨hp, htook.script.trans h.script, htook.cap.trans h.cap, engineStep_wf h.bufForm hstep,
    engineStep_phaseOk h.bufForm h.ok hstep⟩

theorem parsedBytes_pLen (hp : s.phase = .pLen) : parsedBytes s = (be32 s.len).drop (4 - s.idx.toNat) := by
  simp only [parsedBytes, hp]

theorem parsedBytes_pType (hp : s.phase = .pType) :
    parsedBytes s = be32 s.len ++ (be32 s.typ).drop (4 - s.idx.toNat) := by
  simp only [parsedBytes, hp]

theorem parsedBytes_pData (hp : s.phase = .pData) :
    parsedBytes s = be32 s.len ++ be32 s.typ ++ s.buf.prefixBytes s.idx.toNat := by
  simp only [parsedBytes, hp]

theorem parsedBytes_pCrc (hp : s.phase = .pCrc) :
    parsedBytes s =
      be32 s.len ++ be32 s.typ ++ s.buf.prefixBytes s.len.toNat ++ (be32 s.scrc).drop (4 - s.idx.toNat) := by
  simp only [parsedBytes, hp]

/-- The last byte of a field completes it. -/
theorem drop_be32_append_last {v i : Word} (h3 : i = 3#32) (b : Byte) :
    (be32 v).drop (4 - i.toNat) ++ [b] = be32 (shiftIn v b) := by
  subst h3; exact (drop_be32_shiftIn (v := v) (k := 3) (by omega) b).symm

/-- A byte before the last shifts the field on. -/
theorem drop_be32_append_early {v i : Word} (hi : i.toNat < 4) (b : Byte) :
    (be32 v).drop (4 - i.toNat) ++ [b] = (be32 (shiftIn v b)).drop (4 - (i + 1#32).toNat) := by
  rw [show (i + 1#32).toNat = i.toNat + 1 by bv_omega, drop_be32_shiftIn hi]

/-- What a byte of PARSE leads to: PARSE goes on with that byte taken, or it has ended with the outcome of the
function on every slice that begins so. -/
def ParseByteResult (cap : Word) (s t : State) (b : Byte) : Prop :=
  (t.phase ∈ [Phase.pLen, .pType, .pData, .pCrc] ∧ parsedBytes t = parsedBytes s ++ [b]) ∨
  (t.phase = .idle ∧ ∀ post, parseTokens cap (parsedBytes s ++ [b] ++ post) = (parsedBytes s).length + 1 ∧
    ShowsOutcome t (parseOutcome cap (parsedBytes s ++ [b] ++ post)))

section
variable {b : Byte} {rest : List Token} (h : Parsing cap s) (hq : s.inq = .byte b :: rest)
include h hq

theorem parsing_pLen_byte (hp : s.phase = .pLen) : ∃ t, step s = .next t ∧ ParseByteResult cap s t b := by
  obtain ⟨_, hidx⟩ := (phaseOk_pLen hp).1 h.ok
  have hstep := step_pLen_byte h.script hp hq
  by_cases h3 : s.idx = 3#32
  · refine ⟨_, hstep.trans (parseLenByte_last b h3), .inl ⟨by simp, ?_⟩⟩
    rw [parsedBytes_pLen hp, drop_be32_append_last h3, parsedBytes_pType (by simp)]
    simp
  · refine ⟨_, hstep.trans (parseLenByte_early b h3), .inl ⟨by simp [hp], ?_⟩⟩
    rw [parsedBytes_pLen hp, drop_be32_append_early hidx, parsedBytes_pLen (by exact hp)]
    simp

/-- The fourth byte completes the header: it is refused by a test of R162, or P_CRC or P_DATA begins. -/
theorem parsing_pType_byte (hp : s.phase = .pType) : ∃ t, step s = .next t ∧ ParseByteResult cap s t b := by
  obtain ⟨hcv, hidx, _⟩ := (phaseOk_pType hp).1 h.ok
  have hstep := step_pType_byte h.script hp hq
  by_cases h3 : s.idx = 3#32
  · have hstep' := hstep.trans (parseTypeByte_last b h3)
    have hbytes : parsedBytes s ++ [b] = be32 s.len ++ be32 (shiftIn s.typ b) := by
      rw [parsedBytes_pType hp, List.append_assoc, drop_be32_append_last h3]
    have hcount : (parsedBytes s).length + 1 = 8 := by simpa using congrArg List.length hbytes
    cases ha : alpha4 (shiftIn s.typ b) with
    | false =>
      refine ⟨_, hstep'.trans (congrArg _ (parseTypeTests_not_alpha ha)), .inr ⟨rfl, fun post => ?_⟩⟩
      have hparse := parseSlice_header_not_alpha (cap := cap) (l := s.len) ha post
      rw [hbytes, hcount]
      exact ⟨by rw [parseTokens, hparse], showsOutcome_of_error hparse rfl hcv⟩
    | true =>
      by_cases hcap : s.cap.toNat < s.len.toNat
      · refine ⟨_, hstep'.trans (congrArg _ (parseTypeTests_capacity ha hcap)), .inr ⟨rfl, fun post => ?_⟩⟩
        have hparse := parseSlice_header_capacity ha (h.cap ▸ hcap) post
        rw [hbytes, hcount]
        exact ⟨by rw [parseTokens, hparse], showsOutcome_of_error hparse rfl hcv⟩
      · by_cases h0 : s.len = 0#32
        · refine ⟨_, hstep'.trans (congrArg _ (parseTypeTests_empty ha h0)), .inl ⟨by simp, ?_⟩⟩
          rw [hbytes, parsedBytes_pCrc (by simp)]
          simp [h0, Memory.prefixBytes_zero]
        · refine ⟨_, hstep'.trans (congrArg _ (parseTypeTests_payload ha (not_lt.1 hcap) h0)),
            .inl ⟨by simp, ?_⟩⟩
          rw [hbytes, parsedBytes_pData (by simp)]
          simp [Memory.prefixBytes_zero]
  · refine ⟨_, hstep.trans (parseTypeByte_early b h3), .inl ⟨by simp [hp], ?_⟩⟩
    rw [parsedBytes_pType hp, List.append_assoc, drop_be32_append_early hidx, parsedBytes_pType (by exact hp)]
    simp

theorem parsing_pData_byte (hp : s.phase = .pData) : ∃ t, step s = .next t ∧ ParseByteResult cap s t b := by
  obtain ⟨_, hidx, hlen, _⟩ := (phaseOk_pData hp).1 h.ok
  have hstep := (step_pData_byte h.script hp hq).trans
    (parseDataByte_next (s := { s with inq := rest }) b (hidx.trans_le hlen))
  have hbytes : parsedBytes s ++ [b] =
      be32 s.len ++ be32 s.typ ++ (s.buf.write s.idx.toNat b).prefixBytes (s.idx.toNat + 1) := by
    rw [parsedBytes_pData hp, Memory.prefixBytes_write_succ _ b h.bufForm, List.append_assoc]
  refine ⟨_, hstep, .inl ?_⟩
  by_cases hl : s.idx = s.len - 1#32
  · rw [if_pos hl]
    refine ⟨by simp, ?_⟩
    rw [hbytes, parsedBytes_pCrc (by simp)]
    simp [show s.len.toNat = s.idx.toNat + 1 by bv_omega]
  · rw [if_neg hl]
    refine ⟨by simp [hp], ?_⟩
    rw [hbytes, parsedBytes_pData (by exact hp)]
    simp only [advance_len, advance_typ, advance_buf, advance_idx,
      show (s.idx + 1#32).toNat = s.idx.toNat + 1 by bv_omega]

theorem parsing_pCrc_byte (hp : s.phase = .pCrc) : ∃ t, step s = .next t ∧ ParseByteResult cap s t b := by
  obtain ⟨hcv, hidx, hlen, ha, hacc⟩ := (phaseOk_pCrc hp).1 h.ok
  have hstep := step_pCrc_byte h.script hp hq
  by_cases h3 : s.idx = 3#32
  · have hstep' := hstep.trans (parseCrcByte_last b h3)
    have hbytes : parsedBytes s ++ [b] =
        serializeChunk ⟨s.len, s.typ, s.buf.prefixBytes s.len.toNat, shiftIn s.scrc b⟩ := by
      rw [parsedBytes_pCrc hp, List.append_assoc, drop_be32_append_last h3, serializeChunk]
    have hcount : (parsedBytes s).length + 1 = 12 + s.len.toNat := by
      simpa using congrArg List.length hbytes
    have hcrc : crcFinal s.acc = chunkCrc s.typ (s.buf.prefixBytes s.len.toNat) := congrArg crcFinal hacc
    by_cases heq : shiftIn s.scrc b = crcFinal s.acc
    · refine ⟨_, hstep'.trans (congrArg _ (parseCrcTest_match heq)), .inr ⟨rfl, fun post => ?_⟩⟩
      have hsound : Chunk.sound cap ⟨s.len, s.typ, s.buf.prefixBytes s.len.toNat, shiftIn s.scrc b⟩ = true :=
        Chunk.sound_iff.2 ⟨ha, by simp, h.cap ▸ hlen, heq.trans hcrc⟩
      rw [hbytes, parseTokens, parseOutcome, parseSlice_serializeChunk hsound, hcount, heq]
      exact ⟨rfl, rfl, heldChunk_eq_some_iff.2 ⟨rfl, rfl⟩⟩
    · refine ⟨_, hstep'.trans (congrArg _ (parseCrcTest_mismatch heq)), .inr ⟨rfl, fun post => ?_⟩⟩
      have hparse := parseSlice_serializeChunk_mismatch
        (c := ⟨s.len, s.typ, s.buf.prefixBytes s.len.toNat, shiftIn s.scrc b⟩) ha (by simp) (h.cap ▸ hlen)
        (hcrc ▸ heq) post
      obtain ⟨hfirst, _⟩ := fields_of_serializeChunk
        (c := ⟨s.len, s.typ, s.buf.prefixBytes s.len.toNat, shiftIn s.scrc b⟩) (by simp) post
      rw [hbytes, hcount]
      exact ⟨by simp only [parseTokens, hparse, hfirst], showsOutcome_of_error hparse rfl hcv⟩
  · refine ⟨_, hstep.trans (parseCrcByte_early b h3), .inl ⟨by simp [hp], ?_⟩⟩
    rw [parsedBytes_pCrc hp, List.append_assoc, drop_be32_append_early hidx, parsedBytes_pCrc (by exact hp)]
    simp

end

/-- Where the slice ends within a PARSE, the function parse finds it truncated. -/
theorem parseSlice_parsedBytes (h : Parsing cap s) : parseSlice cap (parsedBytes s) = .error .truncatedChunk := by
  have hphase := h.phase
  simp only [List.mem_cons, List.not_mem_nil, or_false] at hphase
  rcases hphase with hp | hp | hp | hp
  · obtain ⟨_, hidx⟩ := (phaseOk_pLen hp).1 h.ok
    exact parseSlice_of_short_header (by rw [parsedBytes_pLen hp]; simp; omega)
  · obtain ⟨_, hidx, _⟩ := (phaseOk_pType hp).1 h.ok
    exact parseSlice_of_short_header (by rw [parsedBytes_pType hp]; simp; omega)
  · obtain ⟨_, hidx, hlen, ha, _⟩ := (phaseOk_pData hp).1 h.ok
    rw [parsedBytes_pData hp]
    exact parseSlice_header_short ha (h.cap ▸ hlen) (by simp; omega)
  · obtain ⟨_, hidx, hlen, ha, _⟩ := (phaseOk_pCrc hp).1 h.ok
    rw [parsedBytes_pCrc hp, List.append_assoc]
    exact parseSlice_header_short ha (h.cap ▸ hlen) (by simp; omega)

/-- PARSE reads its slice as the function parse does. -/
theorem parse_readsSlice (cap : Word) :
    ReadsSlice (Parsing cap) parsedBytes (parseTokens cap) (parseOutcome cap) where
  script h := h.script
  consumes h := h.consumes
  byte {s b rest} h hq := by
    have hresult : ∃ t, step s = .next t ∧ ParseByteResult cap s t b := by
      have hphase := h.phase
      simp only [List.mem_cons, List.not_mem_nil, or_false] at hphase
      rcases hphase with hp | hp | hp | hp
      · exact parsing_pLen_byte h hq hp
      · exact parsing_pType_byte h hq hp
      · exact parsing_pData_byte h hq hp
      · exact parsing_pCrc_byte h hq hp
    obtain ⟨t, hstep, hcase⟩ := hresult
    exact ⟨t, hstep, hcase.imp_left fun ⟨hp, hbytes⟩ => ⟨h.of_step hstep hp, hbytes⟩⟩
  eos {s rest} h hq := by
    have hparse := parseSlice_parsedBytes h
    have hcv := cv_of_consumes h.ok h.consumes
    exact ⟨_, step_parse_eos h.script h.phase hq, rfl, by rw [parseTokens, hparse],
      showsOutcome_of_error hparse rfl hcv⟩

end

/-- Settles O52: after the acceptance PARSE reads the slice as the function parse does. -/
theorem parseComputesTheParseFunction : Obligations.ParseComputesTheParseFunction := by
  intro s bytes rest hs hp hwf hq
  have hstep := (step_cmdAct hs).trans (whenIdle_idle (s := { s with script := [] }) hp)
  have hparsing : Parsing s.cap
      { s with script := [], cv := false, err := 0#4, len := 0#32, idx := 0#32, phase := .pLen } :=
    ⟨by simp, rfl, rfl, hwf, (phaseOk_pLen rfl).2 ⟨rfl, by simp⟩⟩
  obtain ⟨k, t, hrun, htook, hidle, htokens, hshows⟩ := (parse_readsSlice s.cap).run hparsing hq
  have hnone : parsedBytes { s with
      script := [], cv := false, err := 0#4, len := 0#32, idx := 0#32, phase := .pLen } = [] := by
    rw [parsedBytes_pLen rfl]; rfl
  rw [hnone, List.nil_append, List.length_nil, Nat.zero_add] at htokens
  rw [hnone, List.nil_append, parseOutcome] at hshows
  subst htokens
  refine ⟨t, by rw [stepMany_add (stepMany_one hstep), hrun], hidle, htook.script, htook.seen, htook.outq,
    htook.tvin, htook.ovr, htook.cap, htook.inq, fun c n h => ?_, fun k h => ?_⟩
  · rw [h] at hshows; exact hshows
  · rw [h] at hshows; exact hshows

/-! ## BUILD -/

/-- The engine is in B_DATA, with no host action left. -/
structure Building (cap typ : Word) (s : State) : Prop where
  phase : s.phase = .bData
  script : s.script = []
  cap : s.cap = cap
  typ : s.typ = typ
  bufForm : s.buf.wf = true
  ok : phaseOk s

/-- The payload bytes that a BUILD under way has taken. -/
def builtBytes (s : State) : List Byte := s.buf.prefixBytes s.idx.toNat

section
variable {cap typ : Word} {s : State} {b : Byte} {rest : List Token}

theorem step_bData (h : Building cap typ s) : step s = buildStep s :=
  (step_nil h.script).trans (engineStep_bData h.phase)

/-- A payload longer than BUF: Capacity, after the byte that finds it full (R191). -/
theorem buildChunk_of_capacity {d : List Byte} (ha : alpha4 typ = true) (hcap : cap.toNat < d.length) :
    buildChunk cap typ d = .error .capacity ∧ buildTokens cap typ d = cap.toNat + 1 := by
  simp [buildChunk, buildTokens, ha, hcap]

/-- A payload that fits: the chunk, after every byte and the EOS (R192). -/
theorem buildChunk_of_fits {d : List Byte} (ha : alpha4 typ = true) (hcap : d.length ≤ cap.toNat) :
    buildChunk cap typ d = .ok ⟨BitVec.ofNat 32 d.length, typ, d, chunkCrc typ d⟩ ∧
      buildTokens cap typ d = d.length + 1 := by
  simp [buildChunk, buildTokens, ha, Nat.not_lt.2 hcap]

/-- A byte that BUF has room for is stored. -/
theorem Building.store (h : Building cap typ s) (hq : s.inq = .byte b :: rest)
    (hlt : s.idx.toNat < s.cap.toNat) :
    ∃ t, step s = .next t ∧ Building cap typ t ∧ builtBytes t = builtBytes s ++ [b] := by
  have hstep := (step_bData h).trans (buildStep_store hq hlt)
  have hengine := (step_nil h.script).symm.trans hstep
  refine ⟨_, hstep, ⟨h.phase, h.script, h.cap, h.typ, engineStep_wf h.bufForm hengine,
    engineStep_phaseOk h.bufForm h.ok hengine⟩, ?_⟩
  simp only [builtBytes, show (s.idx + 1#32).toNat = s.idx.toNat + 1 by bv_omega,
    Memory.prefixBytes_write_succ _ b h.bufForm]

/-- BUILD reads its payload as the function build does. -/
theorem build_readsSlice (cap typ : Word) :
    ReadsSlice (Building cap typ) builtBytes (buildTokens cap typ) (buildChunk cap typ) where
  script h := h.script
  consumes h := by rw [h.phase]; rfl
  byte {s b rest} h hq := by
    obtain ⟨hcv, hidx, ha, _⟩ := (phaseOk_bData h.phase).1 h.ok
    by_cases hfull : s.idx = s.cap
    · refine ⟨_, (step_bData h).trans (buildStep_full hq hfull), .inr ⟨rfl, fun post => ?_⟩⟩
      have hcount : (builtBytes s).length = cap.toNat := by simp [builtBytes, hfull, h.cap]
      obtain ⟨hbuild, htokens⟩ := buildChunk_of_capacity (cap := cap) (d := builtBytes s ++ [b] ++ post)
        (h.typ ▸ ha) (by simp [hcount])
      rw [hbuild, htokens, hcount]
      exact ⟨rfl, rfl, heldChunk_of_cv_false hcv⟩
    · have hlt := lt_of_le_of_ne hidx fun heq => hfull (BitVec.eq_of_toNat_eq heq)
      obtain ⟨t, hstep, hnext⟩ := h.store hq hlt
      exact ⟨t, hstep, .inl hnext⟩
  eos {s rest} h hq := by
    obtain ⟨_, hidx, ha, hacc⟩ := (phaseOk_bData h.phase).1 h.ok
    have hcount : (builtBytes s).length = s.idx.toNat := by simp [builtBytes]
    obtain ⟨hbuild, htokens⟩ := buildChunk_of_fits (cap := cap) (d := builtBytes s) (h.typ ▸ ha)
      (by rw [hcount, ← h.cap]; exact hidx)
    refine ⟨_, (step_bData h).trans (buildStep_eos hq), rfl, htokens, ?_⟩
    rw [hbuild]
    refine ⟨rfl, heldChunk_eq_some_iff.2 ⟨rfl, ?_⟩⟩
    have hcrc : crcFinal s.acc = chunkCrc s.typ (builtBytes s) := congrArg crcFinal hacc
    simp only [hcrc, h.typ, hcount, BitVec.ofNat_toNat, BitVec.setWidth_eq]
    rfl

end

/-- Settles O53: a type refused at the acceptance, or BUILD reads the payload as the function build does. -/
theorem buildComputesTheBuildFunction : Obligations.BuildComputesTheBuildFunction := by
  intro s d rest hs hp hwf hq
  cases ha : alpha4 s.tvin with
  | false =>
    have hstep := (step_cmdAct hs).trans (exec_build_not_alpha (s := { s with script := [] }) hp ha)
    have htokens : buildTokens s.cap s.tvin d = 0 := by simp [buildTokens, ha]
    have hbuild : buildChunk s.cap s.tvin d = .error .invalidChunkType := by simp [buildChunk, ha]
    rw [htokens, hbuild]
    refine ⟨_, stepMany_one hstep, hp, rfl, rfl, rfl, rfl, rfl, rfl, rfl, fun c h => ?_, fun k h => ?_⟩
    · cases h
    · cases h; exact ⟨rfl, heldChunk_of_cv_false rfl⟩
  | true =>
    have hstep := (step_cmdAct hs).trans (exec_build_alpha (s := { s with script := [] }) hp ha)
    have hbuilding : Building s.cap s.tvin { s with
        script := [], cv := false, err := 0#4, typ := s.tvin, acc := crcFold crcInit (be32 s.tvin),
        idx := 0#32, phase := .bData } :=
      ⟨rfl, rfl, rfl, rfl, hwf,
        (phaseOk_bData rfl).2 ⟨rfl, Nat.zero_le _, ha, by simp [Memory.prefixBytes_zero]⟩⟩
    obtain ⟨k, t, hrun, htook, hidle, htokens, hshows⟩ := (build_readsSlice _ _).run hbuilding hq
    obtain rfl : buildTokens s.cap s.tvin d = k := by
      simpa [builtBytes, Memory.prefixBytes_zero] using htokens
    simp only [builtBytes, BitVec.toNat_zero, Memory.prefixBytes_zero, List.nil_append] at hshows
    refine ⟨t, by rw [stepMany_add (stepMany_one hstep), hrun], hidle, htook.script, htook.seen, htook.outq,
      htook.tvin, htook.ovr, htook.cap, htook.inq, fun c h => ?_, fun k h => ?_⟩
    · rw [h] at hshows; exact hshows
    · rw [h] at hshows; exact hshows

/-! ## EMIT, then PARSE -/

/-- The chunk held in a state that meets the invariant is sound (R44). -/
theorem sound_of_inv {s : State} (hinv : Inv s) (hcv : s.cv = true) :
    Chunk.sound s.cap ⟨s.len, s.typ, s.buf.prefixBytes s.len.toNat, s.crcr⟩ = true := by
  obtain ⟨_, ha, hlen, hcrc⟩ := recordOk_of_cv hinv.phase hcv
  exact Chunk.sound_iff.2 ⟨ha, by simp, hlen, hcrc⟩

/-- Settles O56: EMIT sends the wire form of a sound chunk, which PARSE reads back. -/
theorem emitThenParseKeepsTheChunk : Obligations.EmitThenParseKeepsTheChunk := by
  intro s hinv hp hcv hs hout
  have hheld : heldChunk s = some ⟨s.len, s.typ, s.buf.prefixBytes s.len.toNat, s.crcr⟩ :=
    heldChunk_eq_some_iff.2 ⟨hcv, rfl⟩
  have hsound := sound_of_inv hinv hcv
  obtain ⟨_, _, hlen, _⟩ := Chunk.sound_iff.1 hsound
  have hemit := (emitComputesTheWireForm s _ hp hheld hlen).1 hs
  rw [hout, List.nil_append] at hemit
  have hparse := parseSlice_serializeChunk hsound []
  rw [List.append_nil] at hparse
  have htokens : parseTokens s.cap
      (serializeChunk ⟨s.len, s.typ, s.buf.prefixBytes s.len.toNat, s.crcr⟩) = 12 + s.len.toNat := by
    rw [parseTokens, hparse]
  obtain ⟨u, hrun, hidle, _, _, _, _, _, _, hinq, hok, _⟩ := parseComputesTheParseFunction
    { s with
      err := 0#4, idx := 0#32, outq := [], script := [cmdAct .parse],
      inq := sliceTokens (serializeChunk ⟨s.len, s.typ, s.buf.prefixBytes s.len.toNat, s.crcr⟩) }
    _ [] rfl hp hinv.bufForm (List.append_nil _).symm
  obtain ⟨herr, hu⟩ := hok _ _ hparse
  obtain ⟨hucv, _⟩ := heldChunk_eq_some_iff.1 hu
  rw [htokens] at hrun hinq
  refine ⟨_, u, hemit, hrun, hidle, herr, hucv, hu.trans hheld.symm, ?_⟩
  rw [hinq, sliceTokens, List.drop_left' (by simp)]

end Sys2Proof.Machine

/-! # Commands under way end

The work left of a command under way falls with every step, as long as a command that consumes tokens has
its EOS in INQ (70_reset_and_hazards.md section 4). -/

namespace Sys2Proof.Machine

open Sys2Proof

/-- An upper bound of the steps left of the command under way: the tokens of INQ for one that consumes them,
the tokens still to be sent for one that emits them. -/
def engineWork (s : State) : Nat :=
  match s.phase with
  | .idle => 0
  | .pLen | .pType | .pData | .pCrc | .bData => s.inq.length
  | .eLen => (4 - s.idx.toNat) + (4 + s.len.toNat + 5)
  | .eType => (4 - s.idx.toNat) + (s.len.toNat + 5)
  | .eData => (s.len.toNat - s.idx.toNat) + 5
  | .eCrc => (4 - s.idx.toNat) + 1
  | .dData => (s.len.toNat - s.idx.toNat) + 1
  | .eEos | .dEos => 1

theorem engineWork_le (s : State) : engineWork s ≤ s.inq.length + 13 + s.len.toNat := by
  unfold engineWork
  split <;> omega

theorem engineWork_idle {s : State} (hp : s.phase = .idle) : engineWork s = 0 := by
  simp only [engineWork, hp]

theorem engineWork_consumes {s : State} (hc : s.phase.consumes = true) : engineWork s = s.inq.length := by
  revert hc
  unfold engineWork
  cases s.phase <;> simp [Phase.consumes]

/-- A phase that consumes tokens leads to such phases and to IDLE. -/
theorem Phase.successors_of_consumes {p : Phase} (hp : p.consumes = true) :
    ∀ q ∈ p.successors, q.consumes = true ∨ q = .idle := by
  revert hp; cases p <;> decide

/-- A phase that emits tokens does not lead to one that consumes them. -/
theorem Phase.successors_of_emits {p : Phase} (hp : p.emits = true) :
    ∀ q ∈ p :: p.successors, q.consumes = false := by
  revert hp; cases p <;> decide

section
variable {s t : State}

/-- A step of a consuming phase with a token there uses the token up. -/
theorem engineWork_consuming_lt (hc : s.phase.consumes = true) (hq : s.inq ≠ [])
    (h : engineStep s = .next t) : engineWork t < engineWork s := by
  have hpos := List.length_pos_of_ne_nil hq
  have hconsumes : t.phase.consumes = true ∨ t.phase = .idle := by
    rcases engineStep_phase h with ht | ht
    · rw [ht]; exact .inl hc
    · exact Phase.successors_of_consumes hc _ ht
  rw [engineWork_consumes hc]
  rcases hconsumes with ht | ht
  · rw [engineWork_consumes ht, (engineStep_consuming hc h).inq, List.length_tail]; omega
  · rw [engineWork_idle ht]; exact hpos

/-- A step of an emitting phase sends one of the tokens left. -/
theorem engineWork_emitting_lt (hok : phaseOk s) (he : s.phase.emits = true)
    (h : engineStep s = .next t) : engineWork t < engineWork s := by
  cases hp : s.phase with
  | eLen =>
    rw [engineStep_eLen hp] at h
    obtain ⟨hidx, _, _, ⟨h3, rfl⟩ | ⟨h3, rfl⟩⟩ := emitFieldByte_cases h <;>
      simp only [engineWork, hp] <;> bv_omega
  | eType =>
    rw [engineStep_eType hp] at h
    obtain ⟨hidx, _, _, ⟨h3, rfl⟩ | ⟨h3, rfl⟩⟩ := emitFieldByte_cases h
    · by_cases h0 : s.len = 0#32
      · simp only [engineWork, hp, if_pos h0]; bv_omega
      · simp only [engineWork, hp, if_neg h0]; bv_omega
    · simp only [engineWork, hp]; bv_omega
  | eCrc =>
    rw [engineStep_eCrc hp] at h
    obtain ⟨hidx, _, _, ⟨h3, rfl⟩ | ⟨h3, rfl⟩⟩ := emitFieldByte_cases h <;>
      simp only [engineWork, hp] <;> bv_omega
  | eData =>
    obtain ⟨_, _, hidx⟩ := (phaseOk_payload (.inl hp)).1 hok
    rw [engineStep_eData hp] at h
    obtain ⟨_, _, _, ⟨hl, rfl⟩ | ⟨hl, rfl⟩⟩ := emitPayloadByte_cases h <;>
      simp only [engineWork, hp] <;> bv_omega
  | dData =>
    obtain ⟨_, _, hidx⟩ := (phaseOk_payload (.inr hp)).1 hok
    rw [engineStep_dData hp] at h
    obtain ⟨_, _, _, ⟨hl, rfl⟩ | ⟨hl, rfl⟩⟩ := emitPayloadByte_cases h <;>
      simp only [engineWork, hp] <;> bv_omega
  | eEos => rw [engineStep_eEos hp] at h; cases h; simp [engineWork, hp]
  | dEos => rw [engineStep_dEos hp] at h; cases h; simp [engineWork, hp]
  | _ => simp [hp, Phase.emits] at he

/-- EOS ends every command that consumes tokens. -/
theorem engineStep_eos_idle {rest : List Token} (hc : s.phase.consumes = true) (hq : s.inq = .eos :: rest)
    (h : engineStep s = .next t) : t.phase = .idle := by
  cases hp : s.phase with
  | pLen => rw [engineStep_pLen hp, parseLenStep, consume_eos hq] at h; cases h; rfl
  | pType => rw [engineStep_pType hp, parseTypeStep, consume_eos hq] at h; cases h; rfl
  | pData => rw [engineStep_pData hp, parseDataStep, consume_eos hq] at h; cases h; rfl
  | pCrc => rw [engineStep_pCrc hp, parseCrcStep, consume_eos hq] at h; cases h; rfl
  | bData => rw [engineStep_bData hp, buildStep, consume_eos hq] at h; cases h; rfl
  | _ => simp [hp, Phase.consumes] at hc

/-- While a command consumes tokens its EOS stays in INQ. -/
theorem engineStep_keeps_eos (heos : s.phase.consumes = true → Token.eos ∈ s.inq)
    (h : engineStep s = .next t) (ht : t.phase.consumes = true) : Token.eos ∈ t.inq := by
  rcases s.phase.consumes_or_emits_or_idle with hc | he | hp
  · rw [(engineStep_consuming hc h).inq]
    have hmem := heos hc
    match hq : s.inq with
    | [] => simp [hq] at hmem
    | .byte b :: rest => simpa [hq] using hmem
    | .eos :: rest => simp [engineStep_eos_idle hc hq h, Phase.consumes] at ht
  · have hnot := Phase.successors_of_emits he t.phase (List.mem_cons.2 (engineStep_phase h))
    simp [hnot] at ht
  · rw [engineStep_idle hp] at h; cases h; exact heos ht

/-- A busy engine that does not lack its EOS has less work left after each step. -/
theorem engineWork_lt (hok : phaseOk s) (hbusy : s.phase ≠ .idle)
    (heos : s.phase.consumes = true → Token.eos ∈ s.inq) (h : engineStep s = .next t) :
    engineWork t < engineWork s := by
  rcases s.phase.consumes_or_emits_or_idle with hc | he | hp
  · exact engineWork_consuming_lt hc (List.ne_nil_of_mem (heos hc)) h
  · exact engineWork_emitting_lt hok he h
  · exact absurd hp hbusy

/-- The command ends within the work left, by induction on its bound. -/
theorem ends_within_work {n : Nat} (hinv : Inv s) (hs : s.script = [])
    (heos : s.phase.consumes = true → Token.eos ∈ s.inq) (hn : engineWork s ≤ n) :
    ∃ k t, k ≤ n ∧ stepMany k s = .next t ∧ t.phase = .idle := by
  induction n generalizing s with
  | zero =>
    refine ⟨0, s, le_rfl, rfl, by_contra fun hbusy => ?_⟩
    obtain ⟨t, h⟩ := engineStep_next hinv.phase
    have hlt := engineWork_lt hinv.phase hbusy heos h
    omega
  | succ n ih =>
    by_cases hidle : s.phase = .idle
    · exact ⟨0, s, Nat.zero_le _, rfl, hidle⟩
    · obtain ⟨t, h⟩ := engineStep_next hinv.phase
      have hlt := engineWork_lt hinv.phase hidle heos h
      obtain ⟨_, _, _, hscript, _⟩ := engineStep_frame h
      obtain ⟨k, u, hk, hrun, hu⟩ := ih (engineStep_inv hinv h) (hscript.trans hs)
        (engineStep_keeps_eos heos h) (by omega)
      exact ⟨k + 1, u, by omega, (stepMany_succ ((step_nil hs).trans h)).trans hrun, hu⟩

end

/-- Settles O57: the work left bounds the steps, and is at most what the statement allows. -/
theorem commandsUnderWayEnd : Obligations.CommandsUnderWayEnd :=
  fun s hinv hs heos => ends_within_work hinv hs heos (engineWork_le s)

end Sys2Proof.Machine
